-- ==== Sys2Proof/Word.lean ====
section
/-! DEFINITION. Bytes and byte arrays (00_scope.md R9, R10): the plainest word types of the core. -/

namespace Sys2Proof

/-- An unsigned 8-bit value (00_scope.md R9). -/
abbrev Byte := BitVec 8

/-- A register file or byte array of `n` bytes, element 0 first (00_scope.md R10). -/
abbrev Bytes (n : Nat) := Vector Byte n

/-- `n` zero bytes. -/
abbrev Bytes.zero (n : Nat) : Bytes n := Vector.replicate n 0

/-- Element `j` of a byte array; every use in the model has `j < n`, and the `0` stands for nothing. -/
def Bytes.at {n : Nat} (v : Bytes n) (j : Nat) : Byte := if h : j < n then v[j] else 0

/-- Write element `j` of a byte array; every use in the model has `j < n`. -/
def Bytes.put {n : Nat} (v : Bytes n) (j : Nat) (x : Byte) : Bytes n := v.setIfInBounds j x

end Sys2Proof
end

