-- ==== Sys2Proof/Config.lean ====
section
/-! DEFINITION. What the spec leaves as open parameters of the core (92_eei_decisions.md, open parameters)
and the constants it settles (00_scope.md R6, R7). -/

namespace Sys2Proof

/-- The open parameters of one core: the two cipher functions (43_cipher_adapter.md R222) and the two
initial values with the source's literals as defaults (00_scope.md R7). -/
structure Config where
  /-- `FE : Byte^8 × Byte^10 -> Byte^8`, plaintext then key (R220). -/
  fe : Bytes 8 → Bytes 10 → Bytes 8
  /-- `RRE : Byte^8 × Byte^10 × Nat -> Byte^8`, seed, working block with salt, round count (R221, R223). -/
  rre : Bytes 8 → Bytes 10 → Nat → Bytes 8
  /-- `IV1`, index order (R7). -/
  iv1 : Bytes 8 := #v[0x01, 0x23, 0x45, 0x67, 0x89, 0xAB, 0xCD, 0xEF]
  /-- `IV2`, index order (R7). -/
  iv2 : Bytes 8 := #v[0xFE, 0xDC, 0xBA, 0x98, 0x76, 0x54, 0x32, 0x10]

/-- The full encryption of the external cipher: an open parameter without a body, so that nothing
is assumed of it but that it is a function of its operands (43_cipher_adapter.md R222, log 5). -/
opaque Config.fullEncrypt : Bytes 8 → Bytes 10 → Bytes 8

/-- The reduced-round keyed permutation of the external cipher: an open parameter without a body
(43_cipher_adapter.md R222, log 5). -/
opaque Config.reducedRound : Bytes 8 → Bytes 10 → Nat → Bytes 8

/-- The core the step runs: the open cipher, and the initial values at their defaults
(00_scope.md R7, log 6). -/
def Config.chip : Config where
  fe := Config.fullEncrypt
  rre := Config.reducedRound

/-- `KEYLEN_FIELD`, the integer encoded as the key-length field in both variants (00_scope.md R6). -/
def Config.keylenField : BitVec 16 := 80

/-- `ROUNDS`, the round count of every reduced-round request (00_scope.md R6), as the header field. -/
def Config.rounds : BitVec 8 := 16

/-- The `ROUNDS` field of a full-encryption request: a marker for "full" (43_cipher_adapter.md R224). -/
def Config.roundsFull : BitVec 8 := 0

/-- `MAX_MSG_BITS`, the largest accepted message bit length (00_scope.md R6). -/
def Config.maxMsgBits : Nat := 65535

end Sys2Proof
end

