-- ==== Sys2Proof/Syntax.lean ====
section
/-! DEFINITION. The operations of the core, one constructor per row of spec/opcode_table.json
(30_encoding.md R109). -/

namespace Sys2Proof

/-- `VAR`: 0 narrow (one lane, 64-bit tag), 1 wide (two lanes, 128-bit tag) (10_state.md R24). -/
inductive Variant where
  | narrow
  | wide
deriving DecidableEq, Repr

/-- A lane of the core; `LANE = 0` is lane 1, `LANE = 1` lane 2 (30_encoding.md R98). -/
inductive Lane where
  | one
  | two
deriving DecidableEq, Repr

/-- The 21 operations that have an encoding (30_encoding.md R109). -/
inductive Instr where
  /-- Host command 0x01 (R242). -/
  | startN
  /-- Host command 0x02 (R243). -/
  | startW
  /-- Phase 0 (R162); the phase word's `VAR` bit is free and is kept as the operand. -/
  | idle (v : Variant)
  | initN
  | absfN
  | abspN
  | encmN
  | enckN
  | padN
  | flrN
  | finN
  | initW
  | absfW
  | abspW
  | encmW
  | enckW
  | padW
  | flrW
  | finW
  /-- Full-encryption request (R220); the header's fields `LANE` and `ROUNDS` are the operands. -/
  | fe (lane : Lane) (rounds : BitVec 8)
  /-- Reduced-round request (R221); the header's fields `LANE` and `ROUNDS` are the operands. -/
  | rre (lane : Lane) (rounds : BitVec 8)
deriving DecidableEq, Repr

end Sys2Proof
end

