-- ==== Sys2Proof/WellFormed.lean ====
section
/-! DEFINITION. Which operations the encodings admit: an adapter request carries the round count its kind
always has (30_encoding.md R98, 43_cipher_adapter.md R224). -/

namespace Sys2Proof

/-- `FE` requests carry `ROUNDS = 0`, `RRE` requests `ROUNDS = 16` (30_encoding.md R98); no other
operation has an operand that could be ill formed. -/
def Instr.wf : Instr → Bool
  | .fe _ rounds => rounds == Config.roundsFull
  | .rre _ rounds => rounds == Config.rounds
  | .startN | .startW | .idle _ => true
  | .initN | .absfN | .abspN | .encmN | .enckN | .padN | .flrN | .finN => true
  | .initW | .absfW | .abspW | .encmW | .enckW | .padW | .flrW | .finW => true

end Sys2Proof
end

