-- ==== Sys2Proof/Decode.lean ====
section
/-! DEFINITION. The three decoders of the core (formats H, P and A of 30_encoding.md), the encoder, and the
opcode table as mask and match rows (R109). -/

namespace Sys2Proof

/-- A word of one of the three formats that select an operation (30_encoding.md R90, R109). -/
inductive CodeWord where
  /-- Format H: the 8-bit value written to `CMD` (R91). -/
  | command (w : BitVec 8)
  /-- Format P: the 5-bit phase word `{VAR, PH[3:0]}` (R96). -/
  | phase (w : BitVec 5)
  /-- Format A: the 10-bit adapter header `{ROUNDS, LANE, KIND}` (R98). -/
  | header (w : BitVec 10)
deriving DecidableEq, Repr

/-- Why a word is no operation. -/
inductive Reject where
  /-- A command value other than 0x01 and 0x02 (R92). -/
  | reservedCommand
  /-- A phase code 9 to 15 (R97). -/
  | reservedPhase
  /-- A header that is never issued (R98). -/
  | reservedHeader
deriving DecidableEq, Repr

/-- `VAR` as a bit (10_state.md R24). -/
def Variant.bit : Variant → BitVec 1
  | .narrow => 0
  | .wide => 1

/-- `LANE` as a header bit (30_encoding.md R98). -/
def Lane.bit : Lane → BitVec 1
  | .one => 0
  | .two => 1

/-- Decode of the value written to `CMD` (30_encoding.md R91, R92). -/
def decodeCommand (w : BitVec 8) : Except Reject Instr :=
  if w = 0x01 then .ok .startN
  else if w = 0x02 then .ok .startW
  else .error .reservedCommand

/-- `VAR` of a phase word, its bit 4 (30_encoding.md R96). -/
def phaseWordVar (w : BitVec 5) : Variant := if w.extractLsb' 4 1 = 1 then .wide else .narrow

/-- `PH` of a phase word, its bits 3:0 (30_encoding.md R96). -/
def phaseWordPh (w : BitVec 5) : BitVec 4 := w.extractLsb' 0 4

/-- The operation a phase and a variant select (the table of 30_encoding.md R96). -/
def phaseOp (v : Variant) (ph : BitVec 4) : Except Reject Instr :=
  if ph = 0 then .ok (.idle v) else
  match v with
  | .narrow =>
    if ph = 1 then .ok .initN else if ph = 2 then .ok .absfN else if ph = 3 then .ok .abspN
    else if ph = 4 then .ok .encmN else if ph = 5 then .ok .enckN else if ph = 6 then .ok .padN
    else if ph = 7 then .ok .flrN else if ph = 8 then .ok .finN else .error .reservedPhase
  | .wide =>
    if ph = 1 then .ok .initW else if ph = 2 then .ok .absfW else if ph = 3 then .ok .abspW
    else if ph = 4 then .ok .encmW else if ph = 5 then .ok .enckW else if ph = 6 then .ok .padW
    else if ph = 7 then .ok .flrW else if ph = 8 then .ok .finW else .error .reservedPhase

/-- Decode of the phase word (30_encoding.md R96, R97). -/
def decodePhase (w : BitVec 5) : Except Reject Instr := phaseOp (phaseWordVar w) (phaseWordPh w)

/-- Decode of an adapter header: `ROUNDS` bits 9:2, `LANE` bit 1, `KIND` bit 0 (30_encoding.md R98). -/
def decodeHeader (w : BitVec 10) : Except Reject Instr :=
  let rounds := w.extractLsb' 2 8
  let lane := if w.extractLsb' 1 1 = 1 then Lane.two else Lane.one
  if w.extractLsb' 0 1 = 0 then
    if rounds = Config.roundsFull then .ok (.fe lane rounds) else .error .reservedHeader
  else
    if rounds = Config.rounds then .ok (.rre lane rounds) else .error .reservedHeader

/-- The decoder, total on the words of the three formats; a reserved word is rejected by name. -/
def decode : CodeWord → Except Reject Instr
  | .command w => decodeCommand w
  | .phase w => decodePhase w
  | .header w => decodeHeader w

/-- The phase word `{VAR, PH[3:0]}` (30_encoding.md R96). -/
def phaseWord (v : Variant) (ph : BitVec 4) : BitVec 5 := v.bit ++ ph

/-- The adapter header `{ROUNDS, LANE, KIND}` (30_encoding.md R98). -/
def headerWord (rounds : BitVec 8) (lane : Lane) (kind : BitVec 1) : BitVec 10 :=
  rounds ++ lane.bit ++ kind

/-- The header of a full-encryption request (30_encoding.md R98). -/
def headerFE (lane : Lane) (rounds : BitVec 8) : BitVec 10 := headerWord rounds lane 0

/-- The header of a reduced-round request (30_encoding.md R98). -/
def headerRRE (lane : Lane) (rounds : BitVec 8) : BitVec 10 := headerWord rounds lane 1

/-- The encoder: the word that selects an operation (30_encoding.md R91, R96, R98, R109). -/
def encode : Instr → CodeWord
  | .startN => .command 0x01
  | .startW => .command 0x02
  | .idle v => .phase (phaseWord v 0)
  | .initN => .phase (phaseWord .narrow 1)
  | .absfN => .phase (phaseWord .narrow 2)
  | .abspN => .phase (phaseWord .narrow 3)
  | .encmN => .phase (phaseWord .narrow 4)
  | .enckN => .phase (phaseWord .narrow 5)
  | .padN => .phase (phaseWord .narrow 6)
  | .flrN => .phase (phaseWord .narrow 7)
  | .finN => .phase (phaseWord .narrow 8)
  | .initW => .phase (phaseWord .wide 1)
  | .absfW => .phase (phaseWord .wide 2)
  | .abspW => .phase (phaseWord .wide 3)
  | .encmW => .phase (phaseWord .wide 4)
  | .enckW => .phase (phaseWord .wide 5)
  | .padW => .phase (phaseWord .wide 6)
  | .flrW => .phase (phaseWord .wide 7)
  | .finW => .phase (phaseWord .wide 8)
  | .fe lane rounds => .header (headerFE lane rounds)
  | .rre lane rounds => .header (headerRRE lane rounds)

/-- The formats a row of the opcode table may have (30_encoding.md R109). -/
inductive Format where
  | H
  | P
  | A
deriving DecidableEq, Repr

/-- One row of the opcode table: a word of the format belongs to it when it has the row's bits under
the row's mask (30_encoding.md R109). -/
structure OpcodeRow where
  mnemonic : String
  format : Format
  bits : Nat
  mask : Nat
deriving DecidableEq, Repr

/-- The format of a word. -/
def CodeWord.format : CodeWord → Format
  | .command _ => .H
  | .phase _ => .P
  | .header _ => .A

/-- The bits of a word as a number, bit 0 the least significant. -/
def CodeWord.value : CodeWord → Nat
  | .command w => w.toNat
  | .phase w => w.toNat
  | .header w => w.toNat

/-- A word belongs to a row (30_encoding.md R109: `match` and `mask` are over the bits of the row's
own format). -/
def OpcodeRow.selects (r : OpcodeRow) (w : CodeWord) : Bool :=
  r.format == w.format && (w.value &&& r.mask == r.bits)

/-- The operation table (30_encoding.md R109), with the mnemonics of the host commands and the phases. -/
def opcodeRowsHP : List OpcodeRow :=
  [⟨"START.N", .H, 0x01, 0xFF⟩, ⟨"START.W", .H, 0x02, 0xFF⟩, ⟨"IDLE", .P, 0x00, 0x0F⟩,
   ⟨"INIT.N", .P, 0x01, 0x1F⟩, ⟨"ABSF.N", .P, 0x02, 0x1F⟩, ⟨"ABSP.N", .P, 0x03, 0x1F⟩,
   ⟨"ENCM.N", .P, 0x04, 0x1F⟩, ⟨"ENCK.N", .P, 0x05, 0x1F⟩, ⟨"PAD.N", .P, 0x06, 0x1F⟩,
   ⟨"FLR.N", .P, 0x07, 0x1F⟩, ⟨"FIN.N", .P, 0x08, 0x1F⟩,
   ⟨"INIT.W", .P, 0x11, 0x1F⟩, ⟨"ABSF.W", .P, 0x12, 0x1F⟩, ⟨"ABSP.W", .P, 0x13, 0x1F⟩,
   ⟨"ENCM.W", .P, 0x14, 0x1F⟩, ⟨"ENCK.W", .P, 0x15, 0x1F⟩, ⟨"PAD.W", .P, 0x16, 0x1F⟩,
   ⟨"FLR.W", .P, 0x17, 0x1F⟩, ⟨"FIN.W", .P, 0x18, 0x1F⟩]

/-- The whole operation table of 30_encoding.md R109. -/
def opcodeTable : List OpcodeRow :=
  opcodeRowsHP ++ [⟨"FE", .A, 0x000, 0x3FD⟩, ⟨"RRE", .A, 0x041, 0x3FD⟩]

/-- The mnemonic of an operation (30_encoding.md R107). -/
def Instr.mnemonic : Instr → String
  | .startN => "START.N" | .startW => "START.W" | .idle _ => "IDLE"
  | .initN => "INIT.N" | .absfN => "ABSF.N" | .abspN => "ABSP.N" | .encmN => "ENCM.N"
  | .enckN => "ENCK.N" | .padN => "PAD.N" | .flrN => "FLR.N" | .finN => "FIN.N"
  | .initW => "INIT.W" | .absfW => "ABSF.W" | .abspW => "ABSP.W" | .encmW => "ENCM.W"
  | .enckW => "ENCK.W" | .padW => "PAD.W" | .flrW => "FLR.W" | .finW => "FIN.W"
  | .fe _ _ => "FE" | .rre _ _ => "RRE"

/-- The word an instruction of the opcode table stands for, from its number of bits and its bits: a row of
at most 5 bits is a phase word, a row of 9 to 16 bits an adapter header; in one byte the two command
words are format H, a value that is a phase word of the table is format P, and anything else is format H
again. The bytes 0x01 and 0x02 are words of both formats and count as commands (log 14). -/
def tableWord (nbits w : Nat) : Option CodeWord :=
  if nbits ≤ 5 then
    if w < 32 then some (.phase (BitVec.ofNat 5 w)) else none
  else if nbits ≤ 8 then
    if w = 1 ∨ w = 2 then some (.command (BitVec.ofNat 8 w))
    else if w < 32 ∧ w % 16 ≤ 8 then some (.phase (BitVec.ofNat 5 w))
    else if w < 256 then some (.command (BitVec.ofNat 8 w)) else none
  else if nbits ≤ 16 then
    if w < 1024 then some (.header (BitVec.ofNat 10 w)) else none
  else none

/-- The instruction the decoder reads from a row of the opcode table (log 14). -/
def decodeTableWord (nbits w : Nat) : Option Instr :=
  match tableWord nbits w with
  | none => none
  | some word =>
    match decode word with
    | .ok i => some i
    | .error _ => none

end Sys2Proof
end

