-- ==== Sys2Proof/Machine/State.lean ====
section
/-! DEFINITION. The state of one core instance (10_state.md R20 to R39), with the message space its host owns
and the model's own fields for the adapter port, the host's coming turns and the observation log. -/

namespace Sys2Proof.Machine

/-- The message space `MSG` as the bytes the host holds, addresses strictly rising; an address that is not
listed is one the host holds no byte at (20_memory.md R61, R62, log 3). -/
abbrev Memory := List Host.Cell

/-- The adapter port's request and response record (20_memory.md R60c, 30_encoding.md R98). MODEL'S OWN
(log 7): a request is answered in the step that issues it, so between steps the record is idle. -/
structure Port where
  /-- The header of a request that is issued and not yet answered. -/
  pending : Option (BitVec 10)
  /-- Operand `A[0..7]`. -/
  a : Bytes 8
  /-- Operand `B[0..9]`. -/
  b : Bytes 10
  /-- Response `Q[0..7]`. -/
  q : Bytes 8
deriving DecidableEq, Repr

/-- The port with no request on it. -/
def Port.idle : Port := ⟨none, Bytes.zero 8, Bytes.zero 10, Bytes.zero 8⟩

/-- What the host does at one of its turns, or that the turn is the core's (00_scope.md R13, log 1). -/
inductive HostEvent where
  /-- The host does nothing: the sequencer has its step. -/
  | core
  /-- `WR`: write `data` to register number `reg`, an access `width` bits wide (R93, R108, R247). -/
  | wr (reg width : Nat) (data : BitVec 32)
  /-- `RD`: read register number `reg`, an access `width` bits wide (R93, R108). -/
  | rd (reg width : Nat)
  /-- `RD reg` if the host has seen `DONE` (R108, the expansion of `MAC.N` and `MAC.W`). -/
  | rdIfDone (reg : Nat)
  /-- `WAIT`: read `STATUS` until `BUSY` is 0 (R108, R250). -/
  | wait
  /-- One byte of `MSGMEM`: the host puts `b` at address `addr` of its message buffer (R108). -/
  | place (addr : BitVec 32) (b : Byte)
  /-- The reset input is asserted (R290, R291). -/
  | reset
deriving DecidableEq, Repr

/-- One entry of the observation log (43_cipher_adapter.md R226). MODEL'S OWN: no rule reads it (log 9). -/
inductive Event where
  /-- An adapter request: header, operands `A` and `B` (R98, R226). -/
  | request (header : BitVec 10) (a : Bytes 8) (b : Bytes 10)
  /-- The core reads the message byte at an address (R70, R74). -/
  | msgRead (addr : Nat)
  /-- The host reads a register and gets a value (R245, R246, R249). -/
  | hostRead (reg : Nat) (value : BitVec 32)
deriving DecidableEq, Repr

/-- Everything the spec gives the core, with the message space and the model's own fields
(INVENTORY.md, State). -/
structure State where
  /-- `TAG1[0..7]`, chaining state of lane 1 (R20). -/
  tag1 : Bytes 8
  /-- `TAG2[0..7]`, chaining state of lane 2 (R20). -/
  tag2 : Bytes 8
  /-- `BLK1[0..9]`, working block of lane 1 (R21). -/
  blk1 : Bytes 10
  /-- `BLK2[0..9]`, working block of lane 2 (R21). -/
  blk2 : Bytes 10
  /-- `PH`, the phase register (R23). -/
  ph : BitVec 4
  /-- `VAR`, the variant of the last START (R24). -/
  var : Variant
  /-- `I`, byte index of the bit cursor (R25). -/
  i : BitVec 4
  /-- `NL`, bits written in byte `I` (R26). -/
  nl : BitVec 3
  /-- `LEN`, the latched message bit length (R28). -/
  len : BitVec 16
  /-- `REM`, message bits not yet absorbed (R29). -/
  rem : BitVec 16
  /-- `PTR`, address of the next message byte (R30). -/
  ptr : BitVec 16
  /-- `BUSY` (R31). -/
  busy : Bool
  /-- `DONE` (R32). -/
  done : Bool
  /-- `ERR` (R33). -/
  err : BitVec 3
  /-- `KEYSZ` (R36). -/
  keysz : BitVec 8
  /-- `MSGLEN` (R37). -/
  msglen : BitVec 32
  /-- `MSGSZ` (R37). -/
  msgsz : BitVec 32
  /-- `KEY[0..19]` (R38). -/
  key : Bytes 20
  /-- `OUT[0..15]` (R39). -/
  out : Bytes 16
  /-- The message space `MSG` (20_memory.md R61, R62, log 3). -/
  msg : Memory
  /-- MODEL'S OWN: the adapter port (log 7). -/
  port : Port
  /-- MODEL'S OWN: the host's coming turns, the next one first (log 1). -/
  inbox : List HostEvent
  /-- MODEL'S OWN: the observation log, oldest entry first (log 9). -/
  history : List Event
deriving DecidableEq, Repr

/-- Why the machine stops with no next state. Every one of these is safe (no behaviour is allowed that the
core lacks), and none is reachable from reset. -/
inductive Fault where
  /-- The phase register holds a reserved code 9 to 15: no step, stuck (R97, U7). Raised by the sequencer's
  turn. Safe. -/
  | reservedPhase
  /-- The adapter port holds a header that is never issued (R98, U7). Raised by the adapter's turn. Safe. -/
  | reservedHeader
  /-- `EMIT` or `PADBIT` with `I` above 7, where the block has no data byte (R136, R140). Safe (log 10). -/
  | cursorBeyondBlock
  /-- `ABSP` with `REM` of 64 or more, against its precondition (R165, R195). Safe (log 10). -/
  | tailTooLong
  /-- `ABSF` or `ABSP` reaches an address at or above `MSGSZ`, which does not exist (R61, R62).
  Safe (log 17). -/
  | beyondMessageBuffer
deriving DecidableEq, Repr

/-- Why the model gives no behaviour. Safe, each of them. -/
inductive Refusal where
  /-- The instruction has no meaning in the model; raised by no arm of exec. Safe. -/
  | notModelled (mnemonic : String)
  /-- A host access at a width that is not the register's (R93, U10). Raised by the host's turn. Safe. -/
  | accessWidth
  /-- `ABSF` or `ABSP` needs a byte below `MSGSZ` that the host does not hold: the host declared more than it
  has (R299, U3). Safe (log 3). -/
  | messageByteNotHeld
  /-- The host changes `MSG[0 .. ceil(LEN/8) - 1]` during an invocation (R296, U5). Safe (log 4). -/
  | messageChanged
deriving DecidableEq, Repr

/-- The core right after reset: every register 0 (10_state.md R44, 70_reset_and_hazards.md R290). The message
space is not part of the core; here it lists no byte (log 3). -/
def State.reset : State where
  tag1 := Bytes.zero 8
  tag2 := Bytes.zero 8
  blk1 := Bytes.zero 10
  blk2 := Bytes.zero 10
  ph := 0
  var := .narrow
  i := 0
  nl := 0
  len := 0
  rem := 0
  ptr := 0
  busy := false
  done := false
  err := 0
  keysz := 0
  msglen := 0
  msgsz := 0
  key := Bytes.zero 20
  out := Bytes.zero 16
  msg := []
  port := Port.idle
  inbox := []
  history := []

end Sys2Proof.Machine
end

