-- ==== Sys2Proof/Machine/Flags.lean ====
section
/-! DEFINITION. The flags, the error codes and the status word (10_state.md R31 to R34, 30_encoding.md R94,
R95). The core has no arithmetic condition codes (R34). -/

namespace Sys2Proof.Machine

/-- The errors a command can raise (60_exceptions.md R260). -/
inductive ErrorKind where
  | inputTooLong
  | keyLengthMismatch
  | bufferTooShort
  | illegalCommand
deriving DecidableEq, Repr

/-- The `ERR` code of an error (30_encoding.md R94). -/
def errorCode : ErrorKind → BitVec 3
  | .inputTooLong => 1
  | .keyLengthMismatch => 2
  | .bufferTooShort => 3
  | .illegalCommand => 4

/-- A flag as a bit. -/
def flagBit (b : Bool) : BitVec 1 := if b then 1 else 0

/-- `STATUS`, the read-only view `{0[15:12], PH, 0[7:6], ERR, VAR, DONE, BUSY}` (R34, R95). -/
def statusWord (s : State) : BitVec 16 :=
  (0 : BitVec 4) ++ s.ph ++ (0 : BitVec 2) ++ s.err ++ s.var.bit ++ flagBit s.done ++ flagBit s.busy

/-- The level output `done`, equal to the `DONE` flag at all times (60_exceptions.md R270). -/
def doneOutput (s : State) : Bool := s.done

end Sys2Proof.Machine
end

