-- ==== Sys2Proof/Machine/Operands.lean ====
section
/-! DEFINITION. Operand forms: phase codes, sub-keys, initial values, salts, the widths and slices of the length
encoder, the masks of the message tail and of the pad bit. -/

namespace Sys2Proof.Machine

/-- `PH` codes (30_encoding.md R96). -/
def phIdle : BitVec 4 := 0
/-- `INIT`. -/
def phInit : BitVec 4 := 1
/-- `ABSORB_FULL`. -/
def phAbsf : BitVec 4 := 2
/-- `ABSORB_PARTIAL`. -/
def phAbsp : BitVec 4 := 3
/-- `ENCODE_MSGLEN`. -/
def phEncm : BitVec 4 := 4
/-- `ENCODE_KEYLEN`. -/
def phEnck : BitVec 4 := 5
/-- `PAD`. -/
def phPad : BitVec 4 := 6
/-- `FLUSH_REMAINDER`. -/
def phFlr : BitVec 4 := 7
/-- `FINALIZE`. -/
def phFin : BitVec 4 := 8

/-- The sub-key `K_l`: `KEY[0..9]` for lane 1, `KEY[10..19]` for lane 2 (10_state.md R38, 20_memory.md R66). -/
def subKey (key : Bytes 20) : Lane → Bytes 10
  | .one => Vector.ofFn fun j => key.at j
  | .two => Vector.ofFn fun j => key.at (10 + j)

/-- `IV_l` (00_scope.md R7, 42_dualpipe_wide.md R190). -/
def initialValue (C : Config) : Lane → Bytes 8
  | .one => C.iv1
  | .two => C.iv2

/-- The working block after `INIT`: bytes 0 to 7 clear, bytes 8 and 9 the first two bytes of the sub-key
(41_blockchainer_narrow.md R163, 42_dualpipe_wide.md R193). -/
def saltedBlock (k : Bytes 10) : Bytes 10 :=
  ((Bytes.zero 10).put 8 (k.at 0)).put 9 (k.at 1)

/-- The key size in bytes a variant needs (44_host_commands.md R241). -/
def keyBytes : Variant → BitVec 8
  | .narrow => 10
  | .wide => 20

/-- `ceil(n / 8)` (00_scope.md R9). -/
def bytesOfBits (n : Nat) : Nat := (n + 7) / 8

/-- `num_len` with a bound on the number of halvings. -/
def numLenUpTo : Nat → Nat → Nat
  | 0, _ => 0
  | k + 1, n => if n = 0 then 0 else 1 + numLenUpTo k (n / 2)

/-- `num_len(0) = 0`, `num_len(n) = 1 + num_len(n div 2)` (40_bitcursor_lengthencoder.md R130); `n` halvings
are more than enough. -/
def numLen (n : Nat) : Nat := numLenUpTo n n

/-- `EMIT_FIT`: the whole value, shifted to follow the `nl` bits already in the byte (R134). -/
def fitSlice (V nl num : Nat) : Byte := BitVec.ofNat 8 (V <<< (8 - nl - num))

/-- `EMIT_SPAN` head: the `k` most significant bits of the value (R135). -/
def headSlice (V num k : Nat) : Byte := BitVec.ofNat 8 (V >>> (num - k))

/-- `EMIT_SPAN` middle byte with `r` bits of the value unwritten (R135). -/
def middleSlice (V r : Nat) : Byte := BitVec.ofNat 8 (V >>> (r - 8))

/-- `EMIT_SPAN` tail: the last `r < 8` bits of the value, left-aligned (R135). -/
def tailSlice (V r : Nat) : Byte := BitVec.ofNat 8 ((V % 2 ^ r) <<< (8 - r))

/-- The mask that keeps the `r` valid high-order bits of the last message byte
(41_blockchainer_narrow.md R165). -/
def tailMask (r : Nat) : Byte := BitVec.ofNat 8 (0xFF <<< (8 - r))

/-- The pad bit at `nl` bits into a byte (R140). -/
def padMask (nl : Nat) : Byte := BitVec.ofNat 8 (0x80 >>> nl)

end Sys2Proof.Machine
end

