-- ==== Sys2Proof/Machine/Ops.lean ====
section
/-! DEFINITION. The named operations over the message space, the lane registers and the adapter port; raising an
error; the lane exchange and the permutation calls. -/

namespace Sys2Proof.Machine

/-- An outcome of the core that carries a value. -/
abbrev Res (α : Type) := Host.Outcome α Fault Refusal

/-- Go on with a value; a stop stays a stop. -/
def andThen {α β : Type} (r : Res α) (k : α → Res β) : Res β :=
  match r with
  | .next a => k a
  | .fault f => .fault f
  | .refused x => .refused x

/-! ## The message space (20_memory.md) -/

/-- The byte the host holds at an address, none where it holds none (R62, log 3). -/
def Memory.get? : Memory → Nat → Option Byte
  | [], _ => none
  | (k, b) :: m, a => if k = a then some b else Memory.get? m a

/-- Put a byte at an address, keeping the addresses strictly rising (R108 `MSGMEM`). -/
def Memory.put : Memory → Nat → Byte → Memory
  | [], a, b => [(a, b)]
  | (k, x) :: m, a, b =>
    if a < k then (a, b) :: (k, x) :: m
    else if k = a then (a, b) :: m
    else (k, x) :: Memory.put m a b

/-- Every listed address is at least `lo`, and the addresses rise strictly. -/
def Memory.risesFrom : Nat → Memory → Bool
  | _, [] => true
  | lo, (k, _) :: m => decide (lo ≤ k) && Memory.risesFrom (k + 1) m

/-- The canonical form: addresses strictly rising, all below `2^32`, the addresses a 32-bit `MSGSZ` can
declare (log 3). -/
def Memory.wf (m : Memory) : Bool := m.risesFrom 0 && m.all fun c => decide (c.1 < 2 ^ 32)

/-- May the core read address `a`? It must exist, `a < MSGSZ` (R62), and the host must hold it (U3). -/
def msgCheckOne (s : State) (a : Nat) : Res Unit :=
  if a < s.msgsz.toNat then
    match s.msg.get? a with
    | some _ => .next ()
    | none => .refused .messageByteNotHeld
  else .fault .beyondMessageBuffer

/-- May the core read the `n` addresses from `a` on, checked in ascending order (R70)? -/
def msgCheck (s : State) (a : Nat) : Nat → Res Unit
  | 0 => .next ()
  | n + 1 => andThen (msgCheckOne s a) fun _ => msgCheck s (a + 1) n

/-- `MSG[a]`, for an address `msgCheck` lets pass (R62). -/
def msgByte (s : State) (a : Nat) : Byte := (s.msg.get? a).getD 0

/-- The observation of `n` message reads from address `a` on, ascending (R70, R74, log 9). -/
def noteMsgReads (a n : Nat) (s : State) : State :=
  { s with history := s.history ++ (List.range n).map fun j => .msgRead (a + j) }

/-! ## The lane registers (10_state.md R20, R21) -/

/-- `TAG_l`. -/
def State.tag (s : State) : Lane → Bytes 8
  | .one => s.tag1
  | .two => s.tag2

/-- `BLK_l`. -/
def State.blk (s : State) : Lane → Bytes 10
  | .one => s.blk1
  | .two => s.blk2

/-- Write `TAG_l`. -/
def State.setTag (s : State) : Lane → Bytes 8 → State
  | .one, t => { s with tag1 := t }
  | .two, t => { s with tag2 := t }

/-- Write `BLK_l`. -/
def State.setBlk (s : State) : Lane → Bytes 10 → State
  | .one, b => { s with blk1 := b }
  | .two, b => { s with blk2 := b }

/-- `for l in lanes`: lane 1, and lane 2 after it in the wide variant (00_scope.md R11). -/
def forLanes (v : Variant) (f : Lane → State → State) (s : State) : State :=
  match v with
  | .narrow => f .one s
  | .wide => f .two (f .one s)

/-- `BLK_l[j] <- f (BLK_l[j])` for one lane. -/
def updBlkByte (l : Lane) (j : Nat) (f : Byte → Byte) (s : State) : State :=
  s.setBlk l ((s.blk l).put j (f ((s.blk l).at j)))

/-- `BLK_l[j] <- x` for one lane. -/
def setBlkByte (l : Lane) (j : Nat) (x : Byte) (s : State) : State :=
  s.setBlk l ((s.blk l).put j x)

/-- The working block with bytes 0 to 7 cleared and the salt kept (10_state.md R22). -/
def clearedBlock (b : Bytes 10) : Bytes 10 := Vector.ofFn fun j => if j.val < 8 then 0 else b.at j

/-- `BLK_l[0..7] <- 0` for one lane. -/
def clearBlk (l : Lane) (s : State) : State := s.setBlk l (clearedBlock (s.blk l))

/-! ## The adapter port (43_cipher_adapter.md) -/

/-- Issue a request: header and operands stand on the port (R98). -/
def issueRequest (header : BitVec 10) (a : Bytes 8) (b : Bytes 10) (s : State) : State :=
  { s with port := { s.port with pending := some header, a := a, b := b } }

/-- The answered request: response on the port, the request in the log (R222, R226). -/
def answerWith (header : BitVec 10) (q : Bytes 8) (s : State) : State :=
  { s with
    port := { s.port with pending := none, q := q }
    history := s.history ++ [.request header s.port.a s.port.b] }

/-- The cipher answers a full-encryption request with the operands on the port (R220). -/
def answerFE (C : Config) (l : Lane) (rounds : BitVec 8) (s : State) : State :=
  answerWith (headerFE l rounds) (C.fe s.port.a s.port.b) s

/-- The cipher answers a reduced-round request with the operands on the port (R221). -/
def answerRRE (C : Config) (l : Lane) (rounds : BitVec 8) (s : State) : State :=
  answerWith (headerRRE l rounds) (C.rre s.port.a s.port.b rounds.toNat) s

/-- The caller stores the response into `TAG_l[0..7]` in index order and leaves the port idle (R220, R221). -/
def storeResponse (l : Lane) (s : State) : State :=
  { s.setTag l s.port.q with port := Port.idle }

/-- `TAG_l <- FE(p, K_l)` (R220). -/
def fullEncrypt (C : Config) (l : Lane) (p : Bytes 8) (s : State) : State :=
  storeResponse l <| answerFE C l Config.roundsFull <|
    issueRequest (headerFE l Config.roundsFull) p (subKey s.key l) s

/-- `TAG_l <- RRE(TAG_l, BLK_l, 16)` (R221, R224). -/
def reducedRound (C : Config) (l : Lane) (s : State) : State :=
  storeResponse l <| answerRRE C l Config.rounds <|
    issueRequest (headerRRE l Config.rounds) (s.tag l) (s.blk l) s

/-! ## Permutation calls -/

/-- Lane 1's tag after the exchange: `T1[0..3] ‖ T2[0..3]` (42_dualpipe_wide.md R191). -/
def xchgOne (t1 t2 : Bytes 8) : Bytes 8 :=
  Vector.ofFn fun j => if j.val < 4 then t1.at j else t2.at (j.val - 4)

/-- Lane 2's tag after the exchange: `T1[4..7] ‖ T2[4..7]` (42_dualpipe_wide.md R191). -/
def xchgTwo (t1 t2 : Bytes 8) : Bytes 8 :=
  Vector.ofFn fun j => if j.val < 4 then t1.at (4 + j.val) else t2.at j

/-- `XCHG`, the lane exchange: `TAG1[4 + k]` and `TAG2[k]` change places, `k = 0..3` (R191). -/
def xchg (s : State) : State :=
  { s with tag1 := xchgOne s.tag1 s.tag2, tag2 := xchgTwo s.tag1 s.tag2 }

/-- `PERMUTE`: `PERMUTE.N` (41_blockchainer_narrow.md R170) is one reduced-round request and a cleared block;
`PERMUTE.W` (42_dualpipe_wide.md R192) is one exchange, lane 1's request, lane 2's request, both blocks
cleared. -/
def permute (C : Config) (v : Variant) (s : State) : State :=
  match v with
  | .narrow => clearBlk .one (reducedRound C .one s)
  | .wide => clearBlk .two (clearBlk .one (reducedRound C .two (reducedRound C .one (xchg s))))

/-! ## Errors and the end of an invocation -/

/-- `raise <Error>(code)`, the core's "trap entry" (60_exceptions.md R264): the code is recorded, `DONE` and
`OUT` are cleared, nothing else changes. The core has no return from it (R267): the next command that is
not dropped rewrites `ERR`. -/
def raise (e : ErrorKind) (s : State) : State :=
  { s with err := errorCode e, done := false, out := Bytes.zero 16 }

/-- `CLEAR_SCRATCH()` (41_blockchainer_narrow.md R172). -/
def clearScratch (s : State) : State :=
  { s with
    tag1 := Bytes.zero 8, tag2 := Bytes.zero 8, blk1 := Bytes.zero 10, blk2 := Bytes.zero 10
    i := 0, nl := 0, len := 0, rem := 0, ptr := 0 }

/-- The reset input: every register of the core as after reset; the message space, the host's coming turns and
the log are not the core's (70_reset_and_hazards.md R290, R291, log 13). -/
def resetCore (s : State) : State :=
  { State.reset with msg := s.msg, inbox := s.inbox, history := s.history }

end Sys2Proof.Machine
end

