-- ==== Sys2Proof/Machine/Adapter.lean ====
section
/-! DEFINITION. The adapter requests (43_cipher_adapter.md): the cipher answers the request whose operands stand
on the port. -/

namespace Sys2Proof.Machine

/-- `FE` (R220): `Q <- FE(A, B)`, for either lane the same function; the caller stores the response. -/
def execFe (lane : Lane) (rounds : BitVec 8) (s : State) : Res State :=
  .next (answerFE Config.chip lane rounds s)

/-- `RRE` (R221): `Q <- RRE(A, B, rounds)`, for either lane the same function; the caller stores the
response. -/
def execRre (lane : Lane) (rounds : BitVec 8) (s : State) : Res State :=
  .next (answerRRE Config.chip lane rounds s)

end Sys2Proof.Machine
end

