-- ==== Sys2Proof/Machine/Command.lean ====
section
/-! DEFINITION. The host commands (44_host_commands.md R240 to R244). -/

namespace Sys2Proof.Machine

/-- `START(v)` with `BUSY = 0` (R241): the three checks in the order of 60_exceptions.md R266, then the latch of
the length and the first phase. -/
def startIdle (v : Variant) (s : State) : State :=
  let s := { s with done := false, out := Bytes.zero 16, var := v }
  if Config.maxMsgBits < s.msglen.toNat then raise .inputTooLong s
  else if s.keysz ≠ keyBytes v then raise .keyLengthMismatch s
  else if s.msgsz.toNat < bytesOfBits s.msglen.toNat then raise .bufferTooShort s
  else { s with err := 0, len := s.msglen.setWidth 16, busy := true, ph := phInit }

/-- A START command; while `BUSY = 1` it is dropped (R240, R248, R301, log 16). -/
def startCommand (v : Variant) (s : State) : Res State :=
  if s.busy then .next s else .next (startIdle v s)

/-- `START.N` (R242). -/
def execStartN (s : State) : Res State := startCommand .narrow s

/-- `START.W` (R243). -/
def execStartW (s : State) : Res State := startCommand .wide s

/-- `ILLEGAL()`, a reserved command value; while `BUSY = 1` it is dropped (R240, R244, R248). -/
def illegalCommand (s : State) : Res State :=
  if s.busy then .next s else .next (raise .illegalCommand s)

end Sys2Proof.Machine
end

