-- ==== Sys2Proof/Machine/BitCursor.lean ====
section
/-! DEFINITION. The bit cursor and the length encoder (40_bitcursor_lengthencoder.md): `CLOSE_BYTE`, `EMIT`,
`PADBIT`, `FILL`, each for the lanes of a variant. -/

namespace Sys2Proof.Machine

/-- XOR byte `j` of every lane's block with that lane's tag byte of the same index (R136). -/
def xorTagByte (v : Variant) (j : Nat) (s : State) : State :=
  forLanes v (fun l s => updBlkByte l j (· ^^^ (s.tag l).at j) s) s

/-- OR a byte into byte `j` of every lane's block (R134, R135, R140). -/
def orBlkByte (v : Variant) (j : Nat) (x : Byte) (s : State) : State :=
  forLanes v (fun l s => updBlkByte l j (· ||| x) s) s

/-- Write byte `j` of every lane's block (R135, R165). -/
def writeBlkByte (v : Variant) (j : Nat) (x : Byte) (s : State) : State :=
  forLanes v (fun l s => setBlkByte l j x s) s

/-- XOR the completed byte with the tag and advance, without the test for a full block (R136, R140). -/
def advanceByte (v : Variant) (s : State) : State :=
  let s := xorTagByte v s.i.toNat s
  { s with nl := 0, i := s.i + 1 }

/-- `CLOSE_BYTE()` (R136, R137): close the byte, and permute when the block is full. -/
def closeByte (C : Config) (v : Variant) (s : State) : State :=
  let s := advanceByte v s
  if s.i = 8 then { permute C v s with i := 0 } else s

/-- `EMIT_FIT(V, num)` (R134). -/
def emitFit (C : Config) (v : Variant) (V num : Nat) (s : State) : State :=
  let s' := orBlkByte v s.i.toNat (fitSlice V s.nl.toNat num) s
  if s.nl.toNat + num = 8 then closeByte C v s'
  else { s' with nl := BitVec.ofNat 3 (s.nl.toNat + num) }

/-- The middle bytes of `EMIT_SPAN`: `n` whole bytes of the value, `r` bits being unwritten (R135). -/
def emitMiddle (C : Config) (v : Variant) (V : Nat) : Nat → Nat → State → State
  | 0, _, s => s
  | n + 1, r, s =>
    emitMiddle C v V n (r - 8) (closeByte C v (writeBlkByte v s.i.toNat (middleSlice V r) s))

/-- `EMIT_SPAN(V, num)` (R135): head, middle bytes while `r >= 8`, tail. -/
def emitSpan (C : Config) (v : Variant) (V num : Nat) (s : State) : State :=
  let k := 8 - s.nl.toNat
  let r := num - k
  let s := closeByte C v (orBlkByte v s.i.toNat (headSlice V num k) s)
  let s := emitMiddle C v V (r / 8) r s
  let s := writeBlkByte v s.i.toNat (tailSlice V (r % 8)) s
  { s with nl := BitVec.ofNat 3 (r % 8) }

/-- The two branches of `EMIT(V)` with the width already computed (R133). -/
def emitBits (C : Config) (v : Variant) (V num : Nat) (s : State) : State :=
  if s.nl.toNat + num ≤ 8 then emitFit C v V num s else emitSpan C v V num s

/-- `EMIT(V)` (R133): the `num_len(V)` bits of `V`, most significant first, at the cursor. Above byte 7 there
is no byte to write (log 10). -/
def emit (C : Config) (v : Variant) (V : BitVec 16) (s : State) : Res State :=
  if s.i.toNat < 8 then .next (emitBits C v V.toNat (numLen V.toNat) s)
  else .fault .cursorBeyondBlock

/-- `PADBIT()` (R140): the terminating `1`, the byte closed, no permutation even at `I = 8`. -/
def padBit (v : Variant) (s : State) : Res State :=
  if s.i.toNat < 8 then .next (advanceByte v (orBlkByte v s.i.toNat (padMask s.nl.toNat) s))
  else .fault .cursorBeyondBlock

/-- A block completed from byte `i` up to byte 7 with the tag's bytes, the salt kept (R141). -/
def filledBlock (i : Nat) (t : Bytes 8) (b : Bytes 10) : Bytes 10 :=
  Vector.ofFn fun j => if i ≤ j.val ∧ j.val < 8 then t.at j else b.at j

/-- `FILL()` (R141): each lane's own tag bytes, as they are before any exchange. Outside the rule's precondition
`1 <= I <= 8` the loop `j in I .. 7` is run as it is written: with `I = 0` it copies all eight bytes, with `I` above 8
none (DESIGN CHOICE, log 21). -/
def fill (v : Variant) (s : State) : State :=
  forLanes v (fun l s => s.setBlk l (filledBlock s.i.toNat (s.tag l) (s.blk l))) s

end Sys2Proof.Machine
end

