-- ==== Sys2Proof/Machine/Phases.lean ====
section
/-! DEFINITION. The phase operations, written once for the lanes of a variant
(41_blockchainer_narrow.md R163 to R171, 42_dualpipe_wide.md R193 to R200). -/

namespace Sys2Proof.Machine

/-- `INIT` (R163, R193): each lane's tag from its initial value and sub-key, its block cleared and salted, the
cursor and the counters set. -/
def initPhase (C : Config) (v : Variant) (s : State) : Res State :=
  let s := forLanes v (fun l s => fullEncrypt C l (initialValue C l) s) s
  let s := forLanes v (fun l s => s.setBlk l (saltedBlock (subKey s.key l))) s
  .next { s with i := 0, nl := 0, rem := s.len, ptr := 0, ph := phAbsf }

/-- Bytes 0 to `n - 1` of the block are the next message bytes XOR the tag, the others as before
(R164, R165, R194, R195). -/
def absorbedBlock (s : State) (n : Nat) (t : Bytes 8) (b : Bytes 10) : Bytes 10 :=
  Vector.ofFn fun j => if j.val < n then msgByte s (s.ptr.toNat + j.val) ^^^ t.at j else b.at j

/-- Absorb the next `n` message bytes into every lane's block, each byte read once (R70, R164, R194). -/
def absorbBytes (v : Variant) (n : Nat) (s : State) : State :=
  forLanes v (fun l s => s.setBlk l (absorbedBlock s n (s.tag l) (s.blk l))) s

/-- `ABSF` (R164, R194): absorb one 64-bit block and stay, or move on when fewer than 64 bits remain. -/
def absfPhase (C : Config) (v : Variant) (s : State) : Res State :=
  if 64 ≤ s.rem.toNat then
    andThen (msgCheck s s.ptr.toNat 8) fun _ =>
      let s := noteMsgReads s.ptr.toNat 8 (absorbBytes v 8 s)
      let s := permute C v s
      .next { s with ptr := s.ptr + 8, rem := s.rem - 64, ph := phAbsf }
  else .next { s with ph := phAbsp }

/-- `ABSP` (R165, R195): the complete bytes of the tail closed, the partial byte masked and left open, the cursor
after the last message bit. -/
def abspPhase (v : Variant) (s : State) : Res State :=
  if s.rem.toNat < 64 then
    let nb := s.rem.toNat / 8
    let r := s.rem.toNat % 8
    let n := bytesOfBits s.rem.toNat
    andThen (msgCheck s s.ptr.toNat n) fun _ =>
      let s := noteMsgReads s.ptr.toNat n (absorbBytes v nb s)
      let s := if r = 0 then s else writeBlkByte v nb (msgByte s (s.ptr.toNat + nb) &&& tailMask r) s
      .next { s with
        i := BitVec.ofNat 4 nb, nl := BitVec.ofNat 3 r
        ptr := s.ptr + BitVec.ofNat 16 n, rem := 0, ph := phEncm }
  else .fault .tailTooLong

/-- `ENCM` (R166, R196): encode the whole message length. -/
def encmPhase (C : Config) (v : Variant) (s : State) : Res State :=
  andThen (emit C v s.len s) fun s => .next { s with ph := phEnck }

/-- `ENCK` (R167, R197): encode the constant key length 80, in every lane. -/
def enckPhase (C : Config) (v : Variant) (s : State) : Res State :=
  andThen (emit C v Config.keylenField s) fun s => .next { s with ph := phPad }

/-- `PAD` (R168, R198). -/
def padPhase (v : Variant) (s : State) : Res State :=
  andThen (padBit v s) fun s => .next { s with ph := phFlr }

/-- `FLR` (R169, R199): fill with the tags as they are before the exchange, then exactly one permutation; it goes on
for every `I`, also outside `1 <= I <= 8` (log 21). -/
def flrPhase (C : Config) (v : Variant) (s : State) : Res State :=
  let s := permute C v (fill v s)
  .next { s with i := 0, ph := phFin }

/-- The output registers: lane 1's tag, then lane 2's in the wide variant and zeros in the narrow
(R171, R200, 20_memory.md R67). -/
def outputTag (v : Variant) (t1 t2 : Bytes 8) : Bytes 16 :=
  match v with
  | .narrow => Vector.ofFn fun j => if j.val < 8 then t1.at j else 0
  | .wide => Vector.ofFn fun j => if j.val < 8 then t1.at j else t2.at (j.val - 8)

/-- `FIN` (R171, R200): the final full encryption of each lane, the tag to `OUT`, the scratch state cleared. -/
def finPhase (C : Config) (v : Variant) (s : State) : Res State :=
  let s := forLanes v (fun l s => fullEncrypt C l (s.tag l) s) s
  let s := clearScratch { s with out := outputTag v s.tag1 s.tag2 }
  .next { s with busy := false, done := true, ph := phIdle }

end Sys2Proof.Machine
end

