-- ==== Sys2Proof/Machine/Narrow.lean ====
section
/-! DEFINITION. The idle phase and the phase operations in their narrow form (41_blockchainer_narrow.md). -/

namespace Sys2Proof.Machine

/-- `IDLE` (R162): the sequencer has no step and nothing changes (log 2). -/
def execIdle (_v : Variant) (s : State) : Res State := .next s

/-- `INIT.N` (R163). -/
def execInitN (s : State) : Res State := initPhase Config.chip .narrow s

/-- `ABSF.N` (R164). -/
def execAbsfN (s : State) : Res State := absfPhase Config.chip .narrow s

/-- `ABSP.N` (R165). -/
def execAbspN (s : State) : Res State := abspPhase .narrow s

/-- `ENCM.N` (R166). -/
def execEncmN (s : State) : Res State := encmPhase Config.chip .narrow s

/-- `ENCK.N` (R167). -/
def execEnckN (s : State) : Res State := enckPhase Config.chip .narrow s

/-- `PAD.N` (R168). -/
def execPadN (s : State) : Res State := padPhase .narrow s

/-- `FLR.N` (R169). -/
def execFlrN (s : State) : Res State := flrPhase Config.chip .narrow s

/-- `FIN.N` (R171). -/
def execFinN (s : State) : Res State := finPhase Config.chip .narrow s

end Sys2Proof.Machine
end

