-- ==== Sys2Proof/Machine/Wide.lean ====
section
/-! DEFINITION. The phase operations in their wide form (42_dualpipe_wide.md). -/

namespace Sys2Proof.Machine

/-- `INIT.W` (R193). -/
def execInitW (s : State) : Res State := initPhase Config.chip .wide s

/-- `ABSF.W` (R194). -/
def execAbsfW (s : State) : Res State := absfPhase Config.chip .wide s

/-- `ABSP.W` (R195). -/
def execAbspW (s : State) : Res State := abspPhase .wide s

/-- `ENCM.W` (R196). -/
def execEncmW (s : State) : Res State := encmPhase Config.chip .wide s

/-- `ENCK.W` (R197). -/
def execEnckW (s : State) : Res State := enckPhase Config.chip .wide s

/-- `PAD.W` (R198). -/
def execPadW (s : State) : Res State := padPhase .wide s

/-- `FLR.W` (R199). -/
def execFlrW (s : State) : Res State := flrPhase Config.chip .wide s

/-- `FIN.W` (R200). -/
def execFinW (s : State) : Res State := finPhase Config.chip .wide s

end Sys2Proof.Machine
end

