-- ==== Sys2Proof/Machine/Dispatch.lean ====
section
/-! DEFINITION. One arm per operation of the opcode table. -/

namespace Sys2Proof.Machine

def exec (i : Instr) (s : State) : Host.Outcome State Fault Refusal :=
  match i with
  | .startN => Sys2Proof.Machine.execStartN s
  | .startW => Sys2Proof.Machine.execStartW s
  | .idle v => Sys2Proof.Machine.execIdle v s
  | .initN => Sys2Proof.Machine.execInitN s
  | .absfN => Sys2Proof.Machine.execAbsfN s
  | .abspN => Sys2Proof.Machine.execAbspN s
  | .encmN => Sys2Proof.Machine.execEncmN s
  | .enckN => Sys2Proof.Machine.execEnckN s
  | .padN => Sys2Proof.Machine.execPadN s
  | .flrN => Sys2Proof.Machine.execFlrN s
  | .finN => Sys2Proof.Machine.execFinN s
  | .initW => Sys2Proof.Machine.execInitW s
  | .absfW => Sys2Proof.Machine.execAbsfW s
  | .abspW => Sys2Proof.Machine.execAbspW s
  | .encmW => Sys2Proof.Machine.execEncmW s
  | .enckW => Sys2Proof.Machine.execEnckW s
  | .padW => Sys2Proof.Machine.execPadW s
  | .flrW => Sys2Proof.Machine.execFlrW s
  | .finW => Sys2Proof.Machine.execFinW s
  | .fe lane rounds => Sys2Proof.Machine.execFe lane rounds s
  | .rre lane rounds => Sys2Proof.Machine.execRre lane rounds s

end Sys2Proof.Machine
end

