-- ==== Sys2Proof/Machine/HostPort.lean ====
section
/-! DEFINITION. The host's side of the core: register reads and writes, the message buffer, the script statements
(10_state.md R35, 44_host_commands.md R240 to R250, 30_encoding.md R93, R108). -/

namespace Sys2Proof.Machine

/-- What a register number names (10_state.md R35). -/
inductive HostReg where
  | cmd
  | status
  | keysz
  | msglen
  | msgsz
  | key (j : Nat)
  | out (j : Nat)
  | reserved
deriving DecidableEq, Repr

/-- The register map (10_state.md R35): numbers not in the table are reserved. -/
def hostReg (n : Nat) : HostReg :=
  if n = 0 then .cmd else if n = 1 then .status else if n = 2 then .keysz
  else if n = 3 then .msglen else if n = 4 then .msgsz
  else if 16 ≤ n ∧ n < 36 then .key (n - 16)
  else if 48 ≤ n ∧ n < 64 then .out (n - 48)
  else .reserved

/-- The width of a register in bits, none for a reserved number (10_state.md R35). -/
def HostReg.width : HostReg → Option Nat
  | .cmd => some 8
  | .status => some 16
  | .keysz => some 8
  | .msglen => some 32
  | .msgsz => some 32
  | .key _ => some 8
  | .out _ => some 8
  | .reserved => none

/-- Is an access of this width an access of the whole register (R35, R93)? A reserved number has no width and
takes any (log 12). -/
def HostReg.wholeAccess (r : HostReg) (width : Nat) : Bool :=
  match r.width with
  | some w => width == w
  | none => true

/-- What a read returns, zero-extended (R245, R246, R249; R36, R37 read back as written). -/
def readReg (s : State) : HostReg → BitVec 32
  | .cmd => 0
  | .status => (statusWord s).setWidth 32
  | .keysz => s.keysz.setWidth 32
  | .msglen => s.msglen
  | .msgsz => s.msgsz
  | .key _ => 0
  | .out j => (s.out.at j).setWidth 32
  | .reserved => 0

/-- The effect of a write other than of `CMD` while `BUSY = 0`: the value truncated to the register's width
(R247), dropped for a read-only or reserved register (R249). -/
def writeReg (s : State) (d : BitVec 32) : HostReg → State
  | .cmd => s
  | .status => s
  | .keysz => { s with keysz := d.setWidth 8 }
  | .msglen => { s with msglen := d }
  | .msgsz => { s with msgsz := d }
  | .key j => { s with key := s.key.put j (d.setWidth 8) }
  | .out _ => s
  | .reserved => s

/-- A value written to `CMD` (R240): decoded at once, a reserved value raises `IllegalCommand` (R244). -/
def commandWrite (c : BitVec 8) (s : State) : Res State :=
  match decode (.command c) with
  | .ok i => exec i s
  | .error _ => illegalCommand s

/-- A host write (R240, R247 to R249): whole-register accesses only, dropped while `BUSY = 1`. -/
def hostWrite (n width : Nat) (d : BitVec 32) (s : State) : Res State :=
  if (hostReg n).wholeAccess width then
    if s.busy then .next s
    else if hostReg n = .cmd then commandWrite (d.setWidth 8) s
    else .next (writeReg s d (hostReg n))
  else .refused .accessWidth

/-- The observation of a host read (log 9). -/
def noteHostRead (n : Nat) (s : State) : State :=
  { s with history := s.history ++ [.hostRead n (readReg s (hostReg n))] }

/-- A host read (R245, R246, R249): whole-register accesses only, no side effect. -/
def hostRead (n width : Nat) (s : State) : Res State :=
  if (hostReg n).wholeAccess width then .next (noteHostRead n s) else .refused .accessWidth

/-- The host puts a byte into its message buffer (R108 `MSGMEM`). During an invocation the bytes the core has
to read must not change (R296, U5, log 4). -/
def placeByte (a : Nat) (b : Byte) (s : State) : Res State :=
  if s.busy = true ∧ a < bytesOfBits s.len.toNat ∧ s.msg.get? a ≠ some b then .refused .messageChanged
  else .next { s with msg := s.msg.put a b }

/-! ## The script statements (30_encoding.md R108) -/

/-- `WR reg, value`: a whole access of a register. -/
def scriptWr (n : Nat) (d : BitVec 32) : HostEvent := .wr n ((hostReg n).width.getD 32) d

/-- `RD reg`: a whole access of a register. -/
def scriptRd (n : Nat) : HostEvent := .rd n ((hostReg n).width.getD 32)

/-- `MSGMEM b0 b1 ...` from address `a` on. -/
def scriptMsgMem : Nat → List Byte → List HostEvent
  | _, [] => []
  | a, b :: bs => .place (BitVec.ofNat 32 a) b :: scriptMsgMem (a + 1) bs

/-- `START.N` and `START.W` as host accesses (R108). -/
def scriptStart : Variant → HostEvent
  | .narrow => scriptWr 0 0x01
  | .wide => scriptWr 0 0x02

/-- The register writes of `KEYBYTES` from register number `n` on. -/
def scriptKeyWrites : Nat → List Byte → List HostEvent
  | _, [] => []
  | n, b :: bs => scriptWr n (b.setWidth 32) :: scriptKeyWrites (n + 1) bs

/-- `KEYBYTES b0 ... b(n-1)` (R108). -/
def scriptKeyBytes (bs : List Byte) : List HostEvent :=
  scriptKeyWrites 16 bs ++ [scriptWr 2 (BitVec.ofNat 32 bs.length)]

/-- The bytes of `OUT` a variant's caller reads (R108, R250). -/
def tagBytes : Variant → Nat
  | .narrow => 8
  | .wide => 16

/-- `MAC.N len, size` and `MAC.W len, size` (R108). -/
def scriptMac (v : Variant) (len size : BitVec 32) : List HostEvent :=
  [scriptWr 3 len, scriptWr 4 size, scriptStart v, .wait, scriptRd 1] ++
    (List.range (tagBytes v)).map fun j => .rdIfDone (48 + j)

end Sys2Proof.Machine
end

