-- ==== Sys2Proof/Machine/Sequencer.lean ====
section
/-! DEFINITION. Who has the turn and what it does: the sequencer's phase word, the adapter's request, the host's
accesses (00_scope.md R12, R13; 30_encoding.md R109). -/

namespace Sys2Proof.Machine

/-- The phase word the sequencer executes next (30_encoding.md R96). -/
def State.phaseWord (s : State) : BitVec 5 := Sys2Proof.phaseWord s.var s.ph

/-- The sequencer's turn: the operation its phase word selects, when `BUSY = 1`; no step otherwise (R13, R31,
R162, log 2); a reserved phase code is stuck (R97). -/
def sequencerTurn (s : State) : Res State :=
  match decode (.phase s.phaseWord) with
  | .ok i => if s.busy then exec i s else exec (.idle s.var) s
  | .error _ => .fault .reservedPhase

/-- A request on the adapter port is answered (R220 to R222); a header that is never issued is stuck (R98). -/
def adapterTurn (header : BitVec 10) (s : State) : Res State :=
  match decode (.header header) with
  | .ok i => exec i s
  | .error _ => .fault .reservedHeader

/-- The core's turn: a request that waits on the port, else the sequencer (log 7). -/
def coreTurn (s : State) : Res State :=
  match s.port.pending with
  | some header => adapterTurn header s
  | none => sequencerTurn s

/-- The `WAIT` statement: read `STATUS`; while `BUSY` is 1 let the core have its turn and wait on
(R108, R250, log 19). -/
def waitTurn (s : State) : Res State :=
  let s' := noteHostRead 1 s
  if s.busy then coreTurn { s' with inbox := .wait :: s.inbox } else .next s'

/-- One turn of the host; the inbox already stands behind it. -/
def hostTurn (e : HostEvent) (s : State) : Res State :=
  match e with
  | .core => coreTurn s
  | .wr n width d => hostWrite n width d s
  | .rd n width => hostRead n width s
  | .rdIfDone n => .next (if s.done then noteHostRead n s else s)
  | .wait => waitTurn s
  | .place a b => placeByte a.toNat b s
  | .reset => .next (resetCore s)

/-- One step of the whole: the host's next turn, or the core's when the host has none (log 1). -/
def stepTurn (s : State) : Res State :=
  match s.inbox with
  | [] => coreTurn s
  | e :: rest => hostTurn e { s with inbox := rest }

/-- Put a word where the next step takes its operation from, and give it the turn (log 14). -/
def placeCodeWord (word : CodeWord) (s : State) : State :=
  match word with
  | .command c =>
    { s with busy := false, inbox := .wr 0 8 (c.setWidth 32) :: s.inbox }
  | .phase w =>
    { s with
      var := phaseWordVar w, ph := phaseWordPh w, busy := decide (phaseWordPh w ≠ 0)
      port := { s.port with pending := none }, inbox := .core :: s.inbox }
  | .header w =>
    { s with port := { s.port with pending := some w }, inbox := .core :: s.inbox }

end Sys2Proof.Machine
end

