-- ==== Sys2Proof/Machine/Step.lean ====
section
/-! DEFINITION. The step, and where an instruction of the opcode table is placed for the next step. -/

namespace Sys2Proof.Machine

/-- One step of the machine: one turn (00_scope.md R12, R13). -/
def step (s : State) : Host.Outcome State Fault Refusal := stepTurn s

/-- The state whose next step runs the instruction of `nbits` bits `w` (log 14): a command as a write of
`CMD` with `BUSY = 0`, a phase word in `VAR` and `PH`, a header on the adapter port. -/
def State.withFetchWord (s : State) (nbits w : Nat) : State :=
  match tableWord nbits w with
  | some word => placeCodeWord word s
  | none => s

end Sys2Proof.Machine
end

