-- ==== Sys2Proof/Machine/ClosedForm.lean ====
section
/-! DEFINITION. What an invocation computes, said without the phase machine: the padded stream (30_encoding.md
R103), the plain blocks, and the closed forms of the two tags (41_blockchainer_narrow.md R173,
42_dualpipe_wide.md R202). -/

namespace Sys2Proof.Machine

/-- Message bit `b`: bit `7 - (b mod 8)` of byte `b div 8` (20_memory.md R64). -/
def messageBit (m : Nat → Byte) (b : Nat) : Bool := (m (b / 8)).getLsbD (7 - b % 8)

/-- The format-L encoding of a number: its `num_len` bits, most significant first (30_encoding.md R99). -/
def fieldBits (V : Nat) : List Bool :=
  (List.range (numLen V)).map fun t => V.testBit (numLen V - 1 - t)

/-- The padded stream `S(M, L)` before the zero extension (30_encoding.md R103). -/
def streamBits (m : Nat → Byte) (L : Nat) : List Bool :=
  (List.range L).map (messageBit m) ++ fieldBits L ++ fieldBits 80 ++ [true]

/-- The number of blocks `NB = ceil((L + num_len(L) + 8) / 64)` (30_encoding.md R103). -/
def blockCount (L : Nat) : Nat := (L + numLen L + 8 + 63) / 64

/-- The byte whose bits, most significant first, stand from position `p` on, zeros after the end. -/
def byteFrom (bits : List Bool) (p : Nat) : Byte :=
  BitVec.ofBoolListBE ((List.range 8).map fun t => bits.getD (p + t) false) |>.setWidth 8

/-- Plain block `X_b` (30_encoding.md R103). -/
def plainBlock (m : Nat → Byte) (L b : Nat) : Bytes 8 :=
  Vector.ofFn fun j => byteFrom (streamBits m L) (64 * b + 8 * j.val)

/-- `(X ⊕ T) ‖ s`, the salt being the first two bytes of the sub-key (R173, R202). -/
def maskedBlock (X T : Bytes 8) (k : Bytes 10) : Bytes 10 :=
  Vector.ofFn fun j => if j.val < 8 then X.at j ^^^ T.at j else k.at (j.val - 8)

/-- `T_b` of the narrow closed form (R173). -/
def narrowChain (C : Config) (m : Nat → Byte) (L : Nat) (k : Bytes 10) : Nat → Bytes 8
  | 0 => C.fe C.iv1 k
  | b + 1 =>
    let T := narrowChain C m L k b
    C.rre T (maskedBlock (plainBlock m L b) T k) 16

/-- The narrow tag (R173). -/
def narrowTag (C : Config) (m : Nat → Byte) (L : Nat) (k : Bytes 10) : Bytes 8 :=
  C.fe (narrowChain C m L k (blockCount L)) k

/-- `A_b` and `B_b` of the wide closed form (R202): the blocks are masked with the tags before the exchange, the
seeds are the tags after it. -/
def wideChain (C : Config) (m : Nat → Byte) (L : Nat) (k1 k2 : Bytes 10) : Nat → Bytes 8 × Bytes 8
  | 0 => (C.fe C.iv1 k1, C.fe C.iv2 k2)
  | b + 1 =>
    let A := (wideChain C m L k1 k2 b).1
    let B := (wideChain C m L k1 k2 b).2
    let seedA : Bytes 8 := Vector.ofFn fun j => if j.val < 4 then A.at j else B.at (j.val - 4)
    let seedB : Bytes 8 := Vector.ofFn fun j => if j.val < 4 then A.at (j.val + 4) else B.at j
    (C.rre seedA (maskedBlock (plainBlock m L b) A k1) 16,
     C.rre seedB (maskedBlock (plainBlock m L b) B k2) 16)

/-- The wide tag, lane 1 then lane 2 (R202). -/
def wideTag (C : Config) (m : Nat → Byte) (L : Nat) (k1 k2 : Bytes 10) : Bytes 8 × Bytes 8 :=
  let AB := wideChain C m L k1 k2 (blockCount L)
  (C.fe AB.1 k1, C.fe AB.2 k2)

end Sys2Proof.Machine
end

