-- ==== Sys2Proof/Safety.lean ====
section
/-! DEFINITION. What counts as a legal state of the core, and the words the statements use: the block-clean and
open-byte invariants (10_state.md R22, R27), what an accepted START guarantees (20_memory.md R62), where the
cursor stands (40_bitcursor_lengthencoder.md R139). -/

namespace Sys2Proof.Machine

/-- A lane is in use: lane 1 always, lane 2 in the wide variant (00_scope.md R11). -/
abbrev LaneUsed (v : Variant) (l : Lane) : Prop := l = .one ∨ v = .wide

/-- The scratch registers `CLEAR_SCRATCH` clears, but for `LEN` (41_blockchainer_narrow.md R172). -/
abbrev LanesClear (s : State) : Prop :=
  s.tag1 = Bytes.zero 8 ∧ s.tag2 = Bytes.zero 8 ∧ s.blk1 = Bytes.zero 10 ∧ s.blk2 = Bytes.zero 10 ∧
    s.i = 0 ∧ s.nl = 0 ∧ s.rem = 0 ∧ s.ptr = 0

/-- The length and the sizes of an invocation in progress are those the START checks let pass
(44_host_commands.md R241, R248): the registers cannot change while `BUSY = 1`. -/
abbrev Accepted (s : State) : Prop :=
  s.err = 0 ∧ s.msglen.toNat = s.len.toNat ∧ s.keysz = keyBytes s.var ∧
    bytesOfBits s.len.toNat ≤ s.msgsz.toNat

/-- The bits written into the current block before a phase from `ENCM` to `PAD`, or before the pad bit of `FLR`:
the message, then the length field, then the key-length field, modulo a block (R139, R142). -/
def cursorPosition (ph : BitVec 4) (L : Nat) : Nat :=
  if ph = phEncm then L % 64
  else if ph = phEnck then (L + numLen L) % 64
  else (L + numLen L + 7) % 64

/-- The first block byte no rule has written yet in the current block (10_state.md R22). -/
def firstCleanByte (s : State) : Nat :=
  if s.ph = phEncm ∨ s.ph = phEnck ∨ s.ph = phPad then s.i.toNat + 1
  else if s.ph = phFlr then s.i.toNat else 0

/-- The state of a core at the start of a step, with the invariants the spec states or derives. -/
structure Inv (s : State) : Prop where
  /-- The message space is in canonical form (log 3). -/
  memory : s.msg.wf = true
  /-- No request waits between steps (00_scope.md R12). -/
  port : s.port = Port.idle
  /-- No reserved phase code (30_encoding.md R97). -/
  phase : s.ph.toNat ≤ 8
  /-- `PH = 0` exactly when `BUSY = 0` (10_state.md R23). -/
  busy : s.busy = true ↔ s.ph ≠ phIdle
  /-- No reserved error code (10_state.md R33). -/
  err : s.err.toNat ≤ 4
  /-- `DONE` only while idle and without error (10_state.md R32). -/
  done : s.done = true → s.busy = false ∧ s.err = 0
  /-- `OUT` is zero while `DONE = 0` (44_host_commands.md R246). -/
  out : s.done = false → s.out = Bytes.zero 16
  /-- A narrow tag leaves `OUT[8..15]` zero (10_state.md R39). -/
  outNarrow : s.var = .narrow → ∀ j, 8 ≤ j → j < 16 → s.out.at j = 0
  /-- Lane 2 keeps the value 0 in the narrow variant (10_state.md R20). -/
  laneTwo : s.var = .narrow → s.tag2 = Bytes.zero 8 ∧ s.blk2 = Bytes.zero 10
  /-- The scratch state is clear while the core is idle and when `INIT` starts (10_state.md R42,
  44_host_commands.md R241). -/
  scratch : s.ph = phIdle ∨ s.ph = phInit → LanesClear s
  /-- `LEN` is clear while the core is idle (41_blockchainer_narrow.md R172). -/
  idleLen : s.ph = phIdle → s.len = 0
  /-- What START checked holds to the end (20_memory.md R62). -/
  accepted : s.busy = true → Accepted s
  /-- The salt stands in bytes 8 and 9 from `INIT` to `FIN` (10_state.md R21). -/
  salt : 2 ≤ s.ph.toNat → ∀ l, LaneUsed s.var l →
    (s.blk l).at 8 = (subKey s.key l).at 0 ∧ (s.blk l).at 9 = (subKey s.key l).at 1
  /-- While absorbing, `PTR` bytes are absorbed and `REM` bits remain (10_state.md R29, R30; 20_memory.md
  R69). -/
  absorbing : s.ph = phAbsf ∨ s.ph = phAbsp →
    s.i = 0 ∧ s.nl = 0 ∧ 8 * s.ptr.toNat + s.rem.toNat = s.len.toNat ∧ s.ptr.toNat % 8 = 0
  /-- The tail has fewer than 64 bits (41_blockchainer_narrow.md R165). -/
  tail : s.ph = phAbsp → s.rem.toNat < 64
  /-- After the tail the whole message is absorbed (20_memory.md R64). -/
  absorbed : 4 ≤ s.ph.toNat → s.rem = 0 ∧ s.ptr.toNat = bytesOfBits s.len.toNat
  /-- The cursor of a phase from `ENCM` to `PAD` (40_bitcursor_lengthencoder.md R139, R142). -/
  cursor : s.ph = phEncm ∨ s.ph = phEnck ∨ s.ph = phPad →
    s.i.toNat < 8 ∧ 8 * s.i.toNat + s.nl.toNat = cursorPosition s.ph s.len.toNat
  /-- Between `PAD` and `FLR`, `I` is in `1..8` and `NL = 0` (10_state.md R25, R41). -/
  padded : s.ph = phFlr →
    s.nl = 0 ∧ s.i.toNat = cursorPosition s.ph s.len.toNat / 8 + 1
  /-- `FIN` starts with the cursor at rest. -/
  flushed : s.ph = phFin → s.i = 0 ∧ s.nl = 0
  /-- The block-clean invariant (10_state.md R22). -/
  clean : 2 ≤ s.ph.toNat → ∀ l, LaneUsed s.var l →
    ∀ j, firstCleanByte s ≤ j → j < 8 → (s.blk l).at j = 0
  /-- The open byte holds its `NL` bits at the top and zeros below (10_state.md R27). -/
  openByte : s.ph = phEncm ∨ s.ph = phEnck ∨ s.ph = phPad → ∀ l, LaneUsed s.var l →
    ((s.blk l).at s.i.toNat).toNat % 2 ^ (8 - s.nl.toNat) = 0

/-- A run of the machine is safe when it meets no fault (41_blockchainer_narrow.md R176). -/
def NoFault (r : Res State) : Prop := ∀ f, r ≠ .fault f

/-- The host holds the `n` bytes `m 0 .. m (n - 1)` from address `a` on, all below `MSGSZ`
(20_memory.md R62, 70_reset_and_hazards.md R293). -/
def MessageHeld (s : State) (a n : Nat) (m : Nat → Byte) : Prop :=
  ∀ j, j < n → a + j < s.msgsz.toNat ∧ s.msg.get? (a + j) = some (m j)

/-- The turn is the core's: the host has none, or leaves it. -/
abbrev CoresTurn (s : State) : Prop := s.inbox = [] ∨ s.inbox.head? = some .core

/-- The plain content of a block byte: a closed byte has the tag XORed out, the open byte and the bytes after it
stand as they are (40_bitcursor_lengthencoder.md R143). -/
def plainByte (s : State) (l : Lane) (j : Nat) : Byte :=
  if j < s.i.toNat then (s.blk l).at j ^^^ (s.tag l).at j else (s.blk l).at j

/-- Bit `q` of the plain content of a lane's block, bit 7 of byte 0 first (R132, R143). -/
def plainBit (s : State) (l : Lane) (q : Nat) : Bool := (plainByte s l (q / 8)).getLsbD (7 - q % 8)

/-- `ENCM` and `ENCK`, narrow and wide: the operation, the value it encodes and the phase after it
(41_blockchainer_narrow.md R166, R167; 42_dualpipe_wide.md R196, R197). -/
def encodingPhase (isKey : Bool) (v : Variant) (s : State) : Instr × Nat × BitVec 4 :=
  match isKey, v with
  | false, .narrow => (.encmN, s.len.toNat, 5)
  | false, .wide => (.encmW, s.len.toNat, 5)
  | true, .narrow => (.enckN, 80, 6)
  | true, .wide => (.enckW, 80, 6)

/-- Is a log entry an adapter request (43_cipher_adapter.md R226)? -/
def Event.isRequest : Event → Bool
  | .request _ _ _ => true
  | .msgRead _ => false
  | .hostRead _ _ => false

/-- Is a log entry a read of the message space (20_memory.md R70)? -/
def Event.isMsgRead : Event → Bool
  | .request _ _ _ => false
  | .msgRead _ => true
  | .hostRead _ _ => false

/-- A state without the model's own adapter port and log, so that a statement may say what a rule of the spec
says of the registers and the message space and leave these two fields open (logs 7 and 9). -/
def State.shown (s : State) : State := { s with port := Port.idle, history := [] }

/-- The entries a step or a run added to the log. -/
def State.added (s t : State) : List Event := t.history.drop s.history.length

/-- A turn of the host that a run may meet while `BUSY = 1` without a stop and without its end: a turn left to the
core, a wait, a read or a write of a whole register, a byte put outside the message or equal to the one there
(44_host_commands.md R248, R250; 70_reset_and_hazards.md R296). Reset is none, since it ends the run (R291). -/
def HostEvent.undisturbing (s : State) : HostEvent → Bool
  | .core | .wait | .rdIfDone _ => true
  | .wr n width _ => (hostReg n).wholeAccess width
  | .rd n width => (hostReg n).wholeAccess width
  | .place a b => decide (bytesOfBits s.len.toNat ≤ a.toNat) || s.msg.get? a.toNat == some b
  | .reset => false

/-- How many of the next turns are the core's while it is busy: every turn once the host has none, and every turn
from a `WAIT` on, which gives the core one turn after the other (logs 1 and 19). -/
def coreTurns : List HostEvent → Nat → Nat
  | _, 0 => 0
  | [], k + 1 => k + 1
  | .wait :: _, k + 1 => k + 1
  | .core :: es, k + 1 => 1 + coreTurns es k
  | _ :: es, k + 1 => coreTurns es k

/-- The run from `s` ends after exactly `n` turns of the core: after some number of turns, `n` of them the core's,
`BUSY` is 0 for the first time and the state is as `P` says. -/
def EndsAfter (n : Nat) (s : State) (P : State → Prop) : Prop :=
  ∃ k, k ≤ s.inbox.length + n ∧ coreTurns s.inbox k = n ∧
    (∀ j, j < k → ∃ u, Host.Core.run Sys2Proof.core j s = .next u ∧ u.busy = true) ∧
    ∃ t, Host.Core.run Sys2Proof.core k s = .next t ∧ t.busy = false ∧ P t

end Sys2Proof.Machine
end

