-- ==== Sys2Proof/Certificates/Slice0/Obligations.lean ====
section
/-! DEFINITION. The statements about the model, for the provers. -/

open Sys2Proof Sys2Proof.Machine

/-! ## Encodings -/

/-- A word decodes to an instruction exactly when the instruction is well formed and the word is its encoding:
no bit of an encoding is dropped, and no two words select one operation (R91, R92, R96 to R98, R109). -/
def Obligations.DecodeInvertsEncode : Prop :=
  ∀ (w : CodeWord) (i : Instr), decode w = .ok i ↔ (i.wf = true ∧ encode i = w)

/-- Words written out from the encodings of R91, R96 and R98 decode to the operations they stand for. -/
def Obligations.SpecWordsDecode : Prop :=
  decode (.command 0b00000001) = .ok .startN ∧
  decode (.command 0b00000010) = .ok .startW ∧
  decode (.phase 0b00000) = .ok (.idle .narrow) ∧
  decode (.phase 0b00011) = .ok .abspN ∧
  decode (.phase 0b01000) = .ok .finN ∧
  decode (.phase 0b10101) = .ok .enckW ∧
  decode (.header 0b0000000010) = .ok (.fe .two 0) ∧
  decode (.header 0b0001000001) = .ok (.rre .one 16)

/-- A word decodes exactly when it belongs to a row of the operation table: every word that decodes belongs to
exactly one row, the row of the decoded operation's mnemonic, every word that belongs to a row decodes to an
operation of that row's mnemonic, and a word of no row is rejected (R109). -/
def Obligations.DecodeFollowsOpcodeTable : Prop :=
  (∀ (w : CodeWord) (i : Instr), decode w = .ok i →
    ∃ r ∈ opcodeTable, r.mnemonic = i.mnemonic ∧ r.selects w = true ∧
      ∀ r' ∈ opcodeTable, r'.selects w = true → r' = r) ∧
  (∀ (w : CodeWord) (r : OpcodeRow), r ∈ opcodeTable → r.selects w = true →
    ∃ i, decode w = .ok i ∧ i.mnemonic = r.mnemonic) ∧
  (∀ w : CodeWord, (∀ r ∈ opcodeTable, r.selects w = false) → ∃ e, decode w = .error e)

/-! ## The step -/

/-- The step runs the decoded operation: at the core's turn the phase word's operation while `BUSY = 1` or
`PH = 0`, or the operation of a header that waits on the port; at the host's turn, with `BUSY = 0`, the
command written to `CMD` (R12, R13, R109, R240). The model's own choices in it: the turn is taken off the inbox
first (log 1), an idle turn with `PH = 0` is a step (log 2), a header that waits on the port is answered at the
core's next turn (log 7; by R12 no request waits between steps), and a write of `CMD` runs the low byte of
its data, whatever stands above (log 12). -/
def Obligations.StepRunsDecodedOperation : Prop :=
  (∀ (s : State) (i : Instr), CoresTurn s → s.port.pending = none → (s.busy = true ∨ s.ph = 0) →
    decode (.phase s.phaseWord) = .ok i → step s = exec i { s with inbox := s.inbox.tail }) ∧
  (∀ (s : State) (header : BitVec 10) (i : Instr), CoresTurn s → s.port.pending = some header →
    decode (.header header) = .ok i → step s = exec i { s with inbox := s.inbox.tail }) ∧
  (∀ (s : State) (d : BitVec 32) (rest : List HostEvent) (i : Instr),
    s.inbox = .wr 0 8 d :: rest → s.busy = false →
    decode (.command (d.setWidth 8)) = .ok i → step s = exec i { s with inbox := rest })

/-- What `withFetchWord` stores is what the next step runs (log 14): for a word of the table that decodes, the
next step is the decoded operation at the state `withFetchWord` made, its turn taken off. -/
def Obligations.FetchWordRunsNext : Prop :=
  ∀ (s : State) (nbits w : Nat) (i : Instr), decodeTableWord nbits w = some i →
    step (s.withFetchWord nbits w) = exec i { s.withFetchWord nbits w with inbox := s.inbox }

/-- `IDLE` completes and changes nothing, and with no host turn an idle core stays as it is. That the turn
is a step which changes nothing is the model's reading (log 2) of "the sequencer has no step". -/
def Obligations.IdleChangesNothing : Prop :=
  (∀ (v : Variant) (s : State), exec (.idle v) s = .next s) ∧
  (∀ s : State, s.inbox = [] → s.port.pending = none → s.busy = false → s.ph = 0 →
    step s = .next s)

/-- A state with a reserved phase code has no step of the sequencer, and a header that is never issued none of
the adapter: both are stuck (R97, R98, U7). -/
def Obligations.ReservedCodesAreStuck : Prop :=
  (∀ s : State, CoresTurn s → s.port.pending = none → 9 ≤ s.ph.toNat →
    step s = .fault .reservedPhase) ∧
  (∀ (s : State) (header : BitVec 10), CoresTurn s → s.port.pending = some header →
    header ≠ 0x000 → header ≠ 0x002 → header ≠ 0x041 → header ≠ 0x043 →
    step s = .fault .reservedHeader)

/-! ## Reset -/

/-- The reset input puts every register of the core at 0 and leaves the message space alone, whatever the core
was doing (R44, R290, R291); `State.reset` has the same registers. -/
def Obligations.ResetClearsEveryRegister : Prop :=
  let zeroed (t : State) : Prop :=
    (∀ l, t.tag l = Bytes.zero 8 ∧ t.blk l = Bytes.zero 10) ∧
    t.ph = 0 ∧ t.var = .narrow ∧ t.i = 0 ∧ t.nl = 0 ∧ t.len = 0 ∧ t.rem = 0 ∧ t.ptr = 0 ∧
    t.busy = false ∧ t.done = false ∧ t.err = 0 ∧ t.keysz = 0 ∧ t.msglen = 0 ∧ t.msgsz = 0 ∧
    t.key = Bytes.zero 20 ∧ t.out = Bytes.zero 16 ∧ statusWord t = 0 ∧ doneOutput t = false
  zeroed State.reset ∧
  ∀ (s : State) (rest : List HostEvent), s.inbox = .reset :: rest →
    ∃ t, step s = .next t ∧ zeroed t ∧ t.msg = s.msg

/-! ## Host registers -/

/-- `STATUS` shows `PH`, `ERR`, `VAR`, `DONE` and `BUSY` at the bits of R95, zeros elsewhere; it is read only: a
write changes nothing. -/
def Obligations.StatusWordLayout : Prop :=
  ∀ (s : State) (rest : List HostEvent) (d : BitVec 32),
    (statusWord s).extractLsb' 12 4 = 0 ∧ (statusWord s).extractLsb' 8 4 = s.ph ∧
    (statusWord s).extractLsb' 6 2 = 0 ∧ (statusWord s).extractLsb' 3 3 = s.err ∧
    ((statusWord s).getLsbD 2 = decide (s.var = .wide)) ∧
    (statusWord s).getLsbD 1 = s.done ∧ (statusWord s).getLsbD 0 = s.busy ∧
    (s.inbox = .wr 1 16 d :: rest → step s = .next { s with inbox := rest })

/-- Reads of `STATUS`, `KEYSZ`, `MSGLEN`, `MSGSZ` and `OUT[j]` return the register, zero-extended, without a side
effect, also while `BUSY = 1` (R36, R37, R245, R246); what a read returns stands in the model's own log
(log 9). -/
def Obligations.ReadableRegistersReadBack : Prop :=
  ∀ (s : State) (rest : List HostEvent),
    (s.inbox = .rd 1 16 :: rest → step s = .next { s with
      inbox := rest, history := s.history ++ [.hostRead 1 ((statusWord s).setWidth 32)] }) ∧
    (s.inbox = .rd 2 8 :: rest → step s = .next { s with
      inbox := rest, history := s.history ++ [.hostRead 2 (s.keysz.setWidth 32)] }) ∧
    (s.inbox = .rd 3 32 :: rest → step s = .next { s with
      inbox := rest, history := s.history ++ [.hostRead 3 s.msglen] }) ∧
    (s.inbox = .rd 4 32 :: rest → step s = .next { s with
      inbox := rest, history := s.history ++ [.hostRead 4 s.msgsz] }) ∧
    (∀ j, j < 16 → s.inbox = .rd (48 + j) 8 :: rest → step s = .next { s with
      inbox := rest, history := s.history ++ [.hostRead (48 + j) ((s.out.at j).setWidth 32)] })

/-- Reads of `CMD`, of `KEY[j]` and of a reserved number return 0; writes of `STATUS`, of `OUT[j]` and of a
reserved number are dropped; nothing else changes and no error is raised (R249). What a read returns stands
in the model's own log (log 9), and a reserved number takes an access of any width (log 12). -/
def Obligations.WriteOnlyReadOnlyReserved : Prop :=
  ∀ (s : State) (rest : List HostEvent),
    (s.inbox = .rd 0 8 :: rest →
      step s = .next { s with inbox := rest, history := s.history ++ [.hostRead 0 0] }) ∧
    (∀ j, j < 20 → s.inbox = .rd (16 + j) 8 :: rest →
      step s = .next { s with inbox := rest, history := s.history ++ [.hostRead (16 + j) 0] }) ∧
    (∀ n width, (5 ≤ n ∧ n ≤ 15) ∨ (36 ≤ n ∧ n ≤ 47) ∨ 64 ≤ n → s.inbox = .rd n width :: rest →
      step s = .next { s with inbox := rest, history := s.history ++ [.hostRead n 0] }) ∧
    (∀ d, s.inbox = .wr 1 16 d :: rest → step s = .next { s with inbox := rest }) ∧
    (∀ j d, j < 16 → s.inbox = .wr (48 + j) 8 d :: rest → step s = .next { s with inbox := rest }) ∧
    (∀ n width d, (5 ≤ n ∧ n ≤ 15) ∨ (36 ≤ n ∧ n ≤ 47) ∨ 64 ≤ n → s.inbox = .wr n width d :: rest →
      step s = .next { s with inbox := rest })

/-- While `BUSY = 0` a write of `KEYSZ`, `MSGLEN`, `MSGSZ` or `KEY[j]` puts the value, truncated to the
register's width, into the register and changes nothing else (R247). -/
def Obligations.IdleWritesTakeEffect : Prop :=
  ∀ (s : State) (rest : List HostEvent) (d : BitVec 32), s.busy = false →
    (s.inbox = .wr 2 8 d :: rest →
      step s = .next { s with inbox := rest, keysz := d.extractLsb' 0 8 }) ∧
    (s.inbox = .wr 3 32 d :: rest → step s = .next { s with inbox := rest, msglen := d }) ∧
    (s.inbox = .wr 4 32 d :: rest → step s = .next { s with inbox := rest, msgsz := d }) ∧
    (∀ j (h : j < 20), s.inbox = .wr (16 + j) 8 d :: rest →
      step s = .next { s with inbox := rest, key := s.key.set j (d.extractLsb' 0 8) h })

/-- While `BUSY = 1` every write of a whole register, a command among them, is dropped: no register changes and
no error is recorded (R248, R301). -/
def Obligations.BusyWritesAreDropped : Prop :=
  ∀ (s : State) (n width : Nat) (d : BitVec 32) (rest : List HostEvent), s.busy = true →
    (hostReg n).wholeAccess width = true → s.inbox = .wr n width d :: rest →
    step s = .next { s with inbox := rest }

/-- An access narrower or wider than the register is refused (R93, U10). -/
def Obligations.OtherWidthsAreRefused : Prop :=
  ∀ (s : State) (n w width : Nat) (d : BitVec 32) (rest : List HostEvent),
    (hostReg n).width = some w → width ≠ w →
    (s.inbox = .wr n width d :: rest → step s = .refused .accessWidth) ∧
    (s.inbox = .rd n width :: rest → step s = .refused .accessWidth)

/-- Placing a message byte changes that byte and nothing else, and keeps the canonical form; during an
invocation a change of a byte of the message is refused (R62, R296; U5). The model's own choices in it: the
message space is a sorted list of the bytes the host holds, so that there is a canonical form to keep (log 3), and
during an invocation a byte outside the message, or the byte that already stands there, may be placed (log 4). -/
def Obligations.MessageBytePlacement : Prop :=
  ∀ (s : State) (a : BitVec 32) (b : Byte) (rest : List HostEvent), s.inbox = .place a b :: rest →
    ((s.busy = false ∨ (s.len.toNat + 7) / 8 ≤ a.toNat ∨ s.msg.get? a.toNat = some b) →
      ∃ m : Memory, step s = .next { s with inbox := rest, msg := m } ∧
        m.get? a.toNat = some b ∧ (∀ x, x ≠ a.toNat → m.get? x = s.msg.get? x) ∧
        (s.msg.wf = true → m.wf = true)) ∧
    (s.busy = true → a.toNat < (s.len.toNat + 7) / 8 → s.msg.get? a.toNat ≠ some b →
      step s = .refused .messageChanged)

/-! ## Commands -/

/-- `START.N` and `START.W` (R241 to R243, R266): the three checks in order, the first that fails recorded, with
`DONE` and `OUT` cleared and `VAR` written; when none fails the length is latched, `BUSY` rises and the phase is
`INIT`. Nothing else changes. -/
def Obligations.StartResult : Prop :=
  ∀ s : State, s.busy = false → ∀ v : Variant,
    let cmd : Instr := match v with | .narrow => .startN | .wide => .startW
    let need : BitVec 8 := match v with | .narrow => 10 | .wide => 20
    let failed (code : BitVec 3) : State :=
      { s with done := false, out := Vector.replicate 16 0, var := v, err := code }
    (65535 < s.msglen.toNat → exec cmd s = .next (failed 1)) ∧
    (s.msglen.toNat ≤ 65535 → s.keysz ≠ need → exec cmd s = .next (failed 2)) ∧
    (s.msglen.toNat ≤ 65535 → s.keysz = need → s.msgsz.toNat < (s.msglen.toNat + 7) / 8 →
      exec cmd s = .next (failed 3)) ∧
    (s.msglen.toNat ≤ 65535 → s.keysz = need → (s.msglen.toNat + 7) / 8 ≤ s.msgsz.toNat →
      exec cmd s = .next { s with
        done := false, out := Vector.replicate 16 0, var := v, err := 0
        len := s.msglen.extractLsb' 0 16, busy := true, ph := 1 })

/-- A reserved command value written while `BUSY = 0` clears `DONE` and `OUT`, records `IllegalCommand` and
changes nothing else (R244, R265). -/
def Obligations.ReservedCommandRaises : Prop :=
  ∀ (s : State) (c : BitVec 8) (rest : List HostEvent), s.inbox = .wr 0 8 (c.setWidth 32) :: rest →
    s.busy = false → c ≠ 0x01 → c ≠ 0x02 →
    step s = .next { s with inbox := rest, done := false, out := Vector.replicate 16 0, err := 4 }

/-- A START command at an invocation in progress is dropped, not queued. That the drop is a part of the
command's meaning too, and not only of the write of `CMD`, is the model's choice (log 16). -/
def Obligations.StartDroppedWhileBusy : Prop :=
  ∀ s : State, s.busy = true → exec .startN s = .next s ∧ exec .startW s = .next s

/-! ## INIT -/

/-- `INIT.N` (R163): one full encryption of `IV1` under `KEY[0..9]`, the block cleared and salted, the cursor at
rest, `REM` and `PTR` set, next `ABSF`; nothing else changes. -/
def Obligations.InitNarrowResult : Prop :=
  ∀ s : State,
    let k1 : Bytes 10 := Vector.ofFn fun j => s.key.at j.val
    ∃ t, exec .initN s = .next t ∧ t.shown = State.shown { s with
      tag1 := Config.chip.fe Config.chip.iv1 k1
      blk1 := #v[0, 0, 0, 0, 0, 0, 0, 0, s.key.at 0, s.key.at 1]
      i := 0, nl := 0, rem := s.len, ptr := 0, ph := 2 }

/-- `INIT.W` (R193): each lane from its own initial value and sub-key, its block salted with its own sub-key,
no lane exchange; nothing else changes. -/
def Obligations.InitWideResult : Prop :=
  ∀ s : State,
    let k1 : Bytes 10 := Vector.ofFn fun j => s.key.at j.val
    let k2 : Bytes 10 := Vector.ofFn fun j => s.key.at (10 + j.val)
    ∃ t, exec .initW s = .next t ∧ t.shown = State.shown { s with
      tag1 := Config.chip.fe Config.chip.iv1 k1
      tag2 := Config.chip.fe Config.chip.iv2 k2
      blk1 := #v[0, 0, 0, 0, 0, 0, 0, 0, s.key.at 0, s.key.at 1]
      blk2 := #v[0, 0, 0, 0, 0, 0, 0, 0, s.key.at 10, s.key.at 11]
      i := 0, nl := 0, rem := s.len, ptr := 0, ph := 2 }

/-- The initial values of the core are the source's literals in index order (R7). -/
def Obligations.InitialValueLiterals : Prop :=
  Config.chip.iv1 = #v[0x01, 0x23, 0x45, 0x67, 0x89, 0xAB, 0xCD, 0xEF] ∧
  Config.chip.iv2 = #v[0xFE, 0xDC, 0xBA, 0x98, 0x76, 0x54, 0x32, 0x10]

/-! ## ABSF -/

/-- `ABSF.N` (R164): with 64 bits or more remaining it absorbs 8 message bytes under the tag, permutes, and
stays; with fewer it only moves on. The salt is kept, the block is left clean (R22), nothing else changes. -/
def Obligations.AbsfNarrowResult : Prop :=
  ∀ s : State,
    (∀ m : Nat → Byte, 64 ≤ s.rem.toNat → MessageHeld s s.ptr.toNat 8 m →
      let b : Bytes 10 := Vector.ofFn fun j =>
        if j.val < 8 then m j.val ^^^ s.tag1.at j.val else s.blk1.at j.val
      ∃ t, exec .absfN s = .next t ∧ t.shown = State.shown { s with
        tag1 := Config.chip.rre s.tag1 b 16
        blk1 := #v[0, 0, 0, 0, 0, 0, 0, 0, s.blk1.at 8, s.blk1.at 9]
        ptr := s.ptr + 8, rem := s.rem - 64, ph := 2 }) ∧
    (s.rem.toNat < 64 → exec .absfN s = .next { s with ph := 3 })

/-- `ABSF.W` (R194, with R191, R192): both lanes absorb the same 8 bytes under their own tags from before the
exchange; the seeds are the tags after it; nothing else changes. -/
def Obligations.AbsfWideResult : Prop :=
  ∀ s : State,
    (∀ m : Nat → Byte, 64 ≤ s.rem.toNat → MessageHeld s s.ptr.toNat 8 m →
      let b1 : Bytes 10 := Vector.ofFn fun j =>
        if j.val < 8 then m j.val ^^^ s.tag1.at j.val else s.blk1.at j.val
      let b2 : Bytes 10 := Vector.ofFn fun j =>
        if j.val < 8 then m j.val ^^^ s.tag2.at j.val else s.blk2.at j.val
      let seed1 : Bytes 8 := #v[s.tag1.at 0, s.tag1.at 1, s.tag1.at 2, s.tag1.at 3,
        s.tag2.at 0, s.tag2.at 1, s.tag2.at 2, s.tag2.at 3]
      let seed2 : Bytes 8 := #v[s.tag1.at 4, s.tag1.at 5, s.tag1.at 6, s.tag1.at 7,
        s.tag2.at 4, s.tag2.at 5, s.tag2.at 6, s.tag2.at 7]
      ∃ t, exec .absfW s = .next t ∧ t.shown = State.shown { s with
        tag1 := Config.chip.rre seed1 b1 16
        tag2 := Config.chip.rre seed2 b2 16
        blk1 := #v[0, 0, 0, 0, 0, 0, 0, 0, s.blk1.at 8, s.blk1.at 9]
        blk2 := #v[0, 0, 0, 0, 0, 0, 0, 0, s.blk2.at 8, s.blk2.at 9]
        ptr := s.ptr + 8, rem := s.rem - 64, ph := 2 }) ∧
    (s.rem.toNat < 64 → exec .absfW s = .next { s with ph := 3 })

/-! ## ABSP -/

/-- `ABSP.N` (R165): the complete bytes of the tail closed, the partial byte masked to its valid high-order bits
and not XORed, the cursor after the last message bit, nothing else changed. -/
def Obligations.AbspNarrowResult : Prop :=
  ∀ (s : State) (m : Nat → Byte), s.rem.toNat < 64 →
    MessageHeld s s.ptr.toNat ((s.rem.toNat + 7) / 8) m →
    let nb := s.rem.toNat / 8
    let r := s.rem.toNat % 8
    let tailByte (j : Nat) : Byte := m j &&& ((0xFF : Byte) <<< (8 - r))
    ∃ t, exec .abspN s = .next t ∧ t.shown = State.shown { s with
      blk1 := Vector.ofFn fun j =>
        if j.val < nb then m j.val ^^^ s.tag1.at j.val
        else if j.val = nb ∧ 0 < r then tailByte j.val else s.blk1.at j.val
      i := BitVec.ofNat 4 nb, nl := BitVec.ofNat 3 r, rem := 0, ph := 4
      ptr := s.ptr + BitVec.ofNat 16 ((s.rem.toNat + 7) / 8) }

/-- `ABSP.W` (R195): the same tail into both lanes, the same open byte in both. -/
def Obligations.AbspWideResult : Prop :=
  ∀ (s : State) (m : Nat → Byte), s.rem.toNat < 64 →
    MessageHeld s s.ptr.toNat ((s.rem.toNat + 7) / 8) m →
    let nb := s.rem.toNat / 8
    let r := s.rem.toNat % 8
    let tailByte (j : Nat) : Byte := m j &&& ((0xFF : Byte) <<< (8 - r))
    ∃ t, exec .abspW s = .next t ∧ t.shown = State.shown { s with
      blk1 := Vector.ofFn fun j =>
        if j.val < nb then m j.val ^^^ s.tag1.at j.val
        else if j.val = nb ∧ 0 < r then tailByte j.val else s.blk1.at j.val
      blk2 := Vector.ofFn fun j =>
        if j.val < nb then m j.val ^^^ s.tag2.at j.val
        else if j.val = nb ∧ 0 < r then tailByte j.val else s.blk2.at j.val
      i := BitVec.ofNat 4 nb, nl := BitVec.ofNat 3 r, rem := 0, ph := 4
      ptr := s.ptr + BitVec.ofNat 16 ((s.rem.toNat + 7) / 8) }

/-- The bits of the last message byte beyond the length do not matter: two states whose messages agree on the
complete bytes and on the valid bits of the partial byte take the tail to the same state, but for the message
space itself (R64, U13). -/
def Obligations.BitsBeyondLengthIgnored : Prop :=
  ∀ (s : State) (msg' : Memory) (m m' : Nat → Byte), s.rem.toNat < 64 →
    MessageHeld s s.ptr.toNat ((s.rem.toNat + 7) / 8) m →
    MessageHeld { s with msg := msg' } s.ptr.toNat ((s.rem.toNat + 7) / 8) m' →
    (∀ b, b < s.rem.toNat → messageBit m b = messageBit m' b) →
    (∃ t, exec .abspN s = .next t ∧ exec .abspN { s with msg := msg' } = .next { t with msg := msg' }) ∧
    (∃ t, exec .abspW s = .next t ∧ exec .abspW { s with msg := msg' } = .next { t with msg := msg' })

/-- Where `ABSF` and `ABSP` stop. The bytes they need are checked in ascending order, the 8 bytes from `PTR` on for
`ABSF` and the `ceil(REM/8)` bytes of the tail for `ABSP`: at the first that is missing they stop, with a fault at
an address at or above `MSGSZ` (R61, R62; log 17) and a refusal at a byte the host does not hold (R299, U3; log 3).
`ABSP` also stops at a tail of 64 bits or more, against the precondition of R165 (log 10). -/
def Obligations.MessageReadStops : Prop :=
  ∀ s : State,
    let present (j : Nat) : Prop :=
      s.ptr.toNat + j < s.msgsz.toNat ∧ (s.msg.get? (s.ptr.toNat + j)).isSome = true
    (64 ≤ s.rem.toNat → ∀ j, j < 8 → (∀ k, k < j → present k) →
      (s.msgsz.toNat ≤ s.ptr.toNat + j →
        exec .absfN s = .fault .beyondMessageBuffer ∧
        exec .absfW s = .fault .beyondMessageBuffer) ∧
      (s.ptr.toNat + j < s.msgsz.toNat → s.msg.get? (s.ptr.toNat + j) = none →
        exec .absfN s = .refused .messageByteNotHeld ∧
        exec .absfW s = .refused .messageByteNotHeld)) ∧
    (s.rem.toNat < 64 → ∀ j, j < (s.rem.toNat + 7) / 8 → (∀ k, k < j → present k) →
      (s.msgsz.toNat ≤ s.ptr.toNat + j →
        exec .abspN s = .fault .beyondMessageBuffer ∧
        exec .abspW s = .fault .beyondMessageBuffer) ∧
      (s.ptr.toNat + j < s.msgsz.toNat → s.msg.get? (s.ptr.toNat + j) = none →
        exec .abspN s = .refused .messageByteNotHeld ∧
        exec .abspW s = .refused .messageByteNotHeld)) ∧
    (64 ≤ s.rem.toNat →
      exec .abspN s = .fault .tailTooLong ∧ exec .abspW s = .fault .tailTooLong)

/-! ## The length encoder -/

/-- `ENCM` and `ENCK` complete with the cursor moved on by the width of the value modulo a block, and one
permutation call exactly when the block's end is reached (R133, R139, R166, R167, R196, R197); every other
register is unchanged, and without a permutation the tags are too. The permutation calls are counted by the
requests in the model's own log, one in the narrow and two in the wide variant (log 9; R226), and the log and the
port, the model's own fields (logs 7 and 9), are unchanged without one. -/
def Obligations.EncodingMovesCursor : Prop :=
  ∀ (s : State) (isKey : Bool) (v : Variant), s.i.toNat < 8 →
    let i := (encodingPhase isKey v s).1
    let width := numLen (encodingPhase isKey v s).2.1
    let position := 8 * s.i.toNat + s.nl.toNat
    ∃ t, exec i s = .next t ∧ t.ph = (encodingPhase isKey v s).2.2 ∧
      t.i.toNat < 8 ∧ 8 * t.i.toNat + t.nl.toNat = (position + width) % 64 ∧
      (s.added t).length =
        (if position + width < 64 then 0 else match v with | .narrow => 1 | .wide => 2) ∧
      (position + width < 64 →
        t.tag1 = s.tag1 ∧ t.tag2 = s.tag2 ∧ t.port = s.port ∧ t.history = s.history) ∧
      (v = .narrow → t.tag2 = s.tag2 ∧ t.blk2 = s.blk2) ∧
      (∀ l, (t.blk l).at 8 = (s.blk l).at 8 ∧ (t.blk l).at 9 = (s.blk l).at 9) ∧
      t.var = s.var ∧ t.len = s.len ∧ t.rem = s.rem ∧ t.ptr = s.ptr ∧ t.busy = s.busy ∧
      t.done = s.done ∧ t.err = s.err ∧ t.keysz = s.keysz ∧ t.msglen = s.msglen ∧
      t.msgsz = s.msgsz ∧ t.key = s.key ∧ t.out = s.out ∧ t.msg = s.msg ∧ t.inbox = s.inbox

/-- Inside a block, `ENCM` and `ENCK` append exactly the bits of the value, most significant first, to the plain
content at the cursor of every lane in use, and change no plain bit written before (R99, R133 to R136,
R143). The block is clean from the cursor on, as R22 and R27 say it is. -/
def Obligations.EncodingAppendsBits : Prop :=
  ∀ (s : State) (isKey : Bool) (v : Variant), s.i.toNat < 8 →
    let i := (encodingPhase isKey v s).1
    let value := (encodingPhase isKey v s).2.1
    let position := 8 * s.i.toNat + s.nl.toNat
    position + numLen value < 64 →
    (∀ l, LaneUsed v l → ∀ q, position ≤ q → q < 64 → plainBit s l q = false) →
    ∃ t, exec i s = .next t ∧ ∀ l, LaneUsed v l → ∀ q, q < 64 →
      plainBit t l q =
        if q < position then plainBit s l q
        else if q < position + numLen value then value.testBit (numLen value - 1 - (q - position))
        else false

/-- Across a block's end, the one permutation call of `ENCM` or `ENCK` carries the plain block filled up with the
first bits of the value, masked with the tag, and the salt; the other bits stand at the start of the clean new
block under the new tag (R133, R135 to R137, R143, R170, R192). The requests with their headers (R98, R226) stand
in the model's own log (log 9), and the model's own port is idle again (log 7). -/
def Obligations.EncodingCrossesBlock : Prop :=
  ∀ (s : State) (isKey : Bool) (v : Variant), s.i.toNat < 8 →
    let i := (encodingPhase isKey v s).1
    let value := (encodingPhase isKey v s).2.1
    let position := 8 * s.i.toNat + s.nl.toNat
    64 ≤ position + numLen value →
    (∀ l, LaneUsed v l → ∀ q, position ≤ q → q < 64 → plainBit s l q = false) →
    ∃ (t : State) (b : Lane → Bytes 10) (seed : Lane → Bytes 8), exec i s = .next t ∧
      (∀ l, LaneUsed v l →
        (∀ q, q < 64 → ((b l).at (q / 8) ^^^ (s.tag l).at (q / 8)).getLsbD (7 - q % 8) =
          if q < position then plainBit s l q
          else value.testBit (numLen value - 1 - (q - position))) ∧
        (b l).at 8 = (s.blk l).at 8 ∧ (b l).at 9 = (s.blk l).at 9 ∧
        t.tag l = Config.chip.rre (seed l) (b l) 16 ∧
        ∀ q, q < 64 → plainBit t l q =
          if q < position + numLen value - 64 then
            value.testBit (numLen value - 1 - (q + 64 - position))
          else false) ∧
      (∀ k, k < 8 →
        (v = .narrow → (seed .one).at k = s.tag1.at k) ∧
        (v = .wide → (seed .one).at k = (if k < 4 then s.tag1.at k else s.tag2.at (k - 4)) ∧
          (seed .two).at k = (if k < 4 then s.tag1.at (4 + k) else s.tag2.at k))) ∧
      t.port = Port.idle ∧
      t.history = s.history ++
        (match v with
        | .narrow => [.request 0x041 (seed .one) (b .one)]
        | .wide => [.request 0x041 (seed .one) (b .one), .request 0x043 (seed .two) (b .two)])

/-- `EMIT(0)` does nothing: for the empty message `ENCM` only moves on (R138). -/
def Obligations.EmptyLengthEmitsNothing : Prop :=
  ∀ s : State, s.i.toNat < 8 → s.len = 0 →
    exec .encmN s = .next { s with ph := 5 } ∧ exec .encmW s = .next { s with ph := 5 }

/-- `num_len` is the number of bits of the minimal binary form: 0 for 0, `floor(log2 n) + 1` above, one more than
that of the half, and the least `w` with `n < 2^w` (R130). -/
def Obligations.NumLenIsMinimalWidth : Prop :=
  ∀ n : Nat, numLen 0 = 0 ∧ (0 < n → numLen n = Nat.log2 n + 1) ∧
    (0 < n → numLen n = 1 + numLen (n / 2)) ∧ n < 2 ^ numLen n ∧ ∀ w, n < 2 ^ w → numLen n ≤ w

/-- `ENCM`, `ENCK` and `PAD` stop where the cursor names no data byte. The stop is the model's (log 10); no
reachable state meets it. -/
def Obligations.CursorBeyondBlockStops : Prop :=
  ∀ s : State, 8 ≤ s.i.toNat →
    exec .encmN s = .fault .cursorBeyondBlock ∧ exec .encmW s = .fault .cursorBeyondBlock ∧
    exec .enckN s = .fault .cursorBeyondBlock ∧ exec .enckW s = .fault .cursorBeyondBlock ∧
    exec .padN s = .fault .cursorBeyondBlock ∧ exec .padW s = .fault .cursorBeyondBlock

/-! ## PAD, FLR, FIN -/

/-- `PAD.N` and `PAD.W` (R140, R168, R198): the pad bit at the cursor, the byte closed with each lane's own tag,
`I` one further even to 8, no permutation call; nothing else changes. -/
def Obligations.PadResult : Prop :=
  ∀ (s : State) (h : s.i.toNat < 8),
    let closed (b : Bytes 10) (t : Bytes 8) : Bytes 10 :=
      b.set s.i.toNat ((b.at s.i.toNat ||| ((0x80 : Byte) >>> s.nl.toNat)) ^^^ t.at s.i.toNat)
        (Nat.lt_of_lt_of_le h (by decide))
    exec .padN s = .next { s with
      blk1 := closed s.blk1 s.tag1, nl := 0, i := s.i + 1, ph := 7 } ∧
    exec .padW s = .next { s with
      blk1 := closed s.blk1 s.tag1, blk2 := closed s.blk2 s.tag2, nl := 0, i := s.i + 1, ph := 7 }

/-- `FLR.N` (R141, R169): the block filled with the tag's own bytes from `I` on, exactly one permutation call
whatever `I` is; nothing else changes. Outside `1 <= I <= 8`, the precondition of R141, that the phase goes on
is the model's choice (log 21). -/
def Obligations.FlrNarrowResult : Prop :=
  ∀ s : State,
    let b : Bytes 10 := Vector.ofFn fun j =>
      if s.i.toNat ≤ j.val ∧ j.val < 8 then s.tag1.at j.val else s.blk1.at j.val
    ∃ t, exec .flrN s = .next t ∧ t.shown = State.shown { s with
      tag1 := Config.chip.rre s.tag1 b 16
      blk1 := #v[0, 0, 0, 0, 0, 0, 0, 0, s.blk1.at 8, s.blk1.at 9]
      i := 0, ph := 8 }

/-- `FLR.W` (R141, R191, R192, R199): both blocks filled with the tags as they are before the exchange, then one
exchange, then each lane's reduced-round encryption; nothing else changes. Outside `1 <= I <= 8`, the
precondition of R141, that the phase goes on is the model's choice (log 21). -/
def Obligations.FlrWideResult : Prop :=
  ∀ s : State,
    let b1 : Bytes 10 := Vector.ofFn fun j =>
      if s.i.toNat ≤ j.val ∧ j.val < 8 then s.tag1.at j.val else s.blk1.at j.val
    let b2 : Bytes 10 := Vector.ofFn fun j =>
      if s.i.toNat ≤ j.val ∧ j.val < 8 then s.tag2.at j.val else s.blk2.at j.val
    let seed1 : Bytes 8 := #v[s.tag1.at 0, s.tag1.at 1, s.tag1.at 2, s.tag1.at 3,
      s.tag2.at 0, s.tag2.at 1, s.tag2.at 2, s.tag2.at 3]
    let seed2 : Bytes 8 := #v[s.tag1.at 4, s.tag1.at 5, s.tag1.at 6, s.tag1.at 7,
      s.tag2.at 4, s.tag2.at 5, s.tag2.at 6, s.tag2.at 7]
    ∃ t, exec .flrW s = .next t ∧ t.shown = State.shown { s with
      tag1 := Config.chip.rre seed1 b1 16
      tag2 := Config.chip.rre seed2 b2 16
      blk1 := #v[0, 0, 0, 0, 0, 0, 0, 0, s.blk1.at 8, s.blk1.at 9]
      blk2 := #v[0, 0, 0, 0, 0, 0, 0, 0, s.blk2.at 8, s.blk2.at 9]
      i := 0, ph := 8 }

/-- `FIN.N` (R171, R172): the final full encryption under `KEY[0..9]`, the tag in `OUT[0..7]` and zeros above,
the scratch state cleared, `BUSY` down, `DONE` up, `IDLE` next; nothing else changes. -/
def Obligations.FinNarrowResult : Prop :=
  ∀ s : State,
    let k1 : Bytes 10 := Vector.ofFn fun j => s.key.at j.val
    let tag := Config.chip.fe s.tag1 k1
    ∃ t, exec .finN s = .next t ∧ t.shown = State.shown { s with
      tag1 := Vector.replicate 8 0, tag2 := Vector.replicate 8 0
      blk1 := Vector.replicate 10 0, blk2 := Vector.replicate 10 0
      i := 0, nl := 0, len := 0, rem := 0, ptr := 0
      out := Vector.ofFn fun j => if j.val < 8 then tag.at j.val else 0
      busy := false, done := true, ph := 0 }

/-- `FIN.W` (R172, R200): each lane's own full encryption under its own sub-key, without an exchange before it,
lane 1's tag in `OUT[0..7]` and lane 2's in `OUT[8..15]`, the scratch state cleared. -/
def Obligations.FinWideResult : Prop :=
  ∀ s : State,
    let k1 : Bytes 10 := Vector.ofFn fun j => s.key.at j.val
    let k2 : Bytes 10 := Vector.ofFn fun j => s.key.at (10 + j.val)
    let tagA := Config.chip.fe s.tag1 k1
    let tagB := Config.chip.fe s.tag2 k2
    ∃ t, exec .finW s = .next t ∧ t.shown = State.shown { s with
      tag1 := Vector.replicate 8 0, tag2 := Vector.replicate 8 0
      blk1 := Vector.replicate 10 0, blk2 := Vector.replicate 10 0
      i := 0, nl := 0, len := 0, rem := 0, ptr := 0
      out := Vector.ofFn fun j => if j.val < 8 then tagA.at j.val else tagB.at (j.val - 8)
      busy := false, done := true, ph := 0 }

/-! ## Adapter requests -/

/-- The requests of `INIT`, of an absorbing `ABSF`, of `FLR` and of `FIN`, narrow and wide, in order, with their
operands, and the port left idle (R74, R163, R164, R169, R171, R192 to R194, R199, R200, R226). The requests that
`ENCM` and `ENCK` make at a block's end are those of `Obligations.EncodingCrossesBlock`. The log and the idle port
are the model's own way to show them (logs 7 and 9), and that `FLR` goes on outside `1 <= I <= 8` is the
model's choice (log 21). -/
def Obligations.PhasesLogTheirRequests : Prop :=
  ∀ s : State,
    let k1 : Bytes 10 := Vector.ofFn fun j => s.key.at j.val
    let k2 : Bytes 10 := Vector.ofFn fun j => s.key.at (10 + j.val)
    let seed1 : Bytes 8 := Vector.ofFn fun j =>
      if j.val < 4 then s.tag1.at j.val else s.tag2.at (j.val - 4)
    let seed2 : Bytes 8 := Vector.ofFn fun j =>
      if j.val < 4 then s.tag1.at (4 + j.val) else s.tag2.at j.val
    let filled (t : Bytes 8) (b : Bytes 10) : Bytes 10 := Vector.ofFn fun j =>
      if s.i.toNat ≤ j.val ∧ j.val < 8 then t.at j.val else b.at j.val
    let logs (i : Instr) (l : List Event) : Prop :=
      ∃ t, exec i s = .next t ∧ t.port = Port.idle ∧ t.history = s.history ++ l
    logs .initN [.request 0x000 Config.chip.iv1 k1] ∧
    logs .initW [.request 0x000 Config.chip.iv1 k1, .request 0x002 Config.chip.iv2 k2] ∧
    logs .flrN [.request 0x041 s.tag1 (filled s.tag1 s.blk1)] ∧
    logs .flrW [.request 0x041 seed1 (filled s.tag1 s.blk1),
      .request 0x043 seed2 (filled s.tag2 s.blk2)] ∧
    logs .finN [.request 0x000 s.tag1 k1] ∧
    logs .finW [.request 0x000 s.tag1 k1, .request 0x002 s.tag2 k2] ∧
    ∀ m : Nat → Byte, 64 ≤ s.rem.toNat → MessageHeld s s.ptr.toNat 8 m →
      let absorbed (t : Bytes 8) (b : Bytes 10) : Bytes 10 := Vector.ofFn fun j =>
        if j.val < 8 then m j.val ^^^ t.at j.val else b.at j.val
      let reads := (List.range 8).map fun j => Event.msgRead (s.ptr.toNat + j)
      logs .absfN (reads ++ [.request 0x041 s.tag1 (absorbed s.tag1 s.blk1)]) ∧
      logs .absfW (reads ++ [.request 0x041 seed1 (absorbed s.tag1 s.blk1),
        .request 0x043 seed2 (absorbed s.tag2 s.blk2)])

/-- `ABSP` reads the bytes that hold the remaining bits, in ascending order, each once in the wide variant too,
and asks the adapter nothing (R70, R74, R165, R195). The log that shows it is the model's own (log 9). -/
def Obligations.TailLogsItsReads : Prop :=
  ∀ (s : State) (m : Nat → Byte), s.rem.toNat < 64 →
    MessageHeld s s.ptr.toNat ((s.rem.toNat + 7) / 8) m →
    let reads := (List.range ((s.rem.toNat + 7) / 8)).map fun j => Event.msgRead (s.ptr.toNat + j)
    (∃ t, exec .abspN s = .next t ∧ t.port = s.port ∧ t.history = s.history ++ reads) ∧
    (∃ t, exec .abspW s = .next t ∧ t.port = s.port ∧ t.history = s.history ++ reads)

/-- `FE` and `RRE` (R220, R221): the response is the cipher function of the operands on the port, the same
function for both lanes; the request enters the log with its header and nothing else changes. The port and
the log are the model's own fields (logs 7 and 9). -/
def Obligations.AdapterAnswersRequest : Prop :=
  ∀ (s : State) (l : Lane),
    exec (.fe l 0) s = .next { s with
      port := { s.port with pending := none, q := Config.chip.fe s.port.a s.port.b }
      history := s.history ++
        [.request (match l with | .one => 0x000 | .two => 0x002) s.port.a s.port.b] } ∧
    exec (.rre l 16) s = .next { s with
      port := { s.port with pending := none, q := Config.chip.rre s.port.a s.port.b 16 }
      history := s.history ++
        [.request (match l with | .one => 0x041 | .two => 0x043) s.port.a s.port.b] }

/-- `XCHG` (R191): `TAG1` keeps bytes 0 to 3 and takes `TAG2[0..3]` above them, `TAG2` takes `TAG1[4..7]` below
its bytes 4 to 7, the blocks and all else stay, and a second exchange undoes it. -/
def Obligations.LaneExchange : Prop :=
  ∀ s : State,
    (∀ k, k < 4 → (xchg s).tag1.at k = s.tag1.at k ∧ (xchg s).tag1.at (4 + k) = s.tag2.at k ∧
      (xchg s).tag2.at k = s.tag1.at (4 + k) ∧ (xchg s).tag2.at (4 + k) = s.tag2.at (4 + k)) ∧
    xchg s = { s with tag1 := (xchg s).tag1, tag2 := (xchg s).tag2 } ∧ xchg (xchg s) = s

/-! ## Rules of the whole machine -/

/-- No operation writes the key, the declared sizes, the message space or the host's turns (R13, R38, R60). -/
def Obligations.OperationsLeaveHostInputs : Prop :=
  ∀ (i : Instr) (s t : State), exec i s = .next t →
    t.key = s.key ∧ t.keysz = s.keysz ∧ t.msglen = s.msglen ∧ t.msgsz = s.msgsz ∧
    t.msg = s.msg ∧ t.inbox = s.inbox

/-- Of the operations only the two commands write `VAR` and `ERR` (R24, R33, R176). -/
def Obligations.OnlyCommandsWriteVarAndErr : Prop :=
  ∀ (i : Instr) (s t : State), exec i s = .next t → i ≠ .startN → i ≠ .startW →
    t.var = s.var ∧ t.err = s.err

/-- The narrow phase operations before `FIN` neither write lane 2 nor read lane 2 or `KEY[10..19]` (R161): on
states that differ only there they take the same steps. -/
def Obligations.NarrowIgnoresLaneTwo : Prop :=
  ∀ (i : Instr) (s t : State) (tag' : Bytes 8) (blk' : Bytes 10) (key' : Bytes 20),
    i = .initN ∨ i = .absfN ∨ i = .abspN ∨ i = .encmN ∨ i = .enckN ∨ i = .padN ∨ i = .flrN →
    (∀ j, j < 10 → key'.at j = s.key.at j) → exec i s = .next t →
    t.tag2 = s.tag2 ∧ t.blk2 = s.blk2 ∧
    exec i { s with tag2 := tag', blk2 := blk', key := key' } =
      .next { t with tag2 := tag', blk2 := blk', key := key' }

/-- An invocation ends only in `FIN`, with `DONE`, or by reset (R31, R176, R248, R291). -/
def Obligations.BusyFallsOnlyAtFinOrReset : Prop :=
  ∀ s t : State, step s = .next t → s.busy = true → t.busy = false →
    (s.ph = 8 ∧ t.done = true ∧ t.ph = 0) ∨ s.inbox.head? = some .reset

/-- An invocation starts only by a write of a START value to `CMD` that passes the three checks (R31, R240,
R241), or it was in progress before. -/
def Obligations.BusyRisesOnlyByAcceptedStart : Prop :=
  ∀ s t : State, step s = .next t → s.busy = false → t.busy = true →
    ∃ d : BitVec 32, s.inbox.head? = some (.wr 0 8 d) ∧
      (d.extractLsb' 0 8 = (0x01 : BitVec 8) ∧ s.keysz = 10 ∨
        d.extractLsb' 0 8 = (0x02 : BitVec 8) ∧ s.keysz = 20) ∧
      s.msglen.toNat ≤ 65535 ∧ (s.msglen.toNat + 7) / 8 ≤ s.msgsz.toNat ∧ t.ph = 1

/-! ## The invariant -/

/-- The reset state meets the invariant. That its message space lists no byte is the model's choice (log 3). -/
def Obligations.ResetMeetsInvariant : Prop := Inv State.reset

/-- Every step keeps the invariant, whatever the host does at its turns (R20, R22, R23, R25, R27, R30, R32, R42,
R62, R97, R139, R246 as the fields of `Inv`). -/
def Obligations.StepKeepsInvariant : Prop :=
  ∀ s t : State, Inv s → step s = .next t → Inv t

/-- From a state that meets the invariant no step meets a fault: no message read is out of bounds, the cursor
stays in the block, no reserved code comes up (R62, R97, R176). -/
def Obligations.InvariantStepsDoNotFault : Prop :=
  ∀ s : State, Inv s → NoFault (step s)

/-! ## Whole invocations -/

/-- An accepted invocation ends after exactly `(LEN div 64) + 8` turns of the core, whatever the host does in
between short of reset and of changing the message, with `DONE = 1`, `BUSY = 0`, `PH = IDLE`, no error and the
scratch state clear (R160, R248, R303); it has read the bytes `0 .. ceil(LEN/8) - 1` in ascending order, each once
(R64, R74), and made the number of requests of R226. The host's turns between are any list of undisturbing ones
(logs 1, 4, 12, 19), the reads and requests are shown by the model's own log (log 9), and the cipher answers
(log 5). -/
def Obligations.InvocationEnds : Prop :=
  ∀ (s : State) (m : Nat → Byte), Inv s → s.ph = 1 →
    (∀ e ∈ s.inbox, e.undisturbing s = true) →
    MessageHeld s 0 ((s.len.toNat + 7) / 8) m →
    EndsAfter (s.len.toNat / 64 + 8) s fun t =>
      t.ph = 0 ∧ t.done = true ∧ t.err = 0 ∧ LanesClear t ∧ t.len = 0 ∧
      (s.added t).filter Event.isMsgRead =
        (List.range ((s.len.toNat + 7) / 8)).map (fun j => .msgRead j) ∧
      ((s.added t).filter Event.isRequest).length =
        (match s.var with
        | .narrow => blockCount s.len.toNat + 2
        | .wide => 2 * blockCount s.len.toNat + 4)

/-- The tag of a narrow invocation is the closed form of R173 over the padded stream of R103, whatever undisturbing
turns the host has in between (logs 1, 4, 12, 19). -/
def Obligations.NarrowTagIsClosedForm : Prop :=
  ∀ (s : State) (m : Nat → Byte), Inv s → s.ph = 1 → s.var = .narrow →
    (∀ e ∈ s.inbox, e.undisturbing s = true) →
    MessageHeld s 0 ((s.len.toNat + 7) / 8) m →
    EndsAfter (s.len.toNat / 64 + 8) s fun t => ∀ j, j < 8 →
      t.out.at j = (narrowTag Config.chip m s.len.toNat (subKey s.key .one)).at j ∧
      t.out.at (8 + j) = 0

/-- The tag of a wide invocation is the closed form of R202 over the padded stream of R103, lane 1's half
first, whatever undisturbing turns the host has in between (logs 1, 4, 12, 19). -/
def Obligations.WideTagIsClosedForm : Prop :=
  ∀ (s : State) (m : Nat → Byte), Inv s → s.ph = 1 → s.var = .wide →
    (∀ e ∈ s.inbox, e.undisturbing s = true) →
    MessageHeld s 0 ((s.len.toNat + 7) / 8) m →
    EndsAfter (s.len.toNat / 64 + 8) s fun t => ∀ j, j < 8 →
      t.out.at j =
        (wideTag Config.chip m s.len.toNat (subKey s.key .one) (subKey s.key .two)).1.at j ∧
      t.out.at (8 + j) =
        (wideTag Config.chip m s.len.toNat (subKey s.key .one) (subKey s.key .two)).2.at j

/-- The padded stream is injective: two messages of at most 65535 bits with the same blocks are the same message
(R103, R104). -/
def Obligations.PaddedStreamInjective : Prop :=
  ∀ (m m' : Nat → Byte) (L L' : Nat), L ≤ 65535 → L' ≤ 65535 →
    blockCount L = blockCount L' →
    (∀ b, b < blockCount L → plainBlock m L b = plainBlock m' L' b) →
    L = L' ∧ ∀ q, q < L → messageBit m q = messageBit m' q
end

