-- ==== Sys2Proof/Laws/Bytes.lean ====
section
/-! SUPPORT. Reading and writing one byte of a byte array. -/

namespace Sys2Proof

theorem Bytes.at_eq_getElem {n : Nat} (v : Bytes n) {j : Nat} (h : j < n) : v.at j = v[j] := by
  simp [Bytes.at, h]

theorem Bytes.at_of_le {n : Nat} (v : Bytes n) {j : Nat} (h : n ≤ j) : v.at j = 0 := by
  simp [Bytes.at, Nat.not_lt.mpr h]

/-- Two byte arrays are equal when they agree at every element. -/
theorem Bytes.ext_at {n : Nat} {v w : Bytes n} (h : ∀ j, j < n → v.at j = w.at j) : v = w := by
  apply Vector.ext
  intro j hj
  simpa [Bytes.at_eq_getElem _ hj] using h j hj

@[simp] theorem Bytes.at_ofFn {n : Nat} (f : Fin n → Byte) (j : Nat) :
    Bytes.at (Vector.ofFn f) j = if h : j < n then f ⟨j, h⟩ else 0 := by
  unfold Bytes.at
  split <;> simp

@[simp] theorem Bytes.at_zero (n j : Nat) : Bytes.at (Vector.replicate n (0 : Byte)) j = 0 := by
  unfold Bytes.at
  split <;> simp

/-- A written element reads as written, the others as before. -/
theorem Bytes.at_put {n : Nat} (v : Bytes n) (j : Nat) (x : Byte) (k : Nat) :
    (v.put j x).at k = if j = k ∧ k < n then x else v.at k := by
  by_cases hk : k < n
  · by_cases hj : j = k <;> simp [Bytes.put, Bytes.at, hk, hj]
  · simp [Bytes.at, hk]

@[simp] theorem Bytes.at_put_self {n : Nat} (v : Bytes n) {j : Nat} (x : Byte) (h : j < n) :
    (v.put j x).at j = x := by simp [Bytes.at_put, h]

theorem Bytes.at_put_ne {n : Nat} (v : Bytes n) {j k : Nat} (x : Byte) (h : j ≠ k) :
    (v.put j x).at k = v.at k := by simp [Bytes.at_put, h]

@[simp] theorem Bytes.put_put_self {n : Nat} (v : Bytes n) (j : Nat) (x y : Byte) :
    (v.put j x).put j y = v.put j y := by
  apply Bytes.ext_at
  intro k hk
  simp only [Bytes.at_put]
  split <;> simp_all

@[simp] theorem Bytes.put_at_self {n : Nat} (v : Bytes n) (j : Nat) : v.put j (v.at j) = v := by
  apply Bytes.ext_at
  intro k _
  simp only [Bytes.at_put]
  split
  · rename_i h; rw [h.1]
  · rfl

end Sys2Proof
end

