-- ==== Sys2Proof/Laws/State.lean ====
section
/-! SUPPORT. One lemma per field and update of the state: the lane accessors, the record of the port, the log. -/

namespace Sys2Proof.Machine

variable (s : State) (l l' : Lane) (t : Bytes 8) (b : Bytes 10)

@[simp] theorem tag_one : s.tag .one = s.tag1 := rfl
@[simp] theorem tag_two : s.tag .two = s.tag2 := rfl
@[simp] theorem blk_one : s.blk .one = s.blk1 := rfl
@[simp] theorem blk_two : s.blk .two = s.blk2 := rfl
@[simp] theorem setTag_one : s.setTag .one t = { s with tag1 := t } := rfl
@[simp] theorem setTag_two : s.setTag .two t = { s with tag2 := t } := rfl
@[simp] theorem setBlk_one : s.setBlk .one b = { s with blk1 := b } := rfl
@[simp] theorem setBlk_two : s.setBlk .two b = { s with blk2 := b } := rfl

@[simp] theorem setTag_tag_self : (s.setTag l t).tag l = t := by cases l <;> rfl
@[simp] theorem setBlk_blk_self : (s.setBlk l b).blk l = b := by cases l <;> rfl
theorem setTag_tag_ne (h : l ≠ l') : (s.setTag l t).tag l' = s.tag l' := by
  cases l <;> cases l' <;> first | rfl | exact absurd rfl h
theorem setBlk_blk_ne (h : l ≠ l') : (s.setBlk l b).blk l' = s.blk l' := by
  cases l <;> cases l' <;> first | rfl | exact absurd rfl h
@[simp] theorem setTag_blk : (s.setTag l t).blk l' = s.blk l' := by cases l <;> cases l' <;> rfl
@[simp] theorem setBlk_tag : (s.setBlk l b).tag l' = s.tag l' := by cases l <;> cases l' <;> rfl

@[simp] theorem setTag_ph : (s.setTag l t).ph = s.ph := by cases l <;> rfl
@[simp] theorem setTag_var : (s.setTag l t).var = s.var := by cases l <;> rfl
@[simp] theorem setTag_i : (s.setTag l t).i = s.i := by cases l <;> rfl
@[simp] theorem setTag_nl : (s.setTag l t).nl = s.nl := by cases l <;> rfl
@[simp] theorem setTag_len : (s.setTag l t).len = s.len := by cases l <;> rfl
@[simp] theorem setTag_rem : (s.setTag l t).rem = s.rem := by cases l <;> rfl
@[simp] theorem setTag_ptr : (s.setTag l t).ptr = s.ptr := by cases l <;> rfl
@[simp] theorem setTag_busy : (s.setTag l t).busy = s.busy := by cases l <;> rfl
@[simp] theorem setTag_done : (s.setTag l t).done = s.done := by cases l <;> rfl
@[simp] theorem setTag_err : (s.setTag l t).err = s.err := by cases l <;> rfl
@[simp] theorem setTag_keysz : (s.setTag l t).keysz = s.keysz := by cases l <;> rfl
@[simp] theorem setTag_msglen : (s.setTag l t).msglen = s.msglen := by cases l <;> rfl
@[simp] theorem setTag_msgsz : (s.setTag l t).msgsz = s.msgsz := by cases l <;> rfl
@[simp] theorem setTag_key : (s.setTag l t).key = s.key := by cases l <;> rfl
@[simp] theorem setTag_out : (s.setTag l t).out = s.out := by cases l <;> rfl
@[simp] theorem setTag_msg : (s.setTag l t).msg = s.msg := by cases l <;> rfl
@[simp] theorem setTag_port : (s.setTag l t).port = s.port := by cases l <;> rfl
@[simp] theorem setTag_inbox : (s.setTag l t).inbox = s.inbox := by cases l <;> rfl
@[simp] theorem setTag_history : (s.setTag l t).history = s.history := by cases l <;> rfl

@[simp] theorem setBlk_ph : (s.setBlk l b).ph = s.ph := by cases l <;> rfl
@[simp] theorem setBlk_var : (s.setBlk l b).var = s.var := by cases l <;> rfl
@[simp] theorem setBlk_i : (s.setBlk l b).i = s.i := by cases l <;> rfl
@[simp] theorem setBlk_nl : (s.setBlk l b).nl = s.nl := by cases l <;> rfl
@[simp] theorem setBlk_len : (s.setBlk l b).len = s.len := by cases l <;> rfl
@[simp] theorem setBlk_rem : (s.setBlk l b).rem = s.rem := by cases l <;> rfl
@[simp] theorem setBlk_ptr : (s.setBlk l b).ptr = s.ptr := by cases l <;> rfl
@[simp] theorem setBlk_busy : (s.setBlk l b).busy = s.busy := by cases l <;> rfl
@[simp] theorem setBlk_done : (s.setBlk l b).done = s.done := by cases l <;> rfl
@[simp] theorem setBlk_err : (s.setBlk l b).err = s.err := by cases l <;> rfl
@[simp] theorem setBlk_keysz : (s.setBlk l b).keysz = s.keysz := by cases l <;> rfl
@[simp] theorem setBlk_msglen : (s.setBlk l b).msglen = s.msglen := by cases l <;> rfl
@[simp] theorem setBlk_msgsz : (s.setBlk l b).msgsz = s.msgsz := by cases l <;> rfl
@[simp] theorem setBlk_key : (s.setBlk l b).key = s.key := by cases l <;> rfl
@[simp] theorem setBlk_out : (s.setBlk l b).out = s.out := by cases l <;> rfl
@[simp] theorem setBlk_msg : (s.setBlk l b).msg = s.msg := by cases l <;> rfl
@[simp] theorem setBlk_port : (s.setBlk l b).port = s.port := by cases l <;> rfl
@[simp] theorem setBlk_inbox : (s.setBlk l b).inbox = s.inbox := by cases l <;> rfl
@[simp] theorem setBlk_history : (s.setBlk l b).history = s.history := by cases l <;> rfl

@[simp] theorem forLanes_narrow (f : Lane → State → State) : forLanes .narrow f s = f .one s := rfl
@[simp] theorem forLanes_wide (f : Lane → State → State) :
    forLanes .wide f s = f .two (f .one s) := rfl

@[simp] theorem andThen_next {α β : Type} (a : α) (k : α → Res β) : andThen (.next a) k = k a := rfl
@[simp] theorem andThen_fault {α β : Type} (f : Fault) (k : α → Res β) :
    andThen (.fault f) k = .fault f := rfl
@[simp] theorem andThen_refused {α β : Type} (r : Refusal) (k : α → Res β) :
    andThen (.refused r) k = .refused r := rfl

/-- Peeling a sequence: it answers a next state exactly when both parts do. -/
theorem andThen_eq_next {α β : Type} (r : Res α) (k : α → Res β) (b : β) :
    andThen r k = .next b ↔ ∃ a, r = .next a ∧ k a = .next b := by
  cases r <;> simp

end Sys2Proof.Machine
end

