-- ==== Sys2Proof/Laws/Ops.lean ====
section
/-! SUPPORT. One lemma for each shared operation over the lanes and the port, saying all it does. -/

namespace Sys2Proof.Machine

variable (C : Config) (s : State)

/-- A full encryption writes the lane's tag, leaves the port idle and logs one request. -/
theorem fullEncrypt_eq (l : Lane) (p : Bytes 8) : fullEncrypt C l p s =
    { s.setTag l (C.fe p (subKey s.key l)) with
      port := Port.idle
      history := s.history ++ [.request (headerFE l 0) p (subKey s.key l)] } := by
  cases l <;> rfl

/-- A reduced-round request writes the lane's tag, leaves the port idle and logs one request. -/
theorem reducedRound_eq (l : Lane) : reducedRound C l s =
    { s.setTag l (C.rre (s.tag l) (s.blk l) 16) with
      port := Port.idle
      history := s.history ++ [.request (headerRRE l 16) (s.tag l) (s.blk l)] } := by
  cases l <;> rfl

@[simp] theorem clearedBlock_at (b : Bytes 10) (j : Nat) :
    (clearedBlock b).at j = if j < 8 then 0 else b.at j := by
  simp only [clearedBlock, Bytes.at_ofFn]
  by_cases h : j < 10
  · simp [h]
  · have : ¬ j < 8 := by omega
    simp [h, this, Bytes.at_of_le b (Nat.not_lt.mp h)]

theorem xchgOne_at (t1 t2 : Bytes 8) (j : Nat) (h : j < 8) :
    (xchgOne t1 t2).at j = if j < 4 then t1.at j else t2.at (j - 4) := by
  simp [xchgOne, h]

theorem xchgTwo_at (t1 t2 : Bytes 8) (j : Nat) (h : j < 8) :
    (xchgTwo t1 t2).at j = if j < 4 then t1.at (4 + j) else t2.at j := by
  simp [xchgTwo, h]

/-- `PERMUTE.N`: one request, the new tag, the cleared block. -/
theorem permute_narrow : permute C .narrow s =
    { s with
      tag1 := C.rre s.tag1 s.blk1 16, blk1 := clearedBlock s.blk1, port := Port.idle
      history := s.history ++ [.request 0x041 s.tag1 s.blk1] } := by
  rfl

/-- `PERMUTE.W`: one exchange, two requests with the exchanged tags as seeds, both blocks cleared. -/
theorem permute_wide : permute C .wide s =
    { s with
      tag1 := C.rre (xchgOne s.tag1 s.tag2) s.blk1 16
      tag2 := C.rre (xchgTwo s.tag1 s.tag2) s.blk2 16
      blk1 := clearedBlock s.blk1, blk2 := clearedBlock s.blk2, port := Port.idle
      history := s.history ++
        [.request 0x041 (xchgOne s.tag1 s.tag2) s.blk1,
         .request 0x043 (xchgTwo s.tag1 s.tag2) s.blk2] } := by
  simp only [permute, clearBlk, reducedRound_eq, xchg, setTag_one, setTag_two, setBlk_one,
    setBlk_two, tag_one, tag_two, blk_one, blk_two, List.append_assoc, List.singleton_append]
  rfl

/-- The seeds of a permutation call: the tag, or the exchanged tags (42_dualpipe_wide.md R191). -/
def permuteSeed (v : Variant) (l : Lane) : Bytes 8 :=
  match v, l with
  | .narrow, l => s.tag l
  | .wide, .one => xchgOne s.tag1 s.tag2
  | .wide, .two => xchgTwo s.tag1 s.tag2

/-- The log entries of a permutation call. -/
def permuteRequests (v : Variant) : List Event :=
  match v with
  | .narrow => [.request 0x041 (permuteSeed s .narrow .one) s.blk1]
  | .wide => [.request 0x041 (permuteSeed s .wide .one) s.blk1,
      .request 0x043 (permuteSeed s .wide .two) s.blk2]

/-- Either permutation call, for any lane: the new tag of a lane in use, its cleared block, the log, and
everything else as before. -/
theorem permute_spec (v : Variant) :
    (∀ l, l = .one ∨ v = .wide →
      (permute C v s).tag l = C.rre (permuteSeed s v l) (s.blk l) 16 ∧
      (permute C v s).blk l = clearedBlock (s.blk l)) ∧
    (v = .narrow → (permute C v s).tag2 = s.tag2 ∧ (permute C v s).blk2 = s.blk2) ∧
    ∃ t1 t2 b1 b2, permute C v s = { s with
      tag1 := t1, tag2 := t2, blk1 := b1, blk2 := b2, port := Port.idle
      history := s.history ++ permuteRequests s v } := by
  cases v with
  | narrow =>
    rw [permute_narrow]
    refine ⟨fun l hl => ?_, fun _ => ⟨rfl, rfl⟩, _, s.tag2, _, s.blk2, rfl⟩
    obtain rfl : l = .one := hl.resolve_right (by decide)
    exact ⟨rfl, rfl⟩
  | wide =>
    rw [permute_wide]
    exact ⟨fun l _ => by cases l <;> exact ⟨rfl, rfl⟩, by simp, _, _, _, _, rfl⟩

/-- `raise` writes the error code, clears `DONE` and `OUT`, and nothing else. -/
theorem raise_eq (e : ErrorKind) :
    raise e s = { s with err := errorCode e, done := false, out := Bytes.zero 16 } := rfl

end Sys2Proof.Machine
end

