-- ==== Sys2Proof/Laws/BitCursor.lean ====
section
/-! SUPPORT. The cursor's procedures: what each writes, lane by lane, when a permutation call happens, and what all
of them leave alone. -/

namespace Sys2Proof.Machine

variable (C : Config) (s : State)

/-! ## Lane by lane -/

theorem orBlkByte_narrow (j : Nat) (x : Byte) : orBlkByte .narrow j x s =
    { s with blk1 := s.blk1.put j (s.blk1.at j ||| x) } := rfl

theorem orBlkByte_wide (j : Nat) (x : Byte) : orBlkByte .wide j x s =
    { s with
      blk1 := s.blk1.put j (s.blk1.at j ||| x), blk2 := s.blk2.put j (s.blk2.at j ||| x) } := rfl

theorem writeBlkByte_narrow (j : Nat) (x : Byte) : writeBlkByte .narrow j x s =
    { s with blk1 := s.blk1.put j x } := rfl

theorem writeBlkByte_wide (j : Nat) (x : Byte) : writeBlkByte .wide j x s =
    { s with blk1 := s.blk1.put j x, blk2 := s.blk2.put j x } := rfl

/-- A byte closed in the narrow variant, without the test for a full block. -/
theorem advanceByte_narrow : advanceByte .narrow s =
    { s with
      blk1 := s.blk1.put s.i.toNat (s.blk1.at s.i.toNat ^^^ s.tag1.at s.i.toNat)
      nl := 0, i := s.i + 1 } := rfl

/-- A byte closed in the wide variant: each lane with its own tag. -/
theorem advanceByte_wide : advanceByte .wide s =
    { s with
      blk1 := s.blk1.put s.i.toNat (s.blk1.at s.i.toNat ^^^ s.tag1.at s.i.toNat)
      blk2 := s.blk2.put s.i.toNat (s.blk2.at s.i.toNat ^^^ s.tag2.at s.i.toNat)
      nl := 0, i := s.i + 1 } := rfl

theorem fill_narrow : fill .narrow s =
    { s with blk1 := filledBlock s.i.toNat s.tag1 s.blk1 } := rfl

theorem fill_wide : fill .wide s =
    { s with
      blk1 := filledBlock s.i.toNat s.tag1 s.blk1
      blk2 := filledBlock s.i.toNat s.tag2 s.blk2 } := rfl

/-! ## When the block is full -/

@[simp] theorem advanceByte_i (v : Variant) : (advanceByte v s).i = s.i + 1 := by cases v <;> rfl

@[simp] theorem advanceByte_nl (v : Variant) : (advanceByte v s).nl = 0 := by cases v <;> rfl

theorem advanced_index (h : s.i.toNat < 8) : (s.i + 1).toNat = s.i.toNat + 1 := by
  simp only [BitVec.toNat_add]
  have : (1 : BitVec 4).toNat = 1 := rfl
  omega

theorem closeByte_eq (v : Variant) : closeByte C v s =
    if s.i + 1 = 8 then { permute C v (advanceByte v s) with i := 0 } else advanceByte v s := by
  cases v <;> rfl

/-- Below byte 7 a closed byte makes no permutation call. -/
theorem closeByte_inside (v : Variant) (h : s.i.toNat < 7) :
    closeByte C v s = advanceByte v s := by
  have hi := advanced_index s (by omega)
  have : ¬ s.i + 1 = 8 := by
    intro h8
    rw [h8] at hi
    have : (8 : BitVec 4).toNat = 8 := rfl
    omega
  rw [closeByte_eq, if_neg this]

/-- Closing byte 7 makes exactly one permutation call and puts the cursor at the block's start. -/
theorem closeByte_full (v : Variant) (h : s.i.toNat = 7) :
    closeByte C v s = { permute C v (advanceByte v s) with i := 0 } := by
  have : s.i = 7 := BitVec.eq_of_toNat_eq h
  rw [closeByte_eq, if_pos (by rw [this]; rfl)]

/-! ## What the cursor's procedures leave alone -/

/-- `t` is `s` but for the lane registers, the cursor, the port and the log. -/
def LaneFrame (s t : State) : Prop :=
  t = { s with
    tag1 := t.tag1, tag2 := t.tag2, blk1 := t.blk1, blk2 := t.blk2, i := t.i, nl := t.nl
    port := t.port, history := t.history }

theorem LaneFrame.refl : LaneFrame s s := rfl

theorem LaneFrame.trans {a b c : State} (h1 : LaneFrame a b) (h2 : LaneFrame b c) :
    LaneFrame a c := by
  unfold LaneFrame at *
  rw [h2, h1]

theorem orBlkByte_frame (v : Variant) (j : Nat) (x : Byte) :
    LaneFrame s (orBlkByte v j x s) := by cases v <;> rfl

theorem writeBlkByte_frame (v : Variant) (j : Nat) (x : Byte) :
    LaneFrame s (writeBlkByte v j x s) := by cases v <;> rfl

theorem advanceByte_frame (v : Variant) : LaneFrame s (advanceByte v s) := by cases v <;> rfl

theorem permute_frame (v : Variant) : LaneFrame s (permute C v s) := by cases v <;> rfl

theorem fill_frame (v : Variant) : LaneFrame s (fill v s) := by cases v <;> rfl

theorem fullEncrypt_frame (l : Lane) (p : Bytes 8) : LaneFrame s (fullEncrypt C l p s) := by
  cases l <;> rfl

theorem closeByte_frame (v : Variant) : LaneFrame s (closeByte C v s) := by
  rw [closeByte_eq]
  split
  · exact (advanceByte_frame s v).trans
      ((permute_frame C (advanceByte v s) v).trans rfl)
  · exact advanceByte_frame s v

theorem emitMiddle_frame (v : Variant) (V n : Nat) :
    ∀ (r : Nat) (s : State), LaneFrame s (emitMiddle C v V n r s) := by
  induction n with
  | zero => intro r s; exact LaneFrame.refl s
  | succ n ih =>
    intro r s
    exact ((writeBlkByte_frame s v _ _).trans (closeByte_frame C _ v)).trans (ih _ _)

theorem emitFit_frame (v : Variant) (V num : Nat) : LaneFrame s (emitFit C v V num s) := by
  simp only [emitFit]
  split
  · exact (orBlkByte_frame s v _ _).trans (closeByte_frame C _ v)
  · exact (orBlkByte_frame s v _ _).trans rfl

theorem emitSpan_frame (v : Variant) (V num : Nat) : LaneFrame s (emitSpan C v V num s) := by
  unfold emitSpan
  exact ((orBlkByte_frame s v _ _).trans (closeByte_frame C _ v)).trans
    ((emitMiddle_frame C v V _ _ _).trans ((writeBlkByte_frame _ v _ _).trans rfl))

/-- `EMIT` writes the lane registers, the cursor, the port and the log only. -/
theorem emitBits_frame (v : Variant) (V num : Nat) : LaneFrame s (emitBits C v V num s) := by
  unfold emitBits
  split
  · exact emitFit_frame C s v V num
  · exact emitSpan_frame C s v V num

/-- What `EMIT` answers: the procedure's state while the cursor is in the block, a stop otherwise. -/
theorem emit_cases (v : Variant) (V : BitVec 16) :
    (s.i.toNat < 8 ∧ emit C v V s = .next (emitBits C v V.toNat (numLen V.toNat) s)) ∨
    (8 ≤ s.i.toNat ∧ emit C v V s = .fault .cursorBeyondBlock) := by
  unfold emit
  split
  · rename_i h; exact .inl ⟨h, rfl⟩
  · rename_i h; exact .inr ⟨Nat.not_lt.mp h, rfl⟩

/-- What `PADBIT` answers. -/
theorem padBit_cases (v : Variant) :
    (s.i.toNat < 8 ∧
      padBit v s = .next (advanceByte v (orBlkByte v s.i.toNat (padMask s.nl.toNat) s))) ∨
    (8 ≤ s.i.toNat ∧ padBit v s = .fault .cursorBeyondBlock) := by
  unfold padBit
  split
  · rename_i h; exact .inl ⟨h, rfl⟩
  · rename_i h; exact .inr ⟨Nat.not_lt.mp h, rfl⟩

/-- With room for the value in the open byte and to spare, `EMIT` only ORs its bits in. -/
theorem emitBits_short (v : Variant) (V num : Nat) (h : s.nl.toNat + num < 8) :
    emitBits C v V num s =
      { orBlkByte v s.i.toNat (fitSlice V s.nl.toNat num) s with
        nl := BitVec.ofNat 3 (s.nl.toNat + num) } := by
  have h1 : s.nl.toNat + num ≤ 8 := by omega
  have h2 : ¬ s.nl.toNat + num = 8 := by omega
  simp [emitBits, emitFit, h1, h2]

/-- With exactly the room of the open byte, `EMIT` fills and closes it. -/
theorem emitBits_fills (v : Variant) (V num : Nat) (h : s.nl.toNat + num = 8) :
    emitBits C v V num s =
      closeByte C v (orBlkByte v s.i.toNat (fitSlice V s.nl.toNat num) s) := by
  simp [emitBits, emitFit, h]

/-- With more bits than the open byte has room for, `EMIT` spans. -/
theorem emitBits_spans (v : Variant) (V num : Nat) (h : 8 < s.nl.toNat + num) :
    emitBits C v V num s = emitSpan C v V num s := by
  simp [emitBits, Nat.not_le.mpr h]

end Sys2Proof.Machine
end

