-- ==== Sys2Proof/Laws/Memory.lean ====
section
/-! SUPPORT. The laws of the message space: read after write, the canonical form, and what the read check says. -/

namespace Sys2Proof.Machine

/-- Read after write: the written address reads as written, every other as before. -/
theorem Memory.get?_put (m : Memory) (a : Nat) (b : Byte) (x : Nat) :
    (m.put a b).get? x = if a = x then some b else m.get? x := by
  induction m with
  | nil => simp [Memory.put, Memory.get?]
  | cons c m ih =>
    obtain ⟨k, y⟩ := c
    simp only [Memory.put]
    split
    · simp [Memory.get?]
    · split
      · rename_i h; subst h; simp only [Memory.get?]; split <;> rfl
      · simp only [Memory.get?, ih]
        by_cases h1 : k = x <;> by_cases h2 : a = x <;> simp_all

/-- A put keeps the addresses rising from any bound it respects. -/
theorem Memory.risesFrom_put (m : Memory) (a : Nat) (b : Byte) :
    ∀ lo, lo ≤ a → m.risesFrom lo = true → (m.put a b).risesFrom lo = true := by
  induction m with
  | nil => intro lo h _; simp [Memory.put, Memory.risesFrom, h]
  | cons c m ih =>
    obtain ⟨k, y⟩ := c
    intro lo hlo h
    simp only [Memory.risesFrom, Bool.and_eq_true, decide_eq_true_eq] at h
    simp only [Memory.put]
    split
    · rename_i hk
      simp only [Memory.risesFrom, Bool.and_eq_true, decide_eq_true_eq]
      exact ⟨hlo, hk, h.2⟩
    · split
      · rename_i hk; subst hk
        simp only [Memory.risesFrom, Bool.and_eq_true, decide_eq_true_eq]
        exact ⟨hlo, h.2⟩
      · simp only [Memory.risesFrom, Bool.and_eq_true, decide_eq_true_eq]
        exact ⟨h.1, ih (k + 1) (by omega) h.2⟩

/-- A put adds no address but its own. -/
theorem Memory.all_put (m : Memory) (a : Nat) (b : Byte) (p : Nat → Bool) (ha : p a = true)
    (h : (m.all fun c => p c.1) = true) : ((m.put a b).all fun c => p c.1) = true := by
  induction m with
  | nil => simp [Memory.put, ha]
  | cons c m ih =>
    obtain ⟨k, y⟩ := c
    simp only [List.all_cons, Bool.and_eq_true] at h
    simp only [Memory.put]
    split
    · simp [ha, h.1, h.2]
    · split
      · simp [ha, h.2]
      · simp [h.1, ih h.2]

/-- The one writing operation keeps the canonical form. -/
theorem Memory.wf_put (m : Memory) (a : Nat) (b : Byte) (ha : a < 2 ^ 32) (h : m.wf = true) :
    (m.put a b).wf = true := by
  simp only [Memory.wf, Bool.and_eq_true] at h ⊢
  exact ⟨Memory.risesFrom_put m a b 0 (Nat.zero_le _) h.1,
    Memory.all_put m a b (fun k => decide (k < 2 ^ 32)) (by simpa using ha) h.2⟩

theorem reset_memory_wf : State.reset.msg.wf = true := by decide

/-- The check of one address passes exactly when the address exists and the host holds it. -/
theorem msgCheckOne_next (s : State) (a : Nat) :
    msgCheckOne s a = .next () ↔ a < s.msgsz.toNat ∧ (s.msg.get? a).isSome = true := by
  unfold msgCheckOne
  split
  · rename_i h
    cases hg : s.msg.get? a <;> simp [h]
  · rename_i h; simp [h]

/-- The check of a range passes exactly when every address exists and the host holds it. -/
theorem msgCheck_next (s : State) (n : Nat) : ∀ a, msgCheck s a n = .next () ↔
    ∀ j, j < n → a + j < s.msgsz.toNat ∧ (s.msg.get? (a + j)).isSome = true := by
  induction n with
  | zero => intro a; simp [msgCheck]
  | succ n ih =>
    intro a
    have hone := msgCheckOne_next s a
    simp only [msgCheck]
    constructor
    · intro h j hj
      cases hc : msgCheckOne s a with
      | next u =>
        rw [hc] at h
        cases j with
        | zero => simpa using hone.mp (by simpa using hc)
        | succ j =>
          have := (ih (a + 1)).mp h j (by omega)
          simpa [Nat.add_assoc, Nat.add_comm 1 j] using this
      | fault f => rw [hc] at h; simp [andThen] at h
      | refused f => rw [hc] at h; simp [andThen] at h
    · intro h
      rw [hone.mpr (by simpa using h 0 (by omega))]
      refine (ih (a + 1)).mpr fun j hj => ?_
      simpa [Nat.add_assoc, Nat.add_comm 1 j] using h (j + 1) (by omega)

/-- An empty range always passes. -/
@[simp] theorem msgCheck_zero (s : State) (a : Nat) : msgCheck s a 0 = .next () := rfl

/-- A range that starts at or above `MSGSZ` faults. -/
theorem msgCheck_beyond (s : State) (a n : Nat) (h : s.msgsz.toNat ≤ a) :
    msgCheck s a (n + 1) = .fault .beyondMessageBuffer := by
  simp [msgCheck, msgCheckOne, andThen, Nat.not_lt.mpr h]

/-- A range that starts at a byte the host does not hold is refused. -/
theorem msgCheck_unheld (s : State) (a n : Nat) (h : a < s.msgsz.toNat) (hn : s.msg.get? a = none) :
    msgCheck s a (n + 1) = .refused .messageByteNotHeld := by
  simp [msgCheck, msgCheckOne, andThen, h, hn]

/-- The check answers at the first address that does not pass: what that address answers, the addresses before it
having passed. -/
theorem msgCheck_first (s : State) (n j : Nat) (r : Res Unit) (hj : j < n) (hr : r ≠ .next ()) :
    ∀ a, (∀ k, k < j → msgCheckOne s (a + k) = .next ()) → msgCheckOne s (a + j) = r →
      msgCheck s a n = r := by
  induction n generalizing j with
  | zero => omega
  | succ n ih =>
    intro a hk hstop
    cases j with
    | zero =>
      simp only [Nat.add_zero] at hstop
      simp only [msgCheck, hstop]
      cases r with
      | next u => exact absurd rfl hr
      | fault f => rfl
      | refused x => rfl
    | succ j =>
      have h0 : msgCheckOne s a = .next () := by simpa using hk 0 (by omega)
      simp only [msgCheck, h0, andThen]
      refine ih j (by omega) (a + 1) (fun k hkj => ?_) ?_
      · rw [show a + 1 + k = a + (k + 1) by omega]; exact hk (k + 1) (by omega)
      · rw [show a + 1 + j = a + (j + 1) by omega]; exact hstop

/-- The only fault of the check is an address at or above `MSGSZ`. -/
theorem msgCheck_fault (s : State) (n : Nat) : ∀ a f, msgCheck s a n = .fault f →
    ∃ j, j < n ∧ s.msgsz.toNat ≤ a + j := by
  induction n with
  | zero => intro a f h; simp [msgCheck] at h
  | succ n ih =>
    intro a f h
    by_cases ha : a < s.msgsz.toNat
    · cases hg : s.msg.get? a with
      | none => simp [msgCheck, msgCheckOne, andThen, ha, hg] at h
      | some b =>
        simp only [msgCheck, msgCheckOne, andThen, ha, hg, if_true] at h
        obtain ⟨j, hj, hm⟩ := ih (a + 1) f h
        exact ⟨j + 1, by omega, by omega⟩
    · exact ⟨0, by omega, by omega⟩

/-- Placing a byte: what it can do. -/
theorem placeByte_cases (a : Nat) (b : Byte) (s : State) :
    (placeByte a b s = .refused .messageChanged ∧ s.busy = true ∧ a < bytesOfBits s.len.toNat ∧
      s.msg.get? a ≠ some b) ∨
    placeByte a b s = .next { s with msg := s.msg.put a b } := by
  unfold placeByte
  split
  · rename_i h; exact .inl ⟨rfl, h⟩
  · exact .inr rfl

end Sys2Proof.Machine
end

