-- ==== Sys2Proof/Laws/HostTurn.lean ====
section
/-! SUPPORT. What the host can do to an invocation in progress: its undisturbing turns change only the observation log
and the message space outside the message. -/

namespace Sys2Proof.Machine

variable (s : State)

/-- `t` is `s` but for host reads added to the log and message bytes outside the message. -/
def HostFrame (s t : State) : Prop :=
  ∃ (m : Memory) (seen : List Event),
    t = { s with msg := m, history := s.history ++ seen } ∧
    (∀ e ∈ seen, e.isRequest = false ∧ e.isMsgRead = false) ∧
    (s.msg.wf = true → m.wf = true) ∧
    ∀ a, a < bytesOfBits s.len.toNat → m.get? a = s.msg.get? a

theorem HostFrame.refl : HostFrame s s := ⟨s.msg, [], by simp, by simp, id, fun _ _ => rfl⟩

theorem HostFrame.read (n : Nat) : HostFrame s (noteHostRead n s) :=
  ⟨s.msg, _, rfl, by simp [Event.isRequest, Event.isMsgRead], id, fun _ _ => rfl⟩

/-- An undisturbing turn of the host itself, the core's turns aside, while `BUSY = 1`. -/
theorem hostTurn_undisturbing (e : HostEvent) (hb : s.busy = true) (hu : e.undisturbing s = true)
    (hc : e ≠ .core) (hw : e ≠ .wait) : ∃ t, hostTurn e s = .next t ∧ HostFrame s t := by
  cases e with
  | core => exact absurd rfl hc
  | wait => exact absurd rfl hw
  | reset => simp [HostEvent.undisturbing] at hu
  | wr n width d =>
    simp only [HostEvent.undisturbing] at hu
    exact ⟨s, by simp [hostTurn, hostWrite, hu, hb], HostFrame.refl s⟩
  | rd n width =>
    simp only [HostEvent.undisturbing] at hu
    exact ⟨_, by simp only [hostTurn, hostRead, hu, if_true], HostFrame.read s n⟩
  | rdIfDone n =>
    refine ⟨_, rfl, ?_⟩
    split
    · exact HostFrame.read s n
    · exact HostFrame.refl s
  | place a b =>
    simp only [HostEvent.undisturbing, Bool.or_eq_true, decide_eq_true_eq, beq_iff_eq] at hu
    rcases placeByte_cases a.toNat b s with ⟨_, _, hlt, hne⟩ | h
    · exact absurd hu (by rintro (h | h) <;> [omega; exact hne h])
    · refine ⟨_, h, s.msg.put a.toNat b, [], by simp, by simp, Memory.wf_put _ _ _ a.isLt, ?_⟩
      intro x hx
      rw [Memory.get?_put]
      split
      · rename_i hax
        subst hax
        rcases hu with h | h
        · omega
        · exact h.symm
      · rfl

/-- `WAIT` while `BUSY = 1` reads `STATUS`, stays the next turn, and gives the core its turn. -/
theorem waitTurn_busy (hb : s.busy = true) :
    waitTurn s = coreTurn { noteHostRead 1 s with inbox := .wait :: s.inbox } := by
  simp [waitTurn, hb]

end Sys2Proof.Machine
end

