-- ==== Sys2Proof/Laws/PerInstr.lean ====
section
/-! SUPPORT. A family of facts about each operation as syntax: its encoding belongs to the row of its mnemonic
in the operation table (30_encoding.md R109), for every well-formed operand. -/

namespace Sys2Proof.Laws.EncodingInTable

/-- The encoding of a well-formed operation is a word of the row that has its mnemonic. -/
def Statement (i : Instr) : Prop :=
  i.wf = true → ∃ r ∈ opcodeTable, r.mnemonic = i.mnemonic ∧ r.selects (encode i) = true

theorem startN : Statement .startN := by intro _; decide
theorem startW : Statement .startW := by intro _; decide
theorem idle : ∀ v, Statement (.idle v) := by intro v; cases v <;> (intro _; decide)
theorem initN : Statement .initN := by intro _; decide
theorem absfN : Statement .absfN := by intro _; decide
theorem abspN : Statement .abspN := by intro _; decide
theorem encmN : Statement .encmN := by intro _; decide
theorem enckN : Statement .enckN := by intro _; decide
theorem padN : Statement .padN := by intro _; decide
theorem flrN : Statement .flrN := by intro _; decide
theorem finN : Statement .finN := by intro _; decide
theorem initW : Statement .initW := by intro _; decide
theorem absfW : Statement .absfW := by intro _; decide
theorem abspW : Statement .abspW := by intro _; decide
theorem encmW : Statement .encmW := by intro _; decide
theorem enckW : Statement .enckW := by intro _; decide
theorem padW : Statement .padW := by intro _; decide
theorem flrW : Statement .flrW := by intro _; decide
theorem finW : Statement .finW := by intro _; decide

theorem fe : ∀ lane rounds, Statement (.fe lane rounds) := by
  intro lane rounds h
  obtain rfl : rounds = Config.roundsFull := by simpa [Instr.wf] using h
  cases lane <;> decide

theorem rre : ∀ lane rounds, Statement (.rre lane rounds) := by
  intro lane rounds h
  obtain rfl : rounds = Config.rounds := by simpa [Instr.wf] using h
  cases lane <;> decide

end Sys2Proof.Laws.EncodingInTable
end

