-- ==== Sys2Proof/Laws/Step.lean ====
section
/-! SUPPORT. What one step can do: whose turn it is, and the equation of each turn. -/

namespace Sys2Proof.Machine

variable (s : State)

/-- With no host turn the step is the core's turn. -/
theorem step_nil (h : s.inbox = []) : step s = coreTurn s := by simp [step, stepTurn, h]

/-- With a host turn the step is that turn, taken off the inbox. -/
theorem step_cons (e : HostEvent) (rest : List HostEvent) (h : s.inbox = e :: rest) :
    step s = hostTurn e { s with inbox := rest } := by simp [step, stepTurn, h]

/-- Every step is the core's turn or one turn of the host. -/
theorem step_cases : (s.inbox = [] ∧ step s = coreTurn s) ∨
    ∃ e rest, s.inbox = e :: rest ∧ step s = hostTurn e { s with inbox := rest } := by
  cases h : s.inbox with
  | nil => exact .inl ⟨rfl, step_nil s h⟩
  | cons e rest => exact .inr ⟨e, rest, rfl, step_cons s e rest h⟩

/-- The core's turn without a request on the port is the sequencer's. -/
theorem coreTurn_sequencer (h : s.port.pending = none) : coreTurn s = sequencerTurn s := by
  simp [coreTurn, h]

/-- The core's turn with a request on the port answers it. -/
theorem coreTurn_adapter (header : BitVec 10) (h : s.port.pending = some header) :
    coreTurn s = adapterTurn header s := by
  simp [coreTurn, h]

/-- The variant of a phase word is the one it was made of. -/
theorem phaseWordVar_phaseWord (v : Variant) (ph : BitVec 4) :
    phaseWordVar (Sys2Proof.phaseWord v ph) = v := by
  revert ph; cases v <;> decide

/-- The phase of a phase word is the one it was made of. -/
theorem phaseWordPh_phaseWord (v : Variant) (ph : BitVec 4) :
    phaseWordPh (Sys2Proof.phaseWord v ph) = ph := by
  revert ph; cases v <;> decide

/-- The sequencer's turn, by the registers `VAR` and `PH`. -/
theorem sequencerTurn_eq : sequencerTurn s =
    match phaseOp s.var s.ph with
    | .ok i => if s.busy then exec i s else exec (.idle s.var) s
    | .error _ => .fault .reservedPhase := by
  simp only [sequencerTurn, decode, decodePhase, State.phaseWord, phaseWordVar_phaseWord,
    phaseWordPh_phaseWord]
  all_goals cases phaseOp s.var s.ph <;> rfl

/-- Every phase word selects the operation of its phase, or none above 8. -/
theorem phaseOp_cases (v : Variant) (ph : BitVec 4) :
    (9 ≤ ph.toNat ∧ phaseOp v ph = .error .reservedPhase) ∨
    (ph = 0 ∧ phaseOp v ph = .ok (.idle v)) ∨
    (ph = 1 ∧ phaseOp v ph = .ok (match v with | .narrow => .initN | .wide => .initW)) ∨
    (ph = 2 ∧ phaseOp v ph = .ok (match v with | .narrow => .absfN | .wide => .absfW)) ∨
    (ph = 3 ∧ phaseOp v ph = .ok (match v with | .narrow => .abspN | .wide => .abspW)) ∨
    (ph = 4 ∧ phaseOp v ph = .ok (match v with | .narrow => .encmN | .wide => .encmW)) ∨
    (ph = 5 ∧ phaseOp v ph = .ok (match v with | .narrow => .enckN | .wide => .enckW)) ∨
    (ph = 6 ∧ phaseOp v ph = .ok (match v with | .narrow => .padN | .wide => .padW)) ∨
    (ph = 7 ∧ phaseOp v ph = .ok (match v with | .narrow => .flrN | .wide => .flrW)) ∨
    (ph = 8 ∧ phaseOp v ph = .ok (match v with | .narrow => .finN | .wide => .finW)) := by
  have key : ∀ ph : BitVec 4, 9 ≤ ph.toNat ∨ ph = 0 ∨ ph = 1 ∨ ph = 2 ∨ ph = 3 ∨ ph = 4 ∨
      ph = 5 ∨ ph = 6 ∨ ph = 7 ∨ ph = 8 := by decide
  rcases key ph with h | h | h | h | h | h | h | h | h | h
  · left
    refine ⟨h, ?_⟩
    revert ph
    cases v <;> simp only [phaseOp] <;> intro ph h <;>
      (repeat' split) <;> first | rfl | (subst_vars; simp at h)
  all_goals subst h; cases v <;> simp [phaseOp]

/-- A host write of a whole register: dropped while busy, a command at `CMD`, a register write elsewhere. -/
theorem hostWrite_cases (n width : Nat) (d : BitVec 32) :
    (((hostReg n).wholeAccess width = false ∧ hostWrite n width d s = .refused .accessWidth) ∨
    ((hostReg n).wholeAccess width = true ∧ s.busy = true ∧ hostWrite n width d s = .next s) ∨
    ((hostReg n).wholeAccess width = true ∧ s.busy = false ∧ hostReg n = .cmd ∧
      hostWrite n width d s = commandWrite (d.setWidth 8) s) ∨
    ((hostReg n).wholeAccess width = true ∧ s.busy = false ∧ hostReg n ≠ .cmd ∧
      hostWrite n width d s = .next (writeReg s d (hostReg n)))) := by
  unfold hostWrite
  cases (hostReg n).wholeAccess width <;> cases s.busy <;> by_cases h : hostReg n = .cmd <;> simp [h]

end Sys2Proof.Machine
end

