-- ==== Sys2Proof/Tests/Slice0.lean ====
section
/-! SUPPORT. The model's own tests: ill-formed operations refused, each operation's word written out from the
spec's encodings, single operations with the numbers of 95_test_vectors.md, and a witness for the hypotheses
of every statement that has some. Where a number needs a cipher it is the stand-in `T0` of that file
(section 4.1); the chip's own cipher stays open. -/

namespace Sys2Proof.Tests

open Sys2Proof Sys2Proof.Machine

/-! ## Well-formedness -/

theorem test_wf_fe_refuses_rounds_16 : Instr.wf (.fe .one 16) = false := by decide
theorem test_wf_fe_refuses_rounds_5 : Instr.wf (.fe .two 5) = false := by decide
theorem test_wf_rre_refuses_rounds_0 : Instr.wf (.rre .one 0) = false := by decide
theorem test_wf_rre_refuses_rounds_31 : Instr.wf (.rre .two 31) = false := by decide
theorem test_wf_accepts_issued_requests :
    Instr.wf (.fe .two 0) = true ∧ Instr.wf (.rre .one 16) = true := by decide

/-! ## Decoding: the words of 30_encoding.md R91 (format H), R96 (format P, bit 4 `VAR`, bits 3:0 `PH`) and R98
(format A, `ROUNDS` bits 9:2, `LANE` bit 1, `KIND` bit 0) -/

theorem test_decode_startN : decode (.command 0b00000001) = .ok .startN := by decide
theorem test_decode_startW : decode (.command 0b00000010) = .ok .startW := by decide
theorem test_decode_command_reserved :
    decode (.command 0b00000000) = .error .reservedCommand ∧
    decode (.command 0b00000011) = .error .reservedCommand ∧
    decode (.command 0b11111111) = .error .reservedCommand := by decide
theorem test_decode_idle :
    decode (.phase 0b00000) = .ok (.idle .narrow) ∧
    decode (.phase 0b10000) = .ok (.idle .wide) := by decide
theorem test_decode_initN : decode (.phase 0b00001) = .ok .initN := by decide
theorem test_decode_absfN : decode (.phase 0b00010) = .ok .absfN := by decide
theorem test_decode_abspN : decode (.phase 0b00011) = .ok .abspN := by decide
theorem test_decode_encmN : decode (.phase 0b00100) = .ok .encmN := by decide
theorem test_decode_enckN : decode (.phase 0b00101) = .ok .enckN := by decide
theorem test_decode_padN : decode (.phase 0b00110) = .ok .padN := by decide
theorem test_decode_flrN : decode (.phase 0b00111) = .ok .flrN := by decide
theorem test_decode_finN : decode (.phase 0b01000) = .ok .finN := by decide
theorem test_decode_initW : decode (.phase 0b10001) = .ok .initW := by decide
theorem test_decode_absfW : decode (.phase 0b10010) = .ok .absfW := by decide
theorem test_decode_abspW : decode (.phase 0b10011) = .ok .abspW := by decide
theorem test_decode_encmW : decode (.phase 0b10100) = .ok .encmW := by decide
theorem test_decode_enckW : decode (.phase 0b10101) = .ok .enckW := by decide
theorem test_decode_padW : decode (.phase 0b10110) = .ok .padW := by decide
theorem test_decode_flrW : decode (.phase 0b10111) = .ok .flrW := by decide
theorem test_decode_finW : decode (.phase 0b11000) = .ok .finW := by decide
theorem test_decode_phase_reserved :
    decode (.phase 0b01001) = .error .reservedPhase ∧
    decode (.phase 0b11111) = .error .reservedPhase := by decide
theorem test_decode_fe :
    decode (.header 0b0000000000) = .ok (.fe .one 0) ∧
    decode (.header 0b0000000010) = .ok (.fe .two 0) := by decide
theorem test_decode_rre :
    decode (.header 0b0001000001) = .ok (.rre .one 16) ∧
    decode (.header 0b0001000011) = .ok (.rre .two 16) := by decide
theorem test_decode_header_reserved :
    decode (.header 0b0000000001) = .error .reservedHeader ∧
    decode (.header 0b0001000000) = .error .reservedHeader ∧
    decode (.header 0b1111111111) = .error .reservedHeader := by decide

/-- Words as spec/opcode_table.json numbers them, at the whole bytes of the row (log 14). -/
theorem test_table_words :
    decodeTableWord 8 0x01 = some .startN ∧ decodeTableWord 8 0x15 = some .enckW ∧
    decodeTableWord 8 0x18 = some .finW ∧ decodeTableWord 16 0x41 = some (.rre .one 16) ∧
    decodeTableWord 8 0x19 = none := by decide

/-! ## Small states and the stand-in cipher `T0` -/

/-- `FE_T0` (95_test_vectors.md 4.1). -/
def feT0 (p : Bytes 8) (k : Bytes 10) : Bytes 8 := Vector.ofFn fun j =>
  (p.at j.val + k.at j.val + 3 * k.at ((j.val + 2) % 10) + BitVec.ofNat 8 j.val) ^^^
    p.at ((j.val + 1) % 8)

/-- `RRE_T0` (95_test_vectors.md 4.1). -/
def rreT0 (s : Bytes 8) (b : Bytes 10) (r : Nat) : Bytes 8 := Vector.ofFn fun j =>
  (s.at j.val ^^^ b.at ((j.val + 3) % 8)) + 5 * b.at j.val + s.at ((j.val + 1) % 8) +
    b.at (8 + j.val % 2) + BitVec.ofNat 8 r + BitVec.ofNat 8 j.val

/-- The core with the stand-in cipher. -/
def coreT0 : Config where
  fe := feT0
  rre := rreT0

/-- A property of the next state; false of a stop. -/
def nextIs (r : Res State) (p : State → Bool) : Bool :=
  match r with
  | .next s => p s
  | .fault _ => false
  | .refused _ => false

/-- A state between two steps of an invocation with the lanes and the cursor given. -/
def mid (v : Variant) (t1 t2 : Bytes 8) (b1 b2 : Bytes 10) (i : BitVec 4) (nl : BitVec 3) : State :=
  { State.reset with
    var := v, busy := true, tag1 := t1, tag2 := t2, blk1 := b1, blk2 := b2, i := i, nl := nl }

/-- The narrow state of the vectors of 95_test_vectors.md 2.2. -/
def emitState (b : Bytes 10) (i : BitVec 4) (nl : BitVec 3) : State :=
  mid .narrow #v[0x10, 0x11, 0x12, 0x13, 0x14, 0x15, 0x16, 0x17] (Bytes.zero 8) b (Bytes.zero 10) i nl

/-- Key bytes `A0 .. A9 B0 .. B9` (95_test_vectors.md 4.5, program P3). -/
def keyP3 : Bytes 20 :=
  #v[0xA0, 0xA1, 0xA2, 0xA3, 0xA4, 0xA5, 0xA6, 0xA7, 0xA8, 0xA9,
     0xB0, 0xB1, 0xB2, 0xB3, 0xB4, 0xB5, 0xB6, 0xB7, 0xB8, 0xB9]

/-- The message of program P3. -/
def msgP3 : Memory :=
  [(0, 0x11), (1, 0x22), (2, 0x33), (3, 0x44), (4, 0x55), (5, 0x66), (6, 0x77), (7, 0x88), (8, 0x9F)]

/-- Program P3 after its accepted START. -/
def startedP3 : State :=
  { State.reset with
    var := .wide, busy := true, ph := 1, key := keyP3, keysz := 20, msglen := 70, msgsz := 9, len := 70
    msg := msgP3 }

/-- Program P3 at a later phase: lanes, cursor, remaining bits, pointer. -/
def atP3 (t1 t2 : Bytes 8) (b1 b2 : Bytes 10) (i : BitVec 4) (nl : BitVec 3) (rem ptr : BitVec 16)
    (ph : BitVec 4) : State :=
  { startedP3 with
    tag1 := t1, tag2 := t2, blk1 := b1, blk2 := b2, i := i, nl := nl, rem := rem, ptr := ptr, ph := ph }

/-- Program P2 (95_test_vectors.md 4.4) after its accepted START: 9 bits, `AB B7`. -/
def startedP2 : State :=
  { State.reset with
    busy := true, ph := 1, keysz := 10, msglen := 9, msgsz := 2, len := 9
    key := #v[0, 1, 2, 3, 4, 5, 6, 7, 8, 9, 0, 0, 0, 0, 0, 0, 0, 0, 0, 0]
    msg := [(0, 0xAB), (1, 0xB7)] }

/-- Program P2 at a later phase. -/
def atP2 (t1 : Bytes 8) (b1 : Bytes 10) (i : BitVec 4) (nl : BitVec 3) (rem ptr : BitVec 16)
    (ph : BitVec 4) : State :=
  { startedP2 with tag1 := t1, blk1 := b1, i := i, nl := nl, rem := rem, ptr := ptr, ph := ph }

/-- `TAG1` of program P2 after `INIT.N`. -/
def tagP2 : Bytes 8 := #v[0x24, 0x6B, 0x32, 0xF5, 0x08, 0x07, 0x1E, 0x19]

/-- `TAG1` and `TAG2` of program P3 after `INIT.W` and after the absorbing `ABSF.W`. -/
def initTagsP3 : Bytes 8 × Bytes 8 :=
  (#v[0xA4, 0xEB, 0xB2, 0x75, 0x88, 0x87, 0x9E, 0x99],
   #v[0x18, 0x1D, 0x12, 0x1B, 0x04, 0x01, 0x06, 0x07])
def absTagsP3 : Bytes 8 × Bytes 8 :=
  (#v[0xB9, 0x87, 0xFF, 0x5D, 0x2B, 0xD5, 0x39, 0x4B],
   #v[0x4B, 0x71, 0xF9, 0x8B, 0xE5, 0xD7, 0x3B, 0x41])

/-- A block of program P3 whose bytes 0 to 3 are given, with lane 1's or lane 2's salt. -/
def blkP3 (l : Lane) (x0 x1 x2 x3 : Byte) : Bytes 10 :=
  match l with
  | .one => #v[x0, x1, x2, x3, 0, 0, 0, 0, 0xA0, 0xA1]
  | .two => #v[x0, x1, x2, x3, 0, 0, 0, 0, 0xB0, 0xB1]

/-! ## `num_len`, `EMIT`, `XCHG` (95_test_vectors.md 2.1, 2.2, 2.5) -/

theorem test_numLen :
    [0, 1, 2, 3, 4, 7, 8, 9, 63, 64, 65, 80, 127, 128].map numLen =
      [0, 1, 2, 2, 3, 3, 4, 4, 6, 7, 7, 7, 7, 8] := by decide

/-- Row `(3, 5)`, `V = 5`: the value fits and fills, the byte is closed with `TAG1[3]`. -/
theorem test_emit_fills :
    let t := emitBits coreT0 .narrow 5 3 (emitState #v[1, 2, 3, 0xB8, 0, 0, 0, 0, 0, 0] 3 5)
    t.i = 4 ∧ t.nl = 0 ∧ t.blk1 = #v[1, 2, 3, 0xAE, 0, 0, 0, 0, 0, 0] := by decide

/-- Row `(6, 3)`, `V = 512`: the value spans two bytes. -/
theorem test_emit_spans :
    let t := emitBits coreT0 .narrow 512 10 (emitState #v[1, 2, 3, 4, 5, 6, 0xA0, 0, 0, 0] 6 3)
    t.i = 7 ∧ t.nl = 5 ∧ t.blk1 = #v[1, 2, 3, 4, 5, 6, 0xA6, 0, 0, 0] := by decide

/-- Row `(7, 7)`, `V = 65535`: a permutation after the head, and the middle byte under the new tag. -/
theorem test_emit_crosses :
    let t := emitBits coreT0 .narrow 65535 16 (emitState #v[1, 2, 3, 4, 5, 6, 7, 0xFE, 0, 0] 7 7)
    t.i = 1 ∧ t.nl = 7 ∧ t.blk1 = #v[0xC5, 0xFE, 0, 0, 0, 0, 0, 0, 0, 0] ∧
      t.tag1 = #v[0x3A, 0x41, 0x48, 0x4F, 0x3E, 0x5D, 0x64, 0xC3] := by decide

theorem test_xchg :
    let t := xchg (mid .wide #v[0x10, 0x11, 0x12, 0x13, 0x14, 0x15, 0x16, 0x17]
      #v[0x20, 0x21, 0x22, 0x23, 0x24, 0x25, 0x26, 0x27] (Bytes.zero 10) (Bytes.zero 10) 0 0)
    t.tag1 = #v[0x10, 0x11, 0x12, 0x13, 0x20, 0x21, 0x22, 0x23] ∧
      t.tag2 = #v[0x14, 0x15, 0x16, 0x17, 0x24, 0x25, 0x26, 0x27] := by decide

/-! ## The phase operations, narrow (program P2) -/

theorem test_initN : nextIs (initPhase coreT0 .narrow startedP2) (fun t =>
    t.tag1 == tagP2 && t.blk1 == #v[0, 0, 0, 0, 0, 0, 0, 0, 0, 1] && t.rem == 9 && t.ph == 2) = true := by
  decide

theorem test_absfN_moves_on :
    nextIs (execAbsfN (atP2 tagP2 #v[0, 0, 0, 0, 0, 0, 0, 0, 0, 1] 0 0 9 0 2)) (fun t =>
      t.ph == 3 && t.rem == 9 && t.tag1 == tagP2) = true := by decide

theorem test_abspN :
    nextIs (execAbspN (atP2 tagP2 #v[0, 0, 0, 0, 0, 0, 0, 0, 0, 1] 0 0 9 0 3)) (fun t =>
      t.i == 1 && t.nl == 1 && t.ptr == 2 && t.blk1 == #v[0x8F, 0x80, 0, 0, 0, 0, 0, 0, 0, 1]) =
      true := by decide

theorem test_encmN :
    nextIs (execEncmN (atP2 tagP2 #v[0x8F, 0x80, 0, 0, 0, 0, 0, 0, 0, 1] 1 1 0 2 4)) (fun t =>
      t.i == 1 && t.nl == 5 && t.blk1 == #v[0x8F, 0xC8, 0, 0, 0, 0, 0, 0, 0, 1] && t.ph == 5) =
      true := by decide

theorem test_enckN :
    nextIs (execEnckN (atP2 tagP2 #v[0x8F, 0xC8, 0, 0, 0, 0, 0, 0, 0, 1] 1 5 0 2 5)) (fun t =>
      t.i == 2 && t.nl == 4 && t.blk1 == #v[0x8F, 0xA6, 0, 0, 0, 0, 0, 0, 0, 1] && t.ph == 6) =
      true := by decide

theorem test_padN :
    nextIs (execPadN (atP2 tagP2 #v[0x8F, 0xA6, 0, 0, 0, 0, 0, 0, 0, 1] 2 4 0 2 6)) (fun t =>
      t.i == 3 && t.nl == 0 && t.blk1 == #v[0x8F, 0xA6, 0x3A, 0, 0, 0, 0, 0, 0, 1] && t.ph == 7) =
      true := by decide

/-- Program P5, step 6: the pad bit in byte 7 leaves `I = 8` and makes no request. -/
theorem test_padN_byte_seven :
    nextIs (execPadN (atP2 #v[0x1E, 0x25, 0xE4, 0x2F, 0x62, 0x21, 0xE0, 0x33]
      #v[0xC0, 0x88, 0x5A, 0xC0, 0x63, 0x23, 0x12, 0xA0, 0x0F, 0x0F] 7 7 0 7 6)) (fun t =>
      t.i == 8 && t.blk1.at 7 == 0x92 && t.history == []) = true := by decide

theorem test_flrN :
    nextIs (flrPhase coreT0 .narrow
      (atP2 tagP2 #v[0x8F, 0xA6, 0x3A, 0, 0, 0, 0, 0, 0, 1] 3 0 0 2 7)) (fun t =>
      t.tag1 == #v[0x17, 0xE5, 0x5E, 0xD0, 0x54, 0xDF, 0x7D, 0xDC] && t.i == 0 && t.ph == 8 &&
      t.history == [.request 0x041 tagP2
        #v[0x8F, 0xA6, 0x3A, 0xF5, 0x08, 0x07, 0x1E, 0x19, 0x00, 0x01]]) = true := by decide

theorem test_finN :
    nextIs (finPhase coreT0 .narrow (atP2 #v[0x17, 0xE5, 0x5E, 0xD0, 0x54, 0xDF, 0x7D, 0xDC]
      #v[0, 0, 0, 0, 0, 0, 0, 0, 0, 1] 0 0 0 2 8)) (fun t =>
      t.out == #v[0xF8, 0xAE, 0xBE, 0xB1, 0xB1, 0x83, 0x7D, 0x12, 0, 0, 0, 0, 0, 0, 0, 0] &&
      statusWord t == 0x0002 && t.tag1 == Bytes.zero 8) = true := by decide

/-! ## The phase operations, wide (program P3) -/

theorem test_initW : nextIs (initPhase coreT0 .wide startedP3) (fun t =>
    t.tag1 == initTagsP3.1 && t.tag2 == initTagsP3.2 &&
    t.blk2 == blkP3 .two 0 0 0 0 && t.rem == 70) = true := by decide

theorem test_absfW :
    nextIs (absfPhase coreT0 .wide (atP3 initTagsP3.1 initTagsP3.2
      (blkP3 .one 0 0 0 0) (blkP3 .two 0 0 0 0) 0 0 70 0 2)) (fun t =>
      t.tag1 == absTagsP3.1 && t.tag2 == absTagsP3.2 && t.rem == 6 && t.ptr == 8 && t.ph == 2) =
      true := by decide

theorem test_abspW :
    nextIs (execAbspW (atP3 absTagsP3.1 absTagsP3.2
      (blkP3 .one 0 0 0 0) (blkP3 .two 0 0 0 0) 0 0 6 8 3)) (fun t =>
      t.i == 0 && t.nl == 6 && t.ptr == 9 && t.blk1 == blkP3 .one 0x9C 0 0 0 &&
      t.blk2 == blkP3 .two 0x9C 0 0 0) = true := by decide

theorem test_encmW :
    nextIs (execEncmW (atP3 absTagsP3.1 absTagsP3.2
      (blkP3 .one 0x9C 0 0 0) (blkP3 .two 0x9C 0 0 0) 0 6 0 9 4)) (fun t =>
      t.i == 1 && t.nl == 5 && t.blk1 == blkP3 .one 0x27 0x30 0 0 &&
      t.blk2 == blkP3 .two 0xD5 0x30 0 0) = true := by decide

theorem test_enckW :
    nextIs (execEnckW (atP3 absTagsP3.1 absTagsP3.2
      (blkP3 .one 0x27 0x30 0 0) (blkP3 .two 0xD5 0x30 0 0) 1 5 0 9 5)) (fun t =>
      t.i == 2 && t.nl == 4 && t.blk1 == blkP3 .one 0x27 0xB2 0 0 &&
      t.blk2 == blkP3 .two 0xD5 0x44 0 0) = true := by decide

theorem test_padW :
    nextIs (execPadW (atP3 absTagsP3.1 absTagsP3.2
      (blkP3 .one 0x27 0xB2 0 0) (blkP3 .two 0xD5 0x44 0 0) 2 4 0 9 6)) (fun t =>
      t.i == 3 && t.nl == 0 && t.blk1 == blkP3 .one 0x27 0xB2 0xF7 0 &&
      t.blk2 == blkP3 .two 0xD5 0x44 0xF1 0) = true := by decide

theorem test_flrW :
    nextIs (flrPhase coreT0 .wide (atP3 absTagsP3.1 absTagsP3.2
      (blkP3 .one 0x27 0xB2 0xF7 0) (blkP3 .two 0xD5 0x44 0xF1 0) 3 0 0 9 7)) (fun t =>
      t.tag1 == #v[0xDE, 0xD7, 0x0C, 0x34, 0xFC, 0x2E, 0xA9, 0x64] &&
      t.tag2 == #v[0x5E, 0x7F, 0xB0, 0xD0, 0xB8, 0x36, 0xAD, 0xE8] && t.ph == 8) = true := by decide

theorem test_finW :
    nextIs (finPhase coreT0 .wide (atP3 #v[0xDE, 0xD7, 0x0C, 0x34, 0xFC, 0x2E, 0xA9, 0x64]
      #v[0x5E, 0x7F, 0xB0, 0xD0, 0xB8, 0x36, 0xAD, 0xE8]
      (blkP3 .one 0 0 0 0) (blkP3 .two 0 0 0 0) 0 0 0 9 8)) (fun t =>
      t.out == #v[0xB3, 0x6E, 0xA8, 0x35, 0xB8, 0x64, 0x29, 0xD3,
        0x5B, 0xFA, 0x50, 0x1D, 0xA4, 0xB8, 0x79, 0x8F] && statusWord t == 0x0006) = true := by decide

/-! ## Commands and the host's port (95_test_vectors.md 2.7, 2.8) -/

/-- An idle core with the host's declarations given. -/
def declared (msglen msgsz : BitVec 32) (keysz : BitVec 8) : State :=
  { State.reset with msglen := msglen, msgsz := msgsz, keysz := keysz }

theorem test_startN :
    nextIs (execStartN (declared 65535 8192 10)) (fun t => statusWord t == 0x0101) = true ∧
    nextIs (execStartN (declared 65535 8191 10)) (fun t => statusWord t == 0x0018) = true := by decide
theorem test_startN_order :
    nextIs (execStartN (declared 0xFFFFFFFF 0 0)) (fun t => statusWord t == 0x0008) = true ∧
    nextIs (execStartN (declared 9 1 9)) (fun t => statusWord t == 0x0010) = true := by decide
theorem test_startW :
    nextIs (execStartW (declared 9 2 20)) (fun t => statusWord t == 0x0105) = true ∧
    nextIs (execStartW (declared 9 2 10)) (fun t => statusWord t == 0x0014) = true := by decide
theorem test_startW_rejected :
    nextIs (execStartW (declared 70000 0 20)) (fun t => statusWord t == 0x000C) = true ∧
    nextIs (execStartW (declared 9 0 20)) (fun t => statusWord t == 0x001C) = true := by decide
theorem test_illegal_command :
    nextIs (hostWrite 0 8 0x103 State.reset) (fun t => statusWord t == 0x0020) = true := by decide
theorem test_keysz_truncated :
    nextIs (hostWrite 2 8 0x10A State.reset) (fun t => t.keysz == 0x0A) = true := by decide
theorem test_key_write_only :
    nextIs (hostWrite 19 8 0x5A State.reset) (fun t => t.key.at 3 == 0x5A) = true ∧
    readReg { State.reset with key := keyP3 } (hostReg 19) = 0 := by decide
theorem test_idle : nextIs (execIdle .wide startedP3) (fun t => t == startedP3) = true := by decide

/-! ## Adapter requests: header and operands on the port, the answer beside them -/

theorem test_fe :
    let t := answerFE coreT0 .one 0 { State.reset with
      port := ⟨some 0x000, coreT0.iv1, Bytes.zero 10, Bytes.zero 8⟩ }
    t.port.q = #v[0x22, 0x61, 0x20, 0xE3, 0x26, 0x7D, 0x3C, 0xF7] ∧ t.port.pending = none := by decide

theorem test_rre :
    let a : Bytes 8 := #v[0x10, 0x11, 0x12, 0x13, 0x14, 0x15, 0x16, 0x17]
    let b : Bytes 10 := #v[1, 2, 3, 4, 5, 6, 7, 0xE8, 0, 0]
    let t := answerRRE coreT0 .two 16 { State.reset with port := ⟨some 0x043, a, b, Bytes.zero 8⟩ }
    t.port.q = #v[0x3A, 0x41, 0x48, 0x4F, 0x3E, 0x5D, 0x64, 0xC3] ∧
      t.history = [.request 0x043 a b] := by decide

/-! ## Witnesses: for each statement with hypotheses, concrete states and operands that meet them, each clause at
boundary values -/

/-- An idle core with one host turn. -/
def hosted (e : HostEvent) : State := { State.reset with inbox := [e] }

/-- A narrow core that has `rem` bits to absorb, with the message bytes of `msgP3`. -/
def absorbing (rem : BitVec 16) (ph : BitVec 4) : State :=
  { State.reset with busy := true, ph := ph, rem := rem, len := rem, msgsz := 9, msg := msgP3 }

/-- The message of `msgP3` as a function. -/
def bytesP3 (j : Nat) : Byte := (msgP3.get? j).getD 0

/-- A core at a phase with the cursor given. -/
def cursorAt (i : BitVec 4) (nl : BitVec 3) (len : BitVec 16) : State :=
  { mid .wide (Bytes.zero 8) (Bytes.zero 8) (Bytes.zero 10) (Bytes.zero 10) i nl with len := len }

theorem witness_DecodeInvertsEncode :
    decode (.header 0x041) = .ok (.rre .one 16) ∧ Instr.wf (.rre .one 16) = true ∧
      encode (.rre .one 16) = .header 0x041 := by decide

theorem witness_DecodeFollowsOpcodeTable_decoded : decode (.phase 0b10000) = .ok (.idle .wide) := by
  decide
theorem witness_DecodeFollowsOpcodeTable_selected :
    let r : OpcodeRow := ⟨"FE", .A, 0x000, 0x3FD⟩
    r ∈ opcodeTable ∧ r.selects (.header 0x002) = true ∧ r.selects (.header 0x000) = true := by decide
theorem witness_DecodeFollowsOpcodeTable_rejected :
    (∀ r ∈ opcodeTable, r.selects (.phase 0b01001) = false) ∧
    (∀ r ∈ opcodeTable, r.selects (.header 0b0001000000) = false) ∧
    (∀ r ∈ opcodeTable, r.selects (.command 0b00000011) = false) := by decide

theorem witness_StepRunsDecodedOperation_phase :
    CoresTurn startedP3 ∧ startedP3.port.pending = none ∧ startedP3.busy = true ∧
      decode (.phase startedP3.phaseWord) = .ok .initW := by decide
theorem witness_StepRunsDecodedOperation_idle :
    CoresTurn (hosted .core) ∧ (hosted .core).port.pending = none ∧ (hosted .core).ph = 0 ∧
      decode (.phase (hosted .core).phaseWord) = .ok (.idle .narrow) := by decide
theorem witness_StepRunsDecodedOperation_header :
    let s := State.reset.withFetchWord 16 0x43
    CoresTurn s ∧ s.port.pending = some 0x043 ∧ decode (.header 0x043) = .ok (.rre .two 16) := by decide
theorem witness_StepRunsDecodedOperation_command :
    (hosted (.wr 0 8 0x02)).inbox = .wr 0 8 0x02 :: [] ∧ (hosted (.wr 0 8 0x02)).busy = false ∧
      decode (.command ((0x02 : BitVec 32).setWidth 8)) = .ok .startW := by decide

theorem witness_FetchWordRunsNext :
    decodeTableWord 8 0x02 = some .startW ∧ decodeTableWord 8 0x00 = some (.idle .narrow) ∧
      decodeTableWord 8 0x08 = some .finN ∧ decodeTableWord 16 0x43 = some (.rre .two 16) := by decide

theorem witness_IdleChangesNothing :
    State.reset.inbox = [] ∧ State.reset.port.pending = none ∧ State.reset.busy = false ∧
      State.reset.ph = 0 := by decide

theorem witness_ReservedCodesAreStuck_phase_9 :
    let s := { startedP3 with ph := 9 }
    CoresTurn s ∧ s.port.pending = none ∧ 9 ≤ s.ph.toNat := by decide
theorem witness_ReservedCodesAreStuck_phase_15 :
    let s := { hosted .core with ph := 15 }
    CoresTurn s ∧ s.port.pending = none ∧ 9 ≤ s.ph.toNat := by decide
theorem witness_ReservedCodesAreStuck_header :
    let s := State.reset.withFetchWord 16 0x42
    CoresTurn s ∧ s.port.pending = some 0x042 ∧ (0x042 : BitVec 10) ≠ 0x000 ∧
      (0x042 : BitVec 10) ≠ 0x002 ∧ (0x042 : BitVec 10) ≠ 0x041 ∧
      (0x042 : BitVec 10) ≠ 0x043 := by decide

theorem witness_ResetClearsEveryRegister :
    ({ startedP3 with inbox := [.reset] } : State).inbox = .reset :: [] := by decide

theorem witness_StatusWordLayout :
    (hosted (.wr 1 16 0xFFFF)).inbox = .wr 1 16 0xFFFF :: [] := by decide

theorem witness_ReadableRegistersReadBack :
    (hosted (.rd 1 16)).inbox = .rd 1 16 :: [] ∧ (hosted (.rd 2 8)).inbox = .rd 2 8 :: [] ∧
      (hosted (.rd 3 32)).inbox = .rd 3 32 :: [] ∧
      (hosted (.rd 4 32)).inbox = .rd 4 32 :: [] ∧ (hosted (.rd 48 8)).inbox = .rd (48 + 0) 8 :: [] ∧
      (hosted (.rd 63 8)).inbox = .rd (48 + 15) 8 :: [] := by decide

theorem witness_WriteOnlyReadOnlyReserved_reads :
    (hosted (.rd 0 8)).inbox = .rd 0 8 :: [] ∧ (hosted (.rd 16 8)).inbox = .rd (16 + 0) 8 :: [] ∧
      (hosted (.rd 35 8)).inbox = .rd (16 + 19) 8 :: [] := by decide
theorem witness_WriteOnlyReadOnlyReserved_reserved : ∀ n ∈ [5, 15, 36, 47, 64],
    ((5 ≤ n ∧ n ≤ 15) ∨ (36 ≤ n ∧ n ≤ 47) ∨ 64 ≤ n) ∧
      (hosted (.rd n 32)).inbox = .rd n 32 :: [] ∧
      (hosted (.wr n 32 7)).inbox = .wr n 32 7 :: [] := by decide
theorem witness_WriteOnlyReadOnlyReserved_writes :
    (hosted (.wr 1 16 1)).inbox = .wr 1 16 1 :: [] ∧
      (hosted (.wr 48 8 1)).inbox = .wr (48 + 0) 8 1 :: [] ∧
      (hosted (.wr 63 8 1)).inbox = .wr (48 + 15) 8 1 :: [] := by decide

theorem witness_IdleWritesTakeEffect :
    (hosted (.wr 2 8 0x10A)).busy = false ∧ (hosted (.wr 2 8 0x10A)).inbox = .wr 2 8 0x10A :: [] ∧
      (hosted (.wr 3 32 9)).inbox = .wr 3 32 9 :: [] ∧ (hosted (.wr 4 32 9)).inbox = .wr 4 32 9 :: [] ∧
      (hosted (.wr 16 8 9)).inbox = .wr (16 + 0) 8 9 :: [] ∧
      (hosted (.wr 35 8 9)).inbox = .wr (16 + 19) 8 9 :: [] := by decide

theorem witness_BusyWritesAreDropped :
    let s := { startedP3 with inbox := [.wr 0 8 0x01] }
    s.busy = true ∧ (hostReg 0).wholeAccess 8 = true ∧ s.inbox = .wr 0 8 0x01 :: [] := by decide

theorem witness_OtherWidthsAreRefused :
    (hostReg 3).width = some 32 ∧ (16 : Nat) ≠ 32 ∧
      (hosted (.wr 3 16 9)).inbox = .wr 3 16 9 :: [] ∧ (hosted (.rd 3 16)).inbox = .rd 3 16 :: [] := by
  decide

theorem witness_MessageBytePlacement_idle :
    (hosted (.place 0xFFFFFFFF 7)).inbox = .place 0xFFFFFFFF 7 :: [] ∧
      (hosted (.place 0xFFFFFFFF 7)).busy = false := by decide
theorem witness_MessageBytePlacement_beyond_length :
    let s := { startedP3 with inbox := [.place 9 7] }
    s.busy = true ∧ (s.len.toNat + 7) / 8 ≤ (9 : BitVec 32).toNat := by decide
theorem witness_MessageBytePlacement_same_byte :
    let s := { startedP3 with inbox := [.place 8 0x9F] }
    s.inbox = .place 8 0x9F :: [] ∧ s.busy = true ∧ s.msg.get? (8 : BitVec 32).toNat = some 0x9F := by
  decide
theorem witness_MessageBytePlacement_changed :
    let s := { startedP3 with inbox := [.place 8 7] }
    s.inbox = .place 8 7 :: [] ∧ s.busy = true ∧ (8 : BitVec 32).toNat < (s.len.toNat + 7) / 8 ∧
      s.msg.get? (8 : BitVec 32).toNat ≠ some 7 := by decide

theorem witness_StartResult_accepted :
    let s := declared 65535 8192 10
    let w := declared 0 0 20
    s.busy = false ∧ s.msglen.toNat ≤ 65535 ∧ (s.msglen.toNat + 7) / 8 ≤ s.msgsz.toNat ∧
      s.keysz = 10 ∧ w.busy = false ∧ w.msglen.toNat ≤ 65535 ∧
      (w.msglen.toNat + 7) / 8 ≤ w.msgsz.toNat ∧ w.keysz = 20 := by decide

theorem witness_StartResult_rejected :
    (declared 65536 8192 10).busy = false ∧ 65535 < (declared 65536 8192 10).msglen.toNat ∧
      (declared 65535 0 9).msglen.toNat ≤ 65535 ∧ (declared 65535 0 9).keysz ≠ 10 ∧
      (declared 65535 8191 20).msglen.toNat ≤ 65535 ∧ (declared 65535 8191 20).keysz = 20 ∧
      (declared 65535 8191 20).msgsz.toNat < ((declared 65535 8191 20).msglen.toNat + 7) / 8 := by
  decide

theorem witness_ReservedCommandRaises : ∀ c ∈ [(0x00 : BitVec 8), 0x03, 0xFF],
    (hosted (.wr 0 8 (c.setWidth 32))).inbox = .wr 0 8 (c.setWidth 32) :: [] ∧
      (hosted (.wr 0 8 (c.setWidth 32))).busy = false ∧ c ≠ 0x01 ∧ c ≠ 0x02 := by
  intro c hc
  simp only [List.mem_cons, List.not_mem_nil, or_false] at hc
  rcases hc with rfl | rfl | rfl <;> exact ⟨rfl, rfl, by decide, by decide⟩

theorem witness_StartDroppedWhileBusy : startedP3.busy = true := by decide

theorem heldP3 (s : State) (hm : s.msg = msgP3) (hs : s.msgsz = 9) (n : Nat) (hn : n ≤ 9) :
    MessageHeld s 0 n bytesP3 := by
  intro j hj
  rw [hm, hs]
  have h9 : j < 9 := by omega
  revert j
  have key : ∀ j, j < 9 → 0 + j < (9 : BitVec 32).toNat ∧
      Memory.get? msgP3 (0 + j) = some (bytesP3 j) := by decide
  exact fun j _ h9 => key j h9

/-- For AbsfNarrowResult, AbsfWideResult and the absorbing clause of PhasesLogTheirRequests. -/
theorem witness_AbsfResult_absorbs :
    64 ≤ (absorbing 64 2).rem.toNat ∧
      MessageHeld (absorbing 64 2) (absorbing 64 2).ptr.toNat 8 bytesP3 :=
  ⟨by decide, heldP3 _ rfl rfl 8 (by decide)⟩
theorem witness_AbsfResult_moves_on : (absorbing 63 2).rem.toNat < 64 := by decide

/-- For AbspNarrowResult, AbspWideResult and TailLogsItsReads, as is the next. -/
theorem witness_AbspResult_empty :
    (absorbing 0 3).rem.toNat < 64 ∧ MessageHeld (absorbing 0 3) (absorbing 0 3).ptr.toNat
      (((absorbing 0 3).rem.toNat + 7) / 8) bytesP3 :=
  ⟨by decide, heldP3 _ rfl rfl _ (by decide)⟩
theorem witness_AbspResult_63_bits :
    (absorbing 63 3).rem.toNat < 64 ∧ MessageHeld (absorbing 63 3) (absorbing 63 3).ptr.toNat
      (((absorbing 63 3).rem.toNat + 7) / 8) bytesP3 :=
  ⟨by decide, heldP3 _ rfl rfl _ (by decide)⟩

/-- Two messages that differ in the seven bits beyond the length only (95_test_vectors.md 2.4). -/
theorem witness_BitsBeyondLengthIgnored :
    let s := atP2 tagP2 #v[0, 0, 0, 0, 0, 0, 0, 0, 0, 1] 0 0 9 0 3
    let msg' : Memory := [(0, 0xAB), (1, 0x80)]
    let m (j : Nat) : Byte := (s.msg.get? j).getD 0
    let m' (j : Nat) : Byte := (Memory.get? msg' j).getD 0
    s.rem.toNat < 64 ∧ MessageHeld s s.ptr.toNat ((s.rem.toNat + 7) / 8) m ∧
      MessageHeld { s with msg := msg' } s.ptr.toNat ((s.rem.toNat + 7) / 8) m' ∧
      (∀ b, b < s.rem.toNat → messageBit m b = messageBit m' b) ∧ m 1 ≠ m' 1 := by
  unfold MessageHeld
  decide

/-- The first byte and the last byte of `ABSF`, and of the tail of 63 bits, missing with all before them held. -/
theorem witness_MessageReadStops :
    let s (rem : BitVec 16) (msgsz : BitVec 32) (held : Nat) : State :=
      { State.reset with rem := rem, msgsz := msgsz, msg := msgP3.take held }
    let first (s : State) (j : Nat) : Prop := ∀ k, k < j →
      s.ptr.toNat + k < s.msgsz.toNat ∧ (s.msg.get? (s.ptr.toNat + k)).isSome = true
    (first (s 64 0 9) 0 ∧ (s 64 0 9).msgsz.toNat ≤ (s 64 0 9).ptr.toNat + 0) ∧
    (first (s 64 7 9) 7 ∧ (s 64 7 9).msgsz.toNat ≤ (s 64 7 9).ptr.toNat + 7) ∧
    (first (s 64 8 7) 7 ∧ (s 64 8 7).ptr.toNat + 7 < (s 64 8 7).msgsz.toNat ∧
      (s 64 8 7).msg.get? ((s 64 8 7).ptr.toNat + 7) = none) ∧
    (first (s 1 0 9) 0 ∧ 0 < ((s 1 0 9).rem.toNat + 7) / 8 ∧
      (s 1 0 9).msgsz.toNat ≤ (s 1 0 9).ptr.toNat + 0) ∧
    (first (s 63 7 9) 7 ∧ 7 < ((s 63 7 9).rem.toNat + 7) / 8 ∧
      (s 63 7 9).msgsz.toNat ≤ (s 63 7 9).ptr.toNat + 7) ∧
    (first (s 63 8 7) 7 ∧ (s 63 8 7).ptr.toNat + 7 < (s 63 8 7).msgsz.toNat ∧
      (s 63 8 7).msg.get? ((s 63 8 7).ptr.toNat + 7) = none) ∧
    (64 ≤ (s 64 0 9).rem.toNat ∧ (s 63 8 7).rem.toNat < 64) := by decide

theorem witness_EncodingMovesCursor :
    (cursorAt 7 7 65535).i.toNat < 8 ∧ (cursorAt 0 0 0).i.toNat < 8 := by decide

theorem plainBit_cursorAt (i : BitVec 4) (nl : BitVec 3) (len : BitVec 16) (l : Lane) (q : Nat) :
    plainBit (cursorAt i nl len) l q = false := by
  cases l <;> simp [plainBit, plainByte, cursorAt, mid]

/-- 56 bits used and 7 to come: the last place inside the block. -/
theorem witness_EncodingAppendsBits :
    let s := cursorAt 7 0 80
    s.i.toNat < 8 ∧ 8 * s.i.toNat + s.nl.toNat + numLen (encodingPhase true .wide s).2.1 < 64 ∧
      ∀ l, LaneUsed .wide l → ∀ q, 8 * s.i.toNat + s.nl.toNat ≤ q → q < 64 →
        plainBit s l q = false := by
  exact ⟨by decide, by decide, fun l _ q _ _ => plainBit_cursorAt _ _ _ l q⟩

/-- 57 bits used and 7 to come: the block is filled exactly. -/
theorem witness_EncodingCrossesBlock :
    let s := cursorAt 7 1 80
    s.i.toNat < 8 ∧ 64 ≤ 8 * s.i.toNat + s.nl.toNat + numLen (encodingPhase true .wide s).2.1 ∧
      ∀ l, LaneUsed .wide l → ∀ q, 8 * s.i.toNat + s.nl.toNat ≤ q → q < 64 →
        plainBit s l q = false := by
  exact ⟨by decide, by decide, fun l _ q _ _ => plainBit_cursorAt _ _ _ l q⟩

theorem witness_EmptyLengthEmitsNothing : (cursorAt 7 7 0).i.toNat < 8 ∧ (cursorAt 7 7 0).len = 0 := by
  decide

theorem witness_NumLenIsMinimalWidth :
    (80 : Nat) < 2 ^ 7 ∧ numLen 80 = 7 ∧ 0 < 80 ∧ (127 : Nat) < 2 ^ 7 ∧ (0 : Nat) < 2 ^ 0 := by decide

theorem witness_CursorBeyondBlockStops :
    8 ≤ (cursorAt 8 0 9).i.toNat ∧ 8 ≤ (cursorAt 15 0 9).i.toNat := by decide

theorem witness_PadResult : (cursorAt 7 7 9).i.toNat < 8 ∧ (cursorAt 0 0 9).i.toNat < 8 := by decide

theorem witness_LaneExchange : (0 : Nat) < 4 ∧ (3 : Nat) < 4 := by decide

theorem witness_OperationsLeaveHostInputs : ∃ t, exec .flrW startedP3 = .next t := ⟨_, rfl⟩

theorem witness_OnlyCommandsWriteVarAndErr :
    (∃ t, exec .initW startedP3 = .next t) ∧ Instr.initW ≠ .startN ∧ Instr.initW ≠ .startW :=
  ⟨⟨_, rfl⟩, by decide, by decide⟩

/-- A key that differs from program P2's in byte 10 only. -/
theorem witness_NarrowIgnoresLaneTwo :
    (∀ j, j < 10 → (startedP2.key.put 10 1).at j = startedP2.key.at j) ∧
      (∃ t, exec .initN startedP2 = .next t) ∧ startedP2.key.put 10 1 ≠ startedP2.key :=
  ⟨by decide, ⟨_, rfl⟩, by decide⟩

theorem witness_BusyFallsOnlyAtFinOrReset_fin :
    startedP2.busy = true ∧ ∃ t, step { startedP2 with ph := 8 } = .next t ∧ t.busy = false :=
  ⟨by decide, _, rfl, rfl⟩
theorem witness_BusyFallsOnlyAtFinOrReset_reset :
    ∃ t, step { startedP2 with inbox := [.reset] } = .next t ∧ t.busy = false := ⟨_, rfl, rfl⟩

theorem witness_BusyRisesOnlyByAcceptedStart :
    (declared 9 2 10).busy = false ∧
      ∃ t, step { declared 9 2 10 with inbox := [.wr 0 8 0x01] } = .next t ∧ t.busy = true :=
  ⟨by decide, _, rfl, rfl⟩

/-- Program P2 right after its START meets the invariant. -/
theorem startedP2_inv : Inv startedP2 where
  memory := by decide
  port := by decide
  phase := by decide
  busy := by decide
  err := by decide
  done := by decide
  out := by decide
  outNarrow := by intro _ j h1 h2; interval_cases j <;> decide
  laneTwo := by decide
  scratch := by decide
  idleLen := by decide
  accepted := by decide
  salt := fun h => absurd h (by decide)
  absorbing := by decide
  tail := by decide
  absorbed := by decide
  cursor := by decide
  padded := by decide
  flushed := by decide
  clean := fun h => absurd h (by decide)
  openByte := fun h => absurd h (by decide)

/-- Program P3 right after its START meets the invariant. -/
theorem startedP3_inv : Inv startedP3 where
  memory := by decide
  port := by decide
  phase := by decide
  busy := by decide
  err := by decide
  done := by decide
  out := by decide
  outNarrow := fun h => absurd h (by decide)
  laneTwo := by decide
  scratch := by decide
  idleLen := by decide
  accepted := by decide
  salt := fun h => absurd h (by decide)
  absorbing := by decide
  tail := by decide
  absorbed := by decide
  cursor := by decide
  padded := by decide
  flushed := by decide
  clean := fun h => absurd h (by decide)
  openByte := fun h => absurd h (by decide)

/-- Program P2 with the pad bit to come: a state with an open byte meets the invariant. -/
theorem padding_inv : Inv (atP2 tagP2 #v[0x8F, 0xA6, 0, 0, 0, 0, 0, 0, 0, 1] 2 4 0 2 6) where
  memory := by decide
  port := by decide
  phase := by decide
  busy := by decide
  err := by decide
  done := by decide
  out := by decide
  outNarrow := by intro _ j h1 h2; interval_cases j <;> decide
  laneTwo := by decide
  scratch := fun h => absurd h (by decide)
  idleLen := by decide
  accepted := by decide
  salt := by
    intro _ l hl
    cases l
    · decide
    · exact absurd hl (by decide)
  absorbing := fun h => absurd h (by decide)
  tail := by decide
  absorbed := by decide
  cursor := by decide
  padded := by decide
  flushed := by decide
  clean := by
    intro _ l hl j hj h8
    have h3 : 3 ≤ j := hj
    cases l
    · interval_cases j <;> decide
    · exact absurd hl (by decide)
  openByte := by
    intro _ l hl
    cases l
    · decide
    · exact absurd hl (by decide)

theorem witness_StepKeepsInvariant : Inv startedP2 ∧ ∃ t, step startedP2 = .next t :=
  ⟨startedP2_inv, _, rfl⟩

theorem witness_InvariantStepsDoNotFault :
    Inv (atP2 tagP2 #v[0x8F, 0xA6, 0, 0, 0, 0, 0, 0, 0, 1] 2 4 0 2 6) := padding_inv

/-- Turns of the host between the core's: dropped writes, reads, bytes outside the message and equal ones, a wait. -/
def busyTurns : List HostEvent :=
  [.wr 0 8 0x02, .core, .rd 1 16, .wr 3 32 5, .place 9 7, .core, .place 1 0xB7, .rdIfDone 48, .wait]

/-- Also the witness of NarrowTagIsClosedForm. -/
theorem witness_InvocationEnds_narrow :
    let s := { startedP2 with inbox := busyTurns }
    Inv s ∧ s.ph = 1 ∧ s.var = .narrow ∧ (∀ e ∈ s.inbox, e.undisturbing s = true) ∧
      MessageHeld s 0 ((s.len.toNat + 7) / 8) (fun j => (s.msg.get? j).getD 0) := by
  refine ⟨{ startedP2_inv with }, by decide, by decide, by decide, ?_⟩
  unfold MessageHeld
  decide

/-- With no turn of the host at all. -/
theorem witness_InvocationEnds_alone :
    Inv startedP2 ∧ startedP2.ph = 1 ∧ ∀ e ∈ startedP2.inbox, e.undisturbing startedP2 = true :=
  ⟨startedP2_inv, by decide, by decide⟩

/-- Also the witness of WideTagIsClosedForm. -/
theorem witness_InvocationEnds_wide :
    let s := { startedP3 with inbox := [.wr 16 8 0xFF, .core, .rd 48 8, .core, .rd 1 16] }
    Inv s ∧ s.ph = 1 ∧ s.var = .wide ∧ (∀ e ∈ s.inbox, e.undisturbing s = true) ∧
      MessageHeld s 0 ((s.len.toNat + 7) / 8) bytesP3 :=
  ⟨{ startedP3_inv with }, by decide, by decide, by decide, heldP3 _ rfl rfl _ (by decide)⟩

/-- Of `busyTurns` two are the core's before the wait, and from the wait on every turn is. -/
theorem test_coreTurns :
    coreTurns busyTurns 2 = 1 ∧ coreTurns busyTurns 8 = 2 ∧ coreTurns busyTurns 14 = 8 := by decide

/-- Messages of one bit that differ beyond the length. -/
theorem witness_PaddedStreamInjective :
    let m (_ : Nat) : Byte := 0x80
    let m' (_ : Nat) : Byte := 0xFF
    (1 : Nat) ≤ 65535 ∧ blockCount 1 = blockCount 1 ∧
      (∀ b, b < blockCount 1 → plainBlock m 1 b = plainBlock m' 1 b) := by decide

end Sys2Proof.Tests
end

/-! # Scope of the core (00_scope.md): whose turn a step is, and what no operation writes -/

namespace Sys2Proof.Machine

/-! ## The turn a step takes -/

section Turn

variable {s : State} {i : Instr}

/-- The phase word decodes to the operation that `VAR` and `PH` select (R96). -/
theorem decode_phaseWord (s : State) : decode (.phase s.phaseWord) = phaseOp s.var s.ph := by
  simp only [decode, decodePhase, State.phaseWord, phaseWordVar_phaseWord, phaseWordPh_phaseWord]

theorem decode_phaseWord_idle (h : s.ph = 0) :
    decode (.phase s.phaseWord) = .ok (.idle s.var) := by
  rw [decode_phaseWord, h]
  rfl

@[simp] theorem exec_idle (v : Variant) (s : State) : exec (.idle v) s = .next s := rfl

/-- When the host has no turn or leaves it, the step is the core's turn, taken off the inbox. -/
theorem step_coresTurn (h : CoresTurn s) : step s = coreTurn { s with inbox := s.inbox.tail } := by
  cases hi : s.inbox with
  | nil => rw [step_nil s hi, List.tail_nil, ← hi]
  | cons e rest =>
    obtain rfl : e = .core := by simpa [CoresTurn, hi] using h
    rw [step_cons s .core rest hi]
    rfl

/-- In `IDLE` the sequencer's turn changes nothing, whatever `BUSY` is. -/
theorem sequencerTurn_idle (h : s.ph = 0) : sequencerTurn s = .next s := by
  simp [sequencerTurn, decode_phaseWord_idle h]

/-- The sequencer runs the phase word's operation while `BUSY = 1` or `PH = 0`. -/
theorem sequencerTurn_decoded (hrun : s.busy = true ∨ s.ph = 0)
    (hd : decode (.phase s.phaseWord) = .ok i) : sequencerTurn s = exec i s := by
  rcases hrun with hbusy | hidle
  · simp [sequencerTurn, hd, hbusy]
  · obtain rfl : Instr.idle s.var = i := Except.ok.inj ((decode_phaseWord_idle hidle).symm.trans hd)
    rw [sequencerTurn_idle hidle, exec_idle]

/-- The adapter's turn runs the operation its header decodes to. -/
theorem adapterTurn_decoded {header : BitVec 10} (hd : decode (.header header) = .ok i) :
    adapterTurn header s = exec i s := by
  simp [adapterTurn, hd]

/-- While `BUSY = 0` a write of the whole of `CMD` is a command, the low byte of the data. -/
theorem hostWrite_command (d : BitVec 32) (hbusy : s.busy = false) :
    hostWrite 0 8 d s = commandWrite (d.setWidth 8) s := by
  have hcmd : hostReg 0 = .cmd := rfl
  simp [hostWrite, hcmd, hbusy, HostReg.wholeAccess, HostReg.width]

/-- A command value runs the operation it decodes to. -/
theorem commandWrite_decoded {c : BitVec 8} (hd : decode (.command c) = .ok i) :
    commandWrite c s = exec i s := by
  simp [commandWrite, hd]

end Turn

/-! ## What the phase operations leave alone -/

/-- `t` is `s` but for the registers of an invocation, the port and the log: the host's registers, the message
space, the host's turns, `VAR` and `ERR` are as before. -/
def PhaseFrame (s t : State) : Prop :=
  t = { s with
    tag1 := t.tag1, tag2 := t.tag2, blk1 := t.blk1, blk2 := t.blk2, ph := t.ph, i := t.i, nl := t.nl
    len := t.len, rem := t.rem, ptr := t.ptr, busy := t.busy, done := t.done, out := t.out
    port := t.port, history := t.history }

section PhaseFrame

variable {C : Config} {v : Variant} {s t : State}

theorem PhaseFrame.trans {a b c : State} (h1 : PhaseFrame a b) (h2 : PhaseFrame b c) :
    PhaseFrame a c := by
  unfold PhaseFrame at *
  rw [h2, h1]

/-- What writes only the lane registers and the cursor is within a phase operation's reach. -/
theorem LaneFrame.phaseFrame (h : LaneFrame s t) : PhaseFrame s t := by
  unfold LaneFrame at h
  unfold PhaseFrame
  rw [h]

theorem absorbBytes_frame (v : Variant) (n : Nat) (s : State) : LaneFrame s (absorbBytes v n s) := by
  cases v <;> rfl

theorem noteMsgReads_frame (a n : Nat) (s : State) : LaneFrame s (noteMsgReads a n s) := rfl

theorem emit_frame {V : BitVec 16} (h : emit C v V s = .next t) : LaneFrame s t := by
  rcases emit_cases C s v V with ⟨-, hnext⟩ | ⟨-, hstop⟩
  · cases hnext.symm.trans h
    exact emitBits_frame C s v _ _
  · cases hstop.symm.trans h

theorem padBit_frame (h : padBit v s = .next t) : LaneFrame s t := by
  rcases padBit_cases s v with ⟨-, hnext⟩ | ⟨-, hstop⟩
  · cases hnext.symm.trans h
    exact (orBlkByte_frame s v _ _).trans (advanceByte_frame _ v)
  · cases hstop.symm.trans h

theorem initPhase_frame (h : initPhase C v s = .next t) : PhaseFrame s t := by
  cases h
  cases v <;> rfl

theorem absfPhase_frame (h : absfPhase C v s = .next t) : PhaseFrame s t := by
  unfold absfPhase at h
  split at h
  · obtain ⟨_, -, hnext⟩ := (andThen_eq_next _ _ _).mp h
    cases hnext
    have habsorb := (absorbBytes_frame v 8 s).trans (noteMsgReads_frame s.ptr.toNat 8 _)
    exact (habsorb.trans (permute_frame C _ v)).phaseFrame.trans rfl
  · cases h
    rfl

theorem abspPhase_frame (h : abspPhase v s = .next t) : PhaseFrame s t := by
  unfold abspPhase at h
  split at h
  · obtain ⟨_, -, hnext⟩ := (andThen_eq_next _ _ _).mp h
    cases hnext
    have habsorb := (absorbBytes_frame v (s.rem.toNat / 8) s).trans
      (noteMsgReads_frame s.ptr.toNat (bytesOfBits s.rem.toNat) _)
    split
    · exact habsorb.phaseFrame.trans rfl
    · exact (habsorb.trans (writeBlkByte_frame _ v _ _)).phaseFrame.trans rfl
  · cases h

/-- `ENCM` and `ENCK`: an `EMIT`, then the next phase. -/
theorem emit_then_phase_frame {V : BitVec 16} {next : BitVec 4}
    (h : (andThen (emit C v V s) fun u => .next { u with ph := next }) = .next t) :
    PhaseFrame s t := by
  obtain ⟨u, hemit, hnext⟩ := (andThen_eq_next _ _ _).mp h
  cases hnext
  exact (emit_frame hemit).phaseFrame.trans rfl

theorem padPhase_frame (h : padPhase v s = .next t) : PhaseFrame s t := by
  obtain ⟨u, hpad, hnext⟩ := (andThen_eq_next _ _ _).mp h
  cases hnext
  exact (padBit_frame hpad).phaseFrame.trans rfl

theorem flrPhase_frame (h : flrPhase C v s = .next t) : PhaseFrame s t := by
  cases h
  exact ((fill_frame s v).trans (permute_frame C _ v)).phaseFrame.trans rfl

theorem finPhase_frame (h : finPhase C v s = .next t) : PhaseFrame s t := by
  cases h
  cases v <;> rfl

/-- Every operation but the two commands leaves the host's inputs, `VAR` and `ERR` alone. -/
theorem exec_frame {i : Instr} (h : exec i s = .next t) (hN : i ≠ .startN) (hW : i ≠ .startW) :
    PhaseFrame s t := by
  cases i with
  | startN => exact absurd rfl hN
  | startW => exact absurd rfl hW
  | idle _ => cases h; rfl
  | initN | initW => exact initPhase_frame h
  | absfN | absfW => exact absfPhase_frame h
  | abspN | abspW => exact abspPhase_frame h
  | encmN | encmW | enckN | enckW => exact emit_then_phase_frame h
  | padN | padW => exact padPhase_frame h
  | flrN | flrW => exact flrPhase_frame h
  | finN | finW => exact finPhase_frame h
  | fe _ _ | rre _ _ => cases h; rfl

end PhaseFrame

/-! ## What no operation writes -/

/-- The key, the declared sizes, the message space and the host's turns are the same in both states. -/
def HostInputsKept (s t : State) : Prop :=
  t.key = s.key ∧ t.keysz = s.keysz ∧ t.msglen = s.msglen ∧ t.msgsz = s.msgsz ∧
    t.msg = s.msg ∧ t.inbox = s.inbox

theorem HostInputsKept.refl (s : State) : HostInputsKept s s := ⟨rfl, rfl, rfl, rfl, rfl, rfl⟩

theorem PhaseFrame.hostInputsKept {s t : State} (h : PhaseFrame s t) : HostInputsKept s t := by
  unfold PhaseFrame at h
  rw [h]
  exact HostInputsKept.refl s

/-- The three checks of START read the host's inputs and write none, whichever of them fails (R241). -/
theorem startIdle_hostInputsKept (v : Variant) (s : State) : HostInputsKept s (startIdle v s) := by
  unfold startIdle
  simp only [raise_eq]
  split_ifs <;> exact HostInputsKept.refl s

theorem startCommand_hostInputsKept {v : Variant} {s t : State}
    (h : startCommand v s = .next t) : HostInputsKept s t := by
  unfold startCommand at h
  split at h <;> cases h
  · exact HostInputsKept.refl s
  · exact startIdle_hostInputsKept v s

/-! ## The statements -/

/-- Settles O43: a START writes none of them, and every other operation is within `PhaseFrame`. -/
theorem operationsLeaveHostInputs : Obligations.OperationsLeaveHostInputs := by
  intro i s t h
  by_cases hN : i = .startN
  · subst hN
    exact startCommand_hostInputsKept h
  by_cases hW : i = .startW
  · subst hW
    exact startCommand_hostInputsKept h
  exact (exec_frame h hN hW).hostInputsKept

/-- Settles O4: the sequencer's turn, the adapter's turn, the host's write of `CMD`. -/
theorem stepRunsDecodedOperation : Obligations.StepRunsDecodedOperation := by
  refine ⟨fun s i hturn hport hrun hd => ?_, fun s header i hturn hport hd => ?_,
    fun s d rest i hinbox hbusy hd => ?_⟩
  · calc step s = coreTurn { s with inbox := s.inbox.tail } := step_coresTurn hturn
      _ = sequencerTurn { s with inbox := s.inbox.tail } := coreTurn_sequencer _ hport
      _ = exec i { s with inbox := s.inbox.tail } := sequencerTurn_decoded hrun hd
  · calc step s = coreTurn { s with inbox := s.inbox.tail } := step_coresTurn hturn
      _ = adapterTurn header { s with inbox := s.inbox.tail } := coreTurn_adapter _ header hport
      _ = exec i { s with inbox := s.inbox.tail } := adapterTurn_decoded hd
  · calc step s = hostTurn (.wr 0 8 d) { s with inbox := rest } := step_cons s _ rest hinbox
      _ = commandWrite (d.setWidth 8) { s with inbox := rest } := hostWrite_command d hbusy
      _ = exec i { s with inbox := rest } := commandWrite_decoded hd

/-- Settles O6: an idle core's step is the sequencer's turn in `IDLE`. -/
theorem idleChangesNothing : Obligations.IdleChangesNothing := by
  refine ⟨exec_idle, fun s hinbox hport _ hidle => ?_⟩
  rw [step_nil s hinbox, coreTurn_sequencer s hport, sequencerTurn_idle hidle]

/-- Settles O21: the chip takes both initial values from the configuration's defaults (log 6). -/
theorem initialValueLiterals : Obligations.InitialValueLiterals := by
  constructor <;> rfl

end Sys2Proof.Machine

/-! # State of the core (10_state.md): reset, the flags, and the invariant between two steps -/

namespace Sys2Proof.Machine

/-! ## What a phase operation before `FIN` leaves alone -/

/-- `t` is `s` but for the lane registers, the cursor, the counters, `PH`, the port and the log: what a phase
operation may write before `FIN`, so `BUSY`, `DONE`, `LEN` and `OUT` are as before too. -/
def RunFrame (s t : State) : Prop :=
  t = { s with
    tag1 := t.tag1, tag2 := t.tag2, blk1 := t.blk1, blk2 := t.blk2, ph := t.ph, i := t.i, nl := t.nl
    rem := t.rem, ptr := t.ptr, port := t.port, history := t.history }

section RunFrame

variable {C : Config} {v : Variant} {s t : State}

theorem RunFrame.trans {a b c : State} (h1 : RunFrame a b) (h2 : RunFrame b c) : RunFrame a c := by
  unfold RunFrame at *
  rw [h2, h1]

theorem LaneFrame.runFrame (h : LaneFrame s t) : RunFrame s t := by
  unfold LaneFrame at h
  unfold RunFrame
  rw [h]

theorem RunFrame.busy_eq (h : RunFrame s t) : t.busy = s.busy := by
  unfold RunFrame at h
  rw [h]

/-- The block `ABSF` leaves to the permutation call. -/
def absorbedFull (v : Variant) (s : State) : State :=
  noteMsgReads s.ptr.toNat 8 (absorbBytes v 8 s)

/-- The open byte of a tail whose last byte is partial, none otherwise (R165). -/
def openTail (v : Variant) (nb r : Nat) (s : State) : State :=
  if r = 0 then s else writeBlkByte v nb (msgByte s (s.ptr.toNat + nb) &&& tailMask r) s

/-- The block `ABSP` leaves to the length encoder. -/
def absorbedTail (v : Variant) (s : State) : State :=
  openTail v (s.rem.toNat / 8) (s.rem.toNat % 8)
    (noteMsgReads s.ptr.toNat (bytesOfBits s.rem.toNat) (absorbBytes v (s.rem.toNat / 8) s))

theorem absorbedFull_frame (v : Variant) (s : State) : LaneFrame s (absorbedFull v s) :=
  (absorbBytes_frame v 8 s).trans (noteMsgReads_frame s.ptr.toNat 8 _)

theorem openTail_frame (v : Variant) (nb r : Nat) (s : State) :
    LaneFrame s (openTail v nb r s) := by
  unfold openTail
  split
  · exact LaneFrame.refl s
  · exact writeBlkByte_frame s v _ _

theorem absorbedTail_frame (v : Variant) (s : State) : LaneFrame s (absorbedTail v s) :=
  ((absorbBytes_frame v _ s).trans (noteMsgReads_frame _ _ _)).trans (openTail_frame v _ _ _)

/-- What `ABSF` can do: absorb a block and stay, or only move on. -/
theorem absfPhase_next (h : absfPhase C v s = .next t) :
    (64 ≤ s.rem.toNat ∧ t = { permute C v (absorbedFull v s) with
      ptr := s.ptr + 8, rem := s.rem - 64, ph := phAbsf }) ∨
    (s.rem.toNat < 64 ∧ t = { s with ph := phAbsp }) := by
  unfold absfPhase at h
  split at h
  · rename_i hrem
    obtain ⟨_, -, hnext⟩ := (andThen_eq_next _ _ _).mp h
    cases hnext
    have hframe : LaneFrame s (permute C v (absorbedFull v s)) :=
      (absorbedFull_frame v s).trans (permute_frame C _ v)
    unfold LaneFrame at hframe
    refine .inl ⟨hrem, ?_⟩
    change { permute C v (absorbedFull v s) with
      ptr := (permute C v (absorbedFull v s)).ptr + 8
      rem := (permute C v (absorbedFull v s)).rem - 64, ph := phAbsf } = _
    rw [show (permute C v (absorbedFull v s)).ptr = s.ptr by rw [hframe],
      show (permute C v (absorbedFull v s)).rem = s.rem by rw [hframe]]
  · rename_i hrem
    cases h
    exact .inr ⟨Nat.not_le.mp hrem, rfl⟩

/-- What `ABSP` can do: absorb the tail and leave its last byte open. -/
theorem abspPhase_next (h : abspPhase v s = .next t) :
    s.rem.toNat < 64 ∧ t = { absorbedTail v s with
      i := BitVec.ofNat 4 (s.rem.toNat / 8), nl := BitVec.ofNat 3 (s.rem.toNat % 8)
      ptr := s.ptr + BitVec.ofNat 16 (bytesOfBits s.rem.toNat), rem := 0, ph := phEncm } := by
  unfold abspPhase at h
  split at h
  · rename_i hrem
    obtain ⟨_, -, hnext⟩ := (andThen_eq_next _ _ _).mp h
    cases hnext
    have hframe := absorbedTail_frame v s
    unfold LaneFrame at hframe
    refine ⟨hrem, ?_⟩
    change { absorbedTail v s with
      i := BitVec.ofNat 4 (s.rem.toNat / 8), nl := BitVec.ofNat 3 (s.rem.toNat % 8)
      ptr := (absorbedTail v s).ptr + BitVec.ofNat 16 (bytesOfBits s.rem.toNat)
      rem := 0, ph := phEncm } = _
    rw [show (absorbedTail v s).ptr = s.ptr by rw [hframe]]
  · cases h

/-- What `ENCM` and `ENCK` can do: emit the value inside the block, then the next phase. -/
theorem emit_then_phase_next {V : BitVec 16} {next : BitVec 4}
    (h : (andThen (emit C v V s) fun u => .next { u with ph := next }) = .next t) :
    s.i.toNat < 8 ∧ t = { emitBits C v V.toNat (numLen V.toNat) s with ph := next } := by
  obtain ⟨u, hemit, hnext⟩ := (andThen_eq_next _ _ _).mp h
  cases hnext
  rcases emit_cases C s v V with ⟨hi, heq⟩ | ⟨-, hstop⟩
  · cases heq.symm.trans hemit
    exact ⟨hi, rfl⟩
  · cases hstop.symm.trans hemit

/-- What `PAD` can do: the pad bit inside the block, the byte closed. -/
theorem padPhase_next (h : padPhase v s = .next t) :
    s.i.toNat < 8 ∧
      t = { advanceByte v (orBlkByte v s.i.toNat (padMask s.nl.toNat) s) with ph := phFlr } := by
  obtain ⟨u, hpad, hnext⟩ := (andThen_eq_next _ _ _).mp h
  cases hnext
  rcases padBit_cases s v with ⟨hi, heq⟩ | ⟨-, hstop⟩
  · cases heq.symm.trans hpad
    exact ⟨hi, rfl⟩
  · cases hstop.symm.trans hpad

theorem initPhase_runFrame (h : initPhase C v s = .next t) : RunFrame s t := by
  cases h
  cases v <;> rfl

theorem absfPhase_runFrame (h : absfPhase C v s = .next t) : RunFrame s t := by
  rcases absfPhase_next h with ⟨-, rfl⟩ | ⟨-, rfl⟩
  · exact ((absorbedFull_frame v s).trans (permute_frame C _ v)).runFrame.trans rfl
  · rfl

theorem abspPhase_runFrame (h : abspPhase v s = .next t) : RunFrame s t := by
  obtain ⟨-, rfl⟩ := abspPhase_next h
  exact (absorbedTail_frame v s).runFrame.trans rfl

theorem emit_then_phase_runFrame {V : BitVec 16} {next : BitVec 4}
    (h : (andThen (emit C v V s) fun u => .next { u with ph := next }) = .next t) :
    RunFrame s t := by
  obtain ⟨-, rfl⟩ := emit_then_phase_next h
  exact (emitBits_frame C s v _ _).runFrame.trans rfl

theorem padPhase_runFrame (h : padPhase v s = .next t) : RunFrame s t := by
  obtain ⟨-, rfl⟩ := padPhase_next h
  exact ((orBlkByte_frame s v _ _).trans (advanceByte_frame _ v)).runFrame.trans rfl

theorem flrPhase_runFrame (h : flrPhase C v s = .next t) : RunFrame s t := by
  cases h
  exact ((fill_frame s v).trans (permute_frame C _ v)).runFrame.trans rfl

/-- What `FIN` does to the flags: the invocation is over, with `DONE` (R171, R200). -/
theorem finPhase_flags (h : finPhase C v s = .next t) :
    t.busy = false ∧ t.done = true ∧ t.ph = phIdle := by
  cases h
  exact ⟨rfl, rfl, rfl⟩

end RunFrame

/-! ## What one step can do -/

section Steps

variable {s t : State}

/-- `t` is `s` but for the host's coming turns and the observation log: what the host does at a turn of the core,
at a read and at a dropped write. -/
def ObserverFrame (s t : State) : Prop := t = { s with inbox := t.inbox, history := t.history }

/-- While `BUSY = 1` the sequencer's turn is the phase of `PH` over the lanes of `VAR` (R96). -/
theorem sequencerTurn_busy (hbusy : s.busy = true) (h : sequencerTurn s = .next t) :
    (s.ph = phIdle ∧ t = s) ∨
    (s.ph = phInit ∧ initPhase Config.chip s.var s = .next t) ∨
    (s.ph = phAbsf ∧ absfPhase Config.chip s.var s = .next t) ∨
    (s.ph = phAbsp ∧ abspPhase s.var s = .next t) ∨
    (s.ph = phEncm ∧ encmPhase Config.chip s.var s = .next t) ∨
    (s.ph = phEnck ∧ enckPhase Config.chip s.var s = .next t) ∨
    (s.ph = phPad ∧ padPhase s.var s = .next t) ∨
    (s.ph = phFlr ∧ flrPhase Config.chip s.var s = .next t) ∨
    (s.ph = phFin ∧ finPhase Config.chip s.var s = .next t) := by
  rw [sequencerTurn_eq, hbusy] at h
  rcases phaseOp_cases s.var s.ph with ⟨-, hop⟩ | ⟨hph, hop⟩ | ⟨hph, hop⟩ | ⟨hph, hop⟩ | ⟨hph, hop⟩ |
    ⟨hph, hop⟩ | ⟨hph, hop⟩ | ⟨hph, hop⟩ | ⟨hph, hop⟩ | ⟨hph, hop⟩
  case inl => rw [hop] at h; cases h
  all_goals rw [hop] at h
  case inr.inl => cases h; exact .inl ⟨hph, rfl⟩
  all_goals
    simp only [hph, phIdle, phInit, phAbsf, phAbsp, phEncm, phEnck, phPad, phFlr, phFin]
    cases hv : s.var <;> rw [hv] at h <;> simpa [exec, execInitN, execInitW, execAbsfN, execAbsfW,
      execAbspN, execAbspW, execEncmN, execEncmW, execEnckN, execEnckW, execPadN, execPadW, execFlrN,
      execFlrW, execFinN, execFinW] using h

/-- With `BUSY = 0` the sequencer has no step (R13). -/
theorem sequencerTurn_notBusy (hbusy : s.busy = false) (h : sequencerTurn s = .next t) : t = s := by
  rw [sequencerTurn_eq, hbusy] at h
  cases hop : phaseOp s.var s.ph with
  | ok i => rw [hop] at h; cases h; rfl
  | error e => rw [hop] at h; cases h

/-- An answered request changes the port and the log only. -/
theorem adapterTurn_next {header : BitVec 10} (h : adapterTurn header s = .next t) :
    t = { s with port := t.port, history := t.history } := by
  unfold adapterTurn at h
  cases hd : decode (.header header) with
  | error e => rw [hd] at h; cases h
  | ok i =>
    rw [hd] at h
    simp only [decode, decodeHeader] at hd
    split_ifs at hd <;> cases hd <;> cases h <;> rfl

/-- The value of `CMD` that starts an invocation of a variant (R91). -/
def startCode : Variant → BitVec 8
  | .narrow => 0x01
  | .wide => 0x02

/-- What one step can do: the core's turn, seen or not by the host, or an effect of a turn of the host. -/
inductive StepEffect (s t : State) : Prop
  | core (u : State) (seen : ObserverFrame s u) (turn : coreTurn u = .next t)
  | observed (seen : ObserverFrame s t)
  | placed (a : BitVec 32) (b : Byte) (rest : List HostEvent)
      (eq : t = { s with inbox := rest, msg := s.msg.put a.toNat b })
  | reset (rest : List HostEvent) (turn : s.inbox = .reset :: rest)
      (eq : t = resetCore { s with inbox := rest })
  | declared (idle : s.busy = false)
      (eq : t = { s with
        inbox := t.inbox, keysz := t.keysz, msglen := t.msglen, msgsz := t.msgsz, key := t.key })
  | started (v : Variant) (d : BitVec 32) (rest : List HostEvent) (idle : s.busy = false)
      (turn : s.inbox = .wr 0 8 d :: rest)
      (code : d.setWidth 8 = startCode v)
      (eq : t = startIdle v { s with inbox := rest })
  | illegal (rest : List HostEvent) (idle : s.busy = false)
      (eq : t = raise .illegalCommand { s with inbox := rest })

theorem hostReg_eq_cmd {n : Nat} (h : hostReg n = .cmd) : n = 0 := by
  unfold hostReg at h
  split_ifs at h
  assumption

/-- A write outside `CMD` reaches the declared sizes and the key only. -/
theorem writeReg_frame {rest : List HostEvent} {d : BitVec 32} {r : HostReg}
    (h : t = writeReg { s with inbox := rest } d r) : t = { s with
      inbox := t.inbox, keysz := t.keysz, msglen := t.msglen, msgsz := t.msgsz, key := t.key } := by
  subst h
  cases r <;> rfl

/-- What a command value does while `BUSY = 0`: one of the two STARTs, or `ILLEGAL` (R240). -/
theorem commandWrite_cases (c : BitVec 8) (hidle : s.busy = false) :
    (∃ v, c = startCode v ∧ commandWrite c s = .next (startIdle v s)) ∨
    commandWrite c s = .next (raise .illegalCommand s) := by
  by_cases hN : c = 0x01
  · subst hN
    refine .inl ⟨.narrow, rfl, ?_⟩
    change startCommand .narrow s = _
    simp [startCommand, hidle]
  by_cases hW : c = 0x02
  · subst hW
    refine .inl ⟨.wide, rfl, ?_⟩
    change startCommand .wide s = _
    simp [startCommand, hidle]
  · have hd : decode (.command c) = .error .reservedCommand := by
      simp only [decode, decodeCommand, if_neg hN, if_neg hW]
    exact .inr (by simp [commandWrite, hd, illegalCommand, hidle])

/-- A host write: dropped, a register of the host, or a command. -/
theorem stepEffect_of_write {n width : Nat} {d : BitVec 32} {rest : List HostEvent}
    (hinbox : s.inbox = .wr n width d :: rest)
    (h : hostWrite n width d { s with inbox := rest } = .next t) : StepEffect s t := by
  rcases hostWrite_cases { s with inbox := rest } n width d with
    ⟨-, heq⟩ | ⟨-, -, heq⟩ | ⟨hwhole, hidle, hcmd, heq⟩ | ⟨-, hidle, -, heq⟩
  · cases heq.symm.trans h
  · cases heq.symm.trans h
    exact .observed rfl
  · obtain rfl := hostReg_eq_cmd hcmd
    obtain rfl : width = 8 := by simpa [HostReg.wholeAccess, HostReg.width, hcmd] using hwhole
    rcases commandWrite_cases (d.setWidth 8) hidle with ⟨v, hcode, hstart⟩ | hillegal
    · cases (heq.trans hstart).symm.trans h
      exact .started v d rest hidle hinbox hcode rfl
    · cases (heq.trans hillegal).symm.trans h
      exact .illegal rest hidle rfl
  · cases heq.symm.trans h
    exact .declared hidle (writeReg_frame rfl)

/-- Every turn of the host has one of the effects. -/
theorem stepEffect_of_hostTurn {e : HostEvent} {rest : List HostEvent} (hinbox : s.inbox = e :: rest)
    (h : hostTurn e { s with inbox := rest } = .next t) : StepEffect s t := by
  cases e with
  | core => exact .core { s with inbox := rest } rfl h
  | wr n width d => exact stepEffect_of_write hinbox h
  | rd n width =>
    simp only [hostTurn, hostRead] at h
    split at h <;> cases h
    exact .observed rfl
  | rdIfDone n =>
    cases h
    refine .observed ?_
    split <;> rfl
  | wait =>
    simp only [hostTurn, waitTurn] at h
    split at h
    · exact .core { noteHostRead 1 { s with inbox := rest } with inbox := .wait :: rest } rfl h
    · cases h
      exact .observed rfl
  | place a b =>
    rcases placeByte_cases a.toNat b { s with inbox := rest } with ⟨hstop, -⟩ | heq
    · cases hstop.symm.trans h
    · cases heq.symm.trans h
      exact .placed a b rest rfl
  | reset =>
    cases h
    exact .reset rest hinbox rfl

/-- Every step has one of the effects. -/
theorem stepEffect_of_step (h : step s = .next t) : StepEffect s t := by
  rcases step_cases s with ⟨-, hstep⟩ | ⟨e, rest, hinbox, hstep⟩
  · exact .core s rfl (hstep.symm.trans h)
  · exact stepEffect_of_hostTurn hinbox (hstep.symm.trans h)

/-- Before `FIN` the core's turn leaves `BUSY` alone; in `FIN` it ends the invocation. -/
theorem coreTurn_busy (h : coreTurn s = .next t) :
    t.busy = s.busy ∨ (s.ph = phFin ∧ t.busy = false ∧ t.done = true ∧ t.ph = phIdle) := by
  cases hport : s.port.pending with
  | some header =>
    rw [coreTurn_adapter s header hport] at h
    rw [adapterTurn_next h]
    exact .inl rfl
  | none =>
    rw [coreTurn_sequencer s hport] at h
    cases hbusy : s.busy with
    | false => exact .inl (by rw [sequencerTurn_notBusy hbusy h, hbusy])
    | true =>
      rcases sequencerTurn_busy hbusy h with ⟨-, rfl⟩ | ⟨-, hop⟩ | ⟨-, hop⟩ | ⟨-, hop⟩ | ⟨-, hop⟩ |
        ⟨-, hop⟩ | ⟨-, hop⟩ | ⟨-, hop⟩ | ⟨hph, hop⟩
      · exact .inl hbusy
      · exact .inl ((initPhase_runFrame hop).busy_eq.trans hbusy)
      · exact .inl ((absfPhase_runFrame hop).busy_eq.trans hbusy)
      · exact .inl ((abspPhase_runFrame hop).busy_eq.trans hbusy)
      · exact .inl ((emit_then_phase_runFrame hop).busy_eq.trans hbusy)
      · exact .inl ((emit_then_phase_runFrame hop).busy_eq.trans hbusy)
      · exact .inl ((padPhase_runFrame hop).busy_eq.trans hbusy)
      · exact .inl ((flrPhase_runFrame hop).busy_eq.trans hbusy)
      · exact .inr ⟨hph, finPhase_flags hop⟩

/-- What START does: one of the three checks fails and raises, or the invocation begins (R241). -/
theorem startIdle_cases (v : Variant) (s : State) :
    (∃ e, startIdle v s = raise e { s with var := v }) ∨
    (s.msglen.toNat ≤ 65535 ∧ s.keysz = keyBytes v ∧ bytesOfBits s.msglen.toNat ≤ s.msgsz.toNat ∧
      startIdle v s = { s with
        done := false, out := Bytes.zero 16, var := v, err := 0, len := s.msglen.setWidth 16
        busy := true, ph := phInit }) := by
  by_cases hlen : 65535 < s.msglen.toNat
  · exact .inl ⟨.inputTooLong, by simp [startIdle, Config.maxMsgBits, hlen, raise]⟩
  by_cases hkey : s.keysz = keyBytes v
  case neg =>
    exact .inl ⟨.keyLengthMismatch, by simp [startIdle, Config.maxMsgBits, hlen, hkey, raise]⟩
  by_cases hbuf : s.msgsz.toNat < bytesOfBits s.msglen.toNat
  · exact .inl ⟨.bufferTooShort, by simp [startIdle, Config.maxMsgBits, hlen, hkey, hbuf, raise]⟩
  · exact .inr ⟨by omega, hkey, by omega, by simp [startIdle, Config.maxMsgBits, hlen, hkey, hbuf]⟩

end Steps

/-! ## Reset, reads and the flags: the statements -/

/-- Settles O8: the reset input puts the registers of `State.reset` in place of every state's. -/
theorem resetClearsEveryRegister : Obligations.ResetClearsEveryRegister := by
  have hzero (t : State) (msg : Memory) (inbox : List HostEvent) (history : List Event)
      (ht : t = { State.reset with msg := msg, inbox := inbox, history := history }) (l : Lane) :
      t.tag l = Bytes.zero 8 ∧ t.blk l = Bytes.zero 10 := by
    subst ht
    cases l <;> exact ⟨rfl, rfl⟩
  unfold Obligations.ResetClearsEveryRegister
  refine ⟨⟨hzero _ _ _ _ rfl, ?_⟩, fun s rest hinbox => ?_⟩
  · decide
  · refine ⟨resetCore { s with inbox := rest }, step_cons s _ rest hinbox,
      ⟨hzero _ _ _ _ rfl, ?_⟩, rfl⟩
    exact ⟨rfl, rfl, rfl, rfl, rfl, rfl, rfl, rfl, rfl, rfl, rfl, rfl, rfl, rfl, rfl,
      (by decide : statusWord State.reset = 0), rfl⟩

/-- A read of a whole register leaves only its observation (R245, R246, R249). -/
theorem step_hostRead {s : State} {n width : Nat} {rest : List HostEvent}
    (hwhole : (hostReg n).wholeAccess width = true) (hinbox : s.inbox = .rd n width :: rest) :
    step s = .next { s with
      inbox := rest, history := s.history ++ [.hostRead n (readReg s (hostReg n))] } := by
  rw [step_cons s _ rest hinbox]
  simp only [hostTurn, hostRead, hwhole, if_true, noteHostRead]
  cases hostReg n <;> rfl

theorem hostReg_out {j : Nat} (h : j < 16) : hostReg (48 + j) = .out j := by
  rw [hostReg, if_neg (by omega), if_neg (by omega), if_neg (by omega), if_neg (by omega),
    if_neg (by omega), if_neg (by omega), if_pos (by omega), Nat.add_sub_cancel_left]

/-- Settles O10: each number names its register in the map of R35, and the read returns it. -/
theorem readableRegistersReadBack : Obligations.ReadableRegistersReadBack := by
  refine fun s rest => ⟨fun h => step_hostRead rfl h, fun h => step_hostRead rfl h,
    fun h => step_hostRead rfl h, fun h => step_hostRead rfl h, fun j hj h => ?_⟩
  have hread := step_hostRead (by rw [hostReg_out hj]; rfl) h
  rw [hostReg_out hj] at hread
  exact hread

/-- Settles O44: every operation but the two commands is within `PhaseFrame`. -/
theorem onlyCommandsWriteVarAndErr : Obligations.OnlyCommandsWriteVarAndErr := by
  intro i s t h hN hW
  have hframe := exec_frame h hN hW
  unfold PhaseFrame at hframe
  rw [hframe]
  exact ⟨rfl, rfl⟩

/-- Settles O46: of the effects of a step only reset and the core's turn in `FIN` lower `BUSY`. -/
theorem busyFallsOnlyAtFinOrReset : Obligations.BusyFallsOnlyAtFinOrReset := by
  intro s t h hbusy hdown
  cases stepEffect_of_step h with
  | core u seen turn =>
    unfold ObserverFrame at seen
    rcases coreTurn_busy turn with hsame | ⟨hph, -, hdone, hidle⟩
    · rw [seen, hdown] at hsame
      cases hsame.trans hbusy
    · rw [seen] at hph
      exact .inl ⟨hph, hdone, hidle⟩
  | observed seen => unfold ObserverFrame at seen; rw [seen] at hdown; cases hdown.symm.trans hbusy
  | placed a b rest heq => rw [heq] at hdown; cases hdown.symm.trans hbusy
  | reset rest hturn _ => exact .inr (by rw [hturn]; rfl)
  | declared hidle _ => cases hidle.symm.trans hbusy
  | started v d rest hidle _ _ _ => cases hidle.symm.trans hbusy
  | illegal rest hidle _ => cases hidle.symm.trans hbusy

/-- Settles O47: of the effects of a step only a START that passes its checks raises `BUSY`. -/
theorem busyRisesOnlyByAcceptedStart : Obligations.BusyRisesOnlyByAcceptedStart := by
  intro s t h hidle hup
  cases stepEffect_of_step h with
  | core u seen turn =>
    unfold ObserverFrame at seen
    rcases coreTurn_busy turn with hsame | ⟨-, hdown, -⟩
    · rw [seen, hup] at hsame
      cases hsame.trans hidle
    · cases hdown.symm.trans hup
  | observed seen => unfold ObserverFrame at seen; rw [seen] at hup; cases hidle.symm.trans hup
  | placed a b rest heq => rw [heq] at hup; cases hidle.symm.trans hup
  | reset rest _ heq => rw [heq] at hup; cases hup
  | declared _ heq => rw [heq] at hup; cases hidle.symm.trans hup
  | illegal rest _ heq => rw [heq] at hup; cases hidle.symm.trans hup
  | started v d rest _ hturn hcode heq =>
    rcases startIdle_cases v { s with inbox := rest } with ⟨e, hfail⟩ | ⟨hlen, hkey, hbuf, hstart⟩
    · rw [heq, hfail] at hup
      cases hidle.symm.trans hup
    · refine ⟨d, by rw [hturn]; rfl, ?_, hlen, hbuf, by rw [heq, hstart]; rfl⟩
      cases v with
      | narrow => exact .inl ⟨hcode, hkey⟩
      | wide => exact .inr ⟨hcode, hkey⟩

end Sys2Proof.Machine

/-! # The invariant between two steps (10_state.md R20 to R32, R42) -/

namespace Sys2Proof.Machine

/-! ## The lanes in use, operation by operation -/

section Lanes

variable {C : Config} {v : Variant} {l : Lane}

theorem orBlkByte_blk (hl : LaneUsed v l) (j : Nat) (x : Byte) (s : State) :
    (orBlkByte v j x s).blk l = (s.blk l).put j ((s.blk l).at j ||| x) := by
  rcases hl with rfl | rfl
  · cases v <;> rfl
  · cases l <;> rfl

theorem writeBlkByte_blk (hl : LaneUsed v l) (j : Nat) (x : Byte) (s : State) :
    (writeBlkByte v j x s).blk l = (s.blk l).put j x := by
  rcases hl with rfl | rfl
  · cases v <;> rfl
  · cases l <;> rfl

theorem advanceByte_blk (hl : LaneUsed v l) (s : State) : (advanceByte v s).blk l =
    (s.blk l).put s.i.toNat ((s.blk l).at s.i.toNat ^^^ (s.tag l).at s.i.toNat) := by
  rcases hl with rfl | rfl
  · cases v <;> rfl
  · cases l <;> rfl

theorem fill_blk (hl : LaneUsed v l) (s : State) :
    (fill v s).blk l = filledBlock s.i.toNat (s.tag l) (s.blk l) := by
  rcases hl with rfl | rfl
  · cases v <;> rfl
  · cases l <;> rfl

theorem absorbBytes_blk (hl : LaneUsed v l) (n : Nat) (s : State) :
    (absorbBytes v n s).blk l = absorbedBlock s n (s.tag l) (s.blk l) := by
  rcases hl with rfl | rfl
  · cases v <;> rfl
  · cases l <;> rfl

theorem permute_blk (hl : LaneUsed v l) (s : State) :
    (permute C v s).blk l = clearedBlock (s.blk l) :=
  ((permute_spec C s v).1 l hl).2

@[simp] theorem orBlkByte_i (j : Nat) (x : Byte) (s : State) : (orBlkByte v j x s).i = s.i := by
  cases v <;> rfl
@[simp] theorem writeBlkByte_i (j : Nat) (x : Byte) (s : State) :
    (writeBlkByte v j x s).i = s.i := by cases v <;> rfl
@[simp] theorem permute_i (s : State) : (permute C v s).i = s.i := by cases v <;> rfl
@[simp] theorem permute_nl (s : State) : (permute C v s).nl = s.nl := by cases v <;> rfl
@[simp] theorem fill_nl (s : State) : (fill v s).nl = s.nl := by cases v <;> rfl
@[simp] theorem absorbedFull_i (s : State) : (absorbedFull v s).i = s.i := by cases v <;> rfl
@[simp] theorem absorbedFull_nl (s : State) : (absorbedFull v s).nl = s.nl := by cases v <;> rfl

theorem filledBlock_at_salt (i : Nat) (t : Bytes 8) (b : Bytes 10) {j : Nat} (h : 8 ≤ j) :
    (filledBlock i t b).at j = b.at j := by
  simp only [filledBlock, Bytes.at_ofFn]
  split
  · simp [Nat.not_lt.mpr h]
  · rw [Bytes.at_of_le b (by omega)]

theorem absorbedBlock_at (s : State) (n : Nat) (t : Bytes 8) (b : Bytes 10) (hn : n ≤ 8) (j : Nat) :
    (absorbedBlock s n t b).at j =
      if j < n then msgByte s (s.ptr.toNat + j) ^^^ t.at j else b.at j := by
  simp only [absorbedBlock, Bytes.at_ofFn]
  split
  · rfl
  · rw [if_neg (by omega), Bytes.at_of_le b (by omega)]

/-- Bytes 8 and 9 of an initialised block are the first two bytes of the sub-key, the others clear (R163). -/
theorem saltedBlock_at (k : Bytes 10) (j : Nat) :
    (saltedBlock k).at j = if j = 8 then k.at 0 else if j = 9 then k.at 1 else 0 := by
  simp only [saltedBlock, Bytes.at_put, Bytes.zero, Bytes.at_zero]
  grind

end Lanes

/-! ## What the operations on a lane keep -/

/-- Lane 2 is untouched in the narrow variant (R20), the salt of a lane in use stands (R21), an idle port is idle
again (R12). -/
structure LanesKept (v : Variant) (s t : State) : Prop where
  laneTwo : v = .narrow → t.tag2 = s.tag2 ∧ t.blk2 = s.blk2
  salt : ∀ l, LaneUsed v l → ∀ j, 8 ≤ j → (t.blk l).at j = (s.blk l).at j
  port : s.port = Port.idle → t.port = Port.idle

section LanesKept

variable {C : Config} {v : Variant} {s : State}

theorem LanesKept.refl (v : Variant) (s : State) : LanesKept v s s :=
  ⟨fun _ => ⟨rfl, rfl⟩, fun _ _ _ _ => rfl, id⟩

theorem LanesKept.trans {a b c : State} (h1 : LanesKept v a b) (h2 : LanesKept v b c) :
    LanesKept v a c where
  laneTwo hv := by
    obtain ⟨htag1, hblk1⟩ := h1.laneTwo hv
    obtain ⟨htag2, hblk2⟩ := h2.laneTwo hv
    exact ⟨htag2.trans htag1, hblk2.trans hblk1⟩
  salt l hl j hj := (h2.salt l hl j hj).trans (h1.salt l hl j hj)
  port := h2.port ∘ h1.port

theorem orBlkByte_kept {j : Nat} (hj : j < 8) (x : Byte) (s : State) :
    LanesKept v s (orBlkByte v j x s) where
  laneTwo hv := by subst hv; exact ⟨rfl, rfl⟩
  salt l hl k hk := by rw [orBlkByte_blk hl, Bytes.at_put_ne _ _ (by omega)]
  port h := by cases v <;> exact h

theorem writeBlkByte_kept {j : Nat} (hj : j < 8) (x : Byte) (s : State) :
    LanesKept v s (writeBlkByte v j x s) where
  laneTwo hv := by subst hv; exact ⟨rfl, rfl⟩
  salt l hl k hk := by rw [writeBlkByte_blk hl, Bytes.at_put_ne _ _ (by omega)]
  port h := by cases v <;> exact h

theorem advanceByte_kept (hi : s.i.toNat < 8) : LanesKept v s (advanceByte v s) where
  laneTwo hv := by subst hv; exact ⟨rfl, rfl⟩
  salt l hl k hk := by rw [advanceByte_blk hl, Bytes.at_put_ne _ _ (by omega)]
  port h := by cases v <;> exact h

theorem fill_kept (v : Variant) (s : State) : LanesKept v s (fill v s) where
  laneTwo hv := by subst hv; exact ⟨rfl, rfl⟩
  salt l hl k hk := by rw [fill_blk hl, filledBlock_at_salt _ _ _ hk]
  port h := by cases v <;> exact h

theorem absorbBytes_kept {n : Nat} (hn : n ≤ 8) (s : State) : LanesKept v s (absorbBytes v n s) where
  laneTwo hv := by subst hv; exact ⟨rfl, rfl⟩
  salt l hl k hk := by rw [absorbBytes_blk hl, absorbedBlock_at _ _ _ _ hn, if_neg (by omega)]
  port h := by cases v <;> exact h

theorem noteMsgReads_kept (a n : Nat) (s : State) : LanesKept v s (noteMsgReads a n s) :=
  ⟨fun _ => ⟨rfl, rfl⟩, fun _ _ _ _ => rfl, id⟩

theorem permute_kept (C : Config) (v : Variant) (s : State) : LanesKept v s (permute C v s) where
  laneTwo := (permute_spec C s v).2.1
  salt l hl k hk := by rw [permute_blk hl, clearedBlock_at, if_neg (by omega)]
  port _ := by cases v <;> rfl

theorem absorbedFull_kept (v : Variant) (s : State) : LanesKept v s (absorbedFull v s) :=
  (absorbBytes_kept (Nat.le_refl 8) s).trans (noteMsgReads_kept _ _ _)

theorem openTail_kept {nb : Nat} (hnb : nb < 8) (r : Nat) (s : State) :
    LanesKept v s (openTail v nb r s) := by
  unfold openTail
  split
  · exact LanesKept.refl v s
  · exact writeBlkByte_kept hnb _ s

theorem absorbedTail_kept (hrem : s.rem.toNat < 64) : LanesKept v s (absorbedTail v s) :=
  ((absorbBytes_kept (by omega) s).trans (noteMsgReads_kept _ _ _)).trans
    (openTail_kept (by omega) _ _)

/-- The tail in a lane's block: the complete bytes closed, the partial byte masked, the rest as before (R165). -/
theorem absorbedTail_at {l : Lane} (hl : LaneUsed v l) (hrem : s.rem.toNat < 64) (j : Nat) :
    ((absorbedTail v s).blk l).at j =
      if j < s.rem.toNat / 8 then msgByte s (s.ptr.toNat + j) ^^^ (s.tag l).at j
      else if j = s.rem.toNat / 8 ∧ s.rem.toNat % 8 ≠ 0 then
        msgByte s (s.ptr.toNat + j) &&& tailMask (s.rem.toNat % 8)
      else (s.blk l).at j := by
  have habsorb : ((absorbBytes v (s.rem.toNat / 8) s).blk l).at j =
      if j < s.rem.toNat / 8 then msgByte s (s.ptr.toNat + j) ^^^ (s.tag l).at j
      else (s.blk l).at j := by
    rw [absorbBytes_blk hl, absorbedBlock_at _ _ _ _ (by omega)]
  have hframe := absorbBytes_frame v (s.rem.toNat / 8) s
  unfold LaneFrame at hframe
  have hmsg (a : Nat) : msgByte (absorbBytes v (s.rem.toNat / 8) s) a = msgByte s a := by
    rw [hframe]; rfl
  have hptr : (absorbBytes v (s.rem.toNat / 8) s).ptr = s.ptr := by rw [hframe]
  unfold absorbedTail openTail
  split
  · rename_i hr
    rw [if_neg (c := j = _ ∧ _) (by omega)]
    exact habsorb
  · rename_i hr
    rw [writeBlkByte_blk hl, Bytes.at_put]
    change (if _ then msgByte (absorbBytes v (s.rem.toNat / 8) s)
      ((absorbBytes v (s.rem.toNat / 8) s).ptr.toNat + s.rem.toNat / 8) &&& _
      else ((absorbBytes v (s.rem.toNat / 8) s).blk l).at j) = _
    rw [habsorb, hmsg, hptr]
    grind

end LanesKept

/-! ## The cursor and the clean block -/

/-- The bytes of every lane in use from byte `n` on are clear (R22). -/
def CleanFrom (v : Variant) (n : Nat) (s : State) : Prop :=
  ∀ l, LaneUsed v l → ∀ j, n ≤ j → j < 8 → (s.blk l).at j = 0

/-- The cursor stands at the start of a byte, and the block is clean from there on. -/
structure ByteStart (v : Variant) (s : State) : Prop where
  index : s.i.toNat < 8
  fresh : s.nl = 0
  clean : CleanFrom v s.i.toNat s

/-- The cursor stands in the block, the bytes above it are clear, and the open byte holds `NL` bits (R22, R27). -/
structure CursorClean (v : Variant) (s : State) : Prop where
  index : s.i.toNat < 8
  clean : CleanFrom v (s.i.toNat + 1) s
  openByte : ∀ l, LaneUsed v l → ((s.blk l).at s.i.toNat).toNat % 2 ^ (8 - s.nl.toNat) = 0

/-- From `s` to `t` the cursor closed `n` bytes, modulo the block (R136, R137). -/
structure BytesClosed (v : Variant) (n : Nat) (s t : State) : Prop where
  start : ByteStart v t
  index : t.i.toNat = (s.i.toNat + n) % 8
  kept : LanesKept v s t

/-- From `s` to `t` the cursor wrote `n` bits, modulo the block (R139). -/
structure BitsWritten (v : Variant) (n : Nat) (s t : State) : Prop where
  clean : CursorClean v t
  position : 8 * t.i.toNat + t.nl.toNat = (8 * s.i.toNat + s.nl.toNat + n) % 64
  kept : LanesKept v s t

section Cursor

variable {C : Config} {v : Variant} {s t : State} {n : Nat}

/-- The low `k` bits of a byte are clear. -/
theorem low_bits_zero_iff (x : Byte) (k : Nat) :
    x.toNat % 2 ^ k = 0 ↔ ∀ q, q < k → x.getLsbD q = false := by
  constructor
  · intro h q hq
    have hbit := Nat.testBit_mod_two_pow x.toNat k q
    rw [h] at hbit
    simpa [hq, BitVec.testBit_toNat] using hbit.symm
  · intro h
    refine Nat.eq_of_testBit_eq fun q => ?_
    rw [Nat.testBit_mod_two_pow, Nat.zero_testBit]
    by_cases hq : q < k
    · simpa [hq, BitVec.testBit_toNat] using h q hq
    · simp [hq]

/-- A byte made of a shifted number has that many clear low bits. -/
theorem low_bits_shifted (x k q : Nat) (hq : q < k) :
    (BitVec.ofNat 8 (x <<< k)).getLsbD q = false := by
  simp [BitVec.getLsbD_ofNat, Nat.testBit_shiftLeft, Nat.not_le.mpr hq]

theorem ofNat3_toNat {k : Nat} (h : k < 8) : (BitVec.ofNat 3 k).toNat = k := by
  rw [BitVec.toNat_ofNat]
  exact Nat.mod_eq_of_lt h

theorem ByteStart.nl_toNat (h : ByteStart v s) : s.nl.toNat = 0 := by
  rw [h.fresh]
  rfl

theorem ByteStart.cursorClean (h : ByteStart v s) : CursorClean v s where
  index := h.index
  clean l hl j hj hj8 := h.clean l hl j (by omega) hj8
  openByte l hl := by rw [h.clean l hl _ (Nat.le_refl _) h.index]; simp

theorem CleanFrom.or {j : Nat} (h : CleanFrom v n s) (hj : j < n) (x : Byte) :
    CleanFrom v n (orBlkByte v j x s) := by
  intro l hl k hk hk8
  rw [orBlkByte_blk hl, Bytes.at_put_ne _ _ (by omega)]
  exact h l hl k hk hk8

theorem CleanFrom.write {j : Nat} (h : CleanFrom v n s) (hj : j < n) (x : Byte) :
    CleanFrom v n (writeBlkByte v j x s) := by
  intro l hl k hk hk8
  rw [writeBlkByte_blk hl, Bytes.at_put_ne _ _ (by omega)]
  exact h l hl k hk hk8

theorem CleanFrom.advance (h : CleanFrom v n s) (hi : s.i.toNat < n) :
    CleanFrom v n (advanceByte v s) := by
  intro l hl k hk hk8
  rw [advanceByte_blk hl, Bytes.at_put_ne _ _ (by omega)]
  exact h l hl k hk hk8

/-- A permutation call leaves the whole block clean (R22, R170, R192). -/
theorem permute_clean (C : Config) (v : Variant) (s : State) (n : Nat) :
    CleanFrom v n (permute C v s) := by
  intro l hl j _ hj
  rw [permute_blk hl, clearedBlock_at, if_pos hj]

/-- A closed byte puts the cursor at the start of a byte of a block clean from there on. -/
theorem closeByte_closes (hi : s.i.toNat < 8) (hclean : CleanFrom v (s.i.toNat + 1) s) :
    BytesClosed v 1 s (closeByte C v s) := by
  have hadv := advanced_index s hi
  by_cases h7 : s.i.toNat = 7
  · rw [closeByte_full C s v h7]
    have hkept := (advanceByte_kept (v := v) hi).trans (permute_kept C v (advanceByte v s))
    exact {
      start := ⟨(by decide : (0 : BitVec 4).toNat < 8), by simp, permute_clean C v _ _⟩
      index := by rw [h7]; rfl
      kept := ⟨hkept.laneTwo, hkept.salt, hkept.port⟩ }
  · rw [closeByte_inside C s v (by omega)]
    refine ⟨⟨?_, advanceByte_nl s v, ?_⟩, ?_, advanceByte_kept hi⟩
    · rw [advanceByte_i]; omega
    · rw [advanceByte_i, hadv]; exact hclean.advance (by omega)
    · rw [advanceByte_i]; omega

theorem BytesClosed.trans {a b c : State} {m n : Nat} (h1 : BytesClosed v m a b)
    (h2 : BytesClosed v n b c) : BytesClosed v (m + n) a c where
  start := h2.start
  index := by rw [h2.index, h1.index]; omega
  kept := h1.kept.trans h2.kept

/-- What is written into the open byte before it is closed does not matter to the cursor. -/
theorem BytesClosed.after {u : State} (hkept : LanesKept v s u) (hi : u.i = s.i)
    (h : BytesClosed v n u t) : BytesClosed v n s t where
  start := h.start
  index := by rw [h.index, hi]
  kept := hkept.trans h.kept

/-- A byte ORed into the open byte and closed. -/
theorem or_close_closes (hi : s.i.toNat < 8) (hclean : CleanFrom v (s.i.toNat + 1) s) (x : Byte) :
    BytesClosed v 1 s (closeByte C v (orBlkByte v s.i.toNat x s)) := by
  refine BytesClosed.after (orBlkByte_kept hi x s) (orBlkByte_i _ _ _) (closeByte_closes ?_ ?_)
  · rwa [orBlkByte_i]
  · rw [orBlkByte_i]; exact hclean.or (Nat.lt_succ_self _) x

/-- A byte written at the start of a byte and closed. -/
theorem write_close_closes (h : ByteStart v s) (x : Byte) :
    BytesClosed v 1 s (closeByte C v (writeBlkByte v s.i.toNat x s)) := by
  refine BytesClosed.after (writeBlkByte_kept h.index x s) (writeBlkByte_i _ _ _)
    (closeByte_closes ?_ ?_)
  · rw [writeBlkByte_i]; exact h.index
  · rw [writeBlkByte_i]; exact h.cursorClean.clean.write (Nat.lt_succ_self _) x

/-- The middle of `EMIT_SPAN` closes its `n` bytes (R135). -/
theorem emitMiddle_closes (C : Config) (V n : Nat) :
    ∀ (r : Nat) {s : State}, ByteStart v s → BytesClosed v n s (emitMiddle C v V n r s) := by
  induction n with
  | zero =>
    intro r s h
    exact ⟨h, (Nat.mod_eq_of_lt h.index).symm, LanesKept.refl v s⟩
  | succ n ih =>
    intro r s h
    have hone := write_close_closes (C := C) h (middleSlice V r)
    have hall := hone.trans (ih (r - 8) hone.start)
    rwa [Nat.add_comm 1 n] at hall

/-- To close the open byte is to write as many bits as it had room for. -/
theorem BytesClosed.bitsWritten (h : BytesClosed v 1 s t) (hn : s.nl.toNat + n = 8) :
    BitsWritten v n s t where
  clean := h.start.cursorClean
  position := by
    have hnl := h.start.nl_toNat
    have hindex := h.index
    omega
  kept := h.kept

/-- Bits ORed into the open byte after the ones it holds, with room to spare. -/
theorem or_bits_writes (h : CursorClean v s) (hn : s.nl.toNat + n < 8) (x : Byte)
    (hx : ∀ q, q < 8 - (s.nl.toNat + n) → x.getLsbD q = false) :
    BitsWritten v n s { orBlkByte v s.i.toNat x s with nl := BitVec.ofNat 3 (s.nl.toNat + n) } := by
  have hindex := h.index
  have hnl := ofNat3_toNat hn
  have hi := orBlkByte_i (v := v) s.i.toNat x s
  have hkept := orBlkByte_kept (v := v) hindex x s
  refine ⟨⟨?_, ?_, fun l hl => ?_⟩, ?_, ⟨hkept.laneTwo, hkept.salt, hkept.port⟩⟩
  all_goals dsimp only
  all_goals rw [hi]
  · exact hindex
  · exact h.clean.or (Nat.lt_succ_self _) x
  · change (((orBlkByte v s.i.toNat x s).blk l).at s.i.toNat).toNat % _ = 0
    rw [hnl, orBlkByte_blk hl, Bytes.at_put_self _ _ (by omega), low_bits_zero_iff]
    intro q hq
    have hold := (low_bits_zero_iff _ _).mp (h.openByte l hl) q (by omega)
    rw [BitVec.getLsbD_or, hold, hx q hq, Bool.or_false]
  · rw [hnl]
    omega

/-- Bits written at the start of a byte, fewer than fill it. -/
theorem write_bits_writes (h : ByteStart v s) (hn : n < 8) (x : Byte)
    (hx : ∀ q, q < 8 - n → x.getLsbD q = false) :
    BitsWritten v n s { writeBlkByte v s.i.toNat x s with nl := BitVec.ofNat 3 n } := by
  have hindex := h.index
  have hnl := ofNat3_toNat hn
  have hi := writeBlkByte_i (v := v) s.i.toNat x s
  have hkept := writeBlkByte_kept (v := v) hindex x s
  refine ⟨⟨?_, ?_, fun l hl => ?_⟩, ?_, ⟨hkept.laneTwo, hkept.salt, hkept.port⟩⟩
  all_goals dsimp only
  all_goals rw [hi]
  · exact hindex
  · exact h.cursorClean.clean.write (Nat.lt_succ_self _) x
  · change (((writeBlkByte v s.i.toNat x s).blk l).at s.i.toNat).toNat % _ = 0
    rw [hnl, writeBlkByte_blk hl, Bytes.at_put_self _ _ (by omega), low_bits_zero_iff]
    exact hx
  · have hfresh := h.nl_toNat
    rw [hnl]
    omega

/-- `EMIT_FIT` writes its bits (R134). -/
theorem emitFit_writes (h : CursorClean v s) (V : Nat) (hn : s.nl.toNat + n ≤ 8) :
    BitsWritten v n s (emitFit C v V n s) := by
  unfold emitFit
  split
  · rename_i hfull
    exact (or_close_closes h.index h.clean _).bitsWritten hfull
  · exact or_bits_writes h (by omega) _ fun q hq => low_bits_shifted _ _ _ (by omega)

/-- `EMIT_SPAN` writes its bits (R135): the head closes the open byte, the middle closes whole bytes, the tail
opens the next. -/
theorem emitSpan_writes (h : CursorClean v s) (V : Nat) (hn : 8 < s.nl.toNat + n) :
    BitsWritten v n s (emitSpan C v V n s) := by
  have hhead := or_close_closes (C := C) h.index h.clean (headSlice V n (8 - s.nl.toNat))
  have hclosed := hhead.trans
    (emitMiddle_closes C V ((n - (8 - s.nl.toNat)) / 8) (n - (8 - s.nl.toNat)) hhead.start)
  have hr : (n - (8 - s.nl.toNat)) % 8 < 8 := Nat.mod_lt _ (by decide)
  have htail := write_bits_writes hclosed.start hr (tailSlice V ((n - (8 - s.nl.toNat)) % 8))
    fun q hq => low_bits_shifted _ _ _ hq
  have hfresh := hclosed.start.nl_toNat
  have hindex := hclosed.index
  refine ⟨htail.clean, htail.position.trans ?_, hclosed.kept.trans htail.kept⟩
  rw [hfresh, hindex]
  omega

/-- `EMIT` writes as many bits as the value's width (R133, R139). -/
theorem emitBits_writes (h : CursorClean v s) (V n : Nat) :
    BitsWritten v n s (emitBits C v V n s) := by
  unfold emitBits
  split
  · exact emitFit_writes h V ‹_›
  · exact emitSpan_writes h V (by omega)

end Cursor

/-! ## The invariant, phase by phase -/

@[simp] theorem phIdle_eq : phIdle = 0 := rfl
@[simp] theorem phInit_eq : phInit = 1 := rfl
@[simp] theorem phAbsf_eq : phAbsf = 2 := rfl
@[simp] theorem phAbsp_eq : phAbsp = 3 := rfl
@[simp] theorem phEncm_eq : phEncm = 4 := rfl
@[simp] theorem phEnck_eq : phEnck = 5 := rfl
@[simp] theorem phPad_eq : phPad = 6 := rfl
@[simp] theorem phFlr_eq : phFlr = 7 := rfl
@[simp] theorem phFin_eq : phFin = 8 := rfl

/-- The part of the invariant that does not speak of the phase. -/
structure Steady (s : State) : Prop where
  memory : s.msg.wf = true
  port : s.port = Port.idle
  err : s.err.toNat ≤ 4
  done : s.done = true → s.busy = false ∧ s.err = 0
  out : s.done = false → s.out = Bytes.zero 16
  outNarrow : s.var = .narrow → ∀ j, 8 ≤ j → j < 16 → s.out.at j = 0
  laneTwo : s.var = .narrow → s.tag2 = Bytes.zero 8 ∧ s.blk2 = Bytes.zero 10
  accepted : s.busy = true → Accepted s

/-- The salt of every lane in use is that of its sub-key (R21). -/
def Salted (s : State) : Prop := ∀ l, LaneUsed s.var l →
  (s.blk l).at 8 = (subKey s.key l).at 0 ∧ (s.blk l).at 9 = (subKey s.key l).at 1

section Phases

variable {C : Config} {s t : State}

theorem Inv.steady (h : Inv s) : Steady s := { h with }

theorem Steady.run (h : Steady s) (hframe : RunFrame s t) (hport : t.port = Port.idle)
    (htwo : s.var = .narrow → t.tag2 = s.tag2 ∧ t.blk2 = s.blk2) : Steady t := by
  have hlanes : s.var = .narrow → t.tag2 = Bytes.zero 8 ∧ t.blk2 = Bytes.zero 10 := by
    intro hv
    obtain ⟨htag, hblk⟩ := htwo hv
    rw [htag, hblk]
    exact h.laneTwo hv
  unfold RunFrame at hframe
  rw [hframe]
  exact { h with port := hport, laneTwo := hlanes }

theorem Steady.kept (h : Steady s) (hframe : RunFrame s t) (hkept : LanesKept s.var s t) :
    Steady t :=
  h.run hframe (hkept.port h.port) hkept.laneTwo

theorem RunFrame.var_eq (h : RunFrame s t) : t.var = s.var := by
  unfold RunFrame at h
  rw [h]

theorem RunFrame.key_eq (h : RunFrame s t) : t.key = s.key := by
  unfold RunFrame at h
  rw [h]

theorem RunFrame.len_eq (h : RunFrame s t) : t.len = s.len := by
  unfold RunFrame at h
  rw [h]

theorem Salted.kept (h : Salted s) (hframe : RunFrame s t) (hkept : LanesKept s.var s t) :
    Salted t := by
  intro l hl
  rw [hframe.var_eq] at hl
  rw [hframe.key_eq, hkept.salt l hl 8 (Nat.le_refl 8), hkept.salt l hl 9 (by decide)]
  exact h l hl

/-- The idle core: the lanes, the cursor and `LEN` are clear. -/
theorem inv_of_idle (hs : Steady s) (hph : s.ph = phIdle) (hbusy : s.busy = false)
    (hclear : LanesClear s) (hlen : s.len = 0) : Inv s :=
  { hs with
    phase := by simp [hph]
    busy := by simp [hph, hbusy]
    scratch := fun _ => hclear
    idleLen := fun _ => hlen
    salt := by simp [hph]
    absorbing := by simp [hph]
    tail := by simp [hph]
    absorbed := by simp [hph]
    cursor := by simp [hph]
    padded := by simp [hph]
    flushed := by simp [hph]
    clean := by simp [hph]
    openByte := by simp [hph] }

/-- `INIT` starts from a clear core (R241). -/
theorem inv_of_init (hs : Steady s) (hph : s.ph = phInit) (hbusy : s.busy = true)
    (hclear : LanesClear s) : Inv s :=
  { hs with
    phase := by simp [hph]
    busy := by simp [hph, hbusy]
    scratch := fun _ => hclear
    idleLen := by simp [hph]
    salt := by simp [hph]
    absorbing := by simp [hph]
    tail := by simp [hph]
    absorbed := by simp [hph]
    cursor := by simp [hph]
    padded := by simp [hph]
    flushed := by simp [hph]
    clean := by simp [hph]
    openByte := by simp [hph] }

/-- A core that absorbs: the cursor is at rest in a clean block, and the counters add up (R29, R30). -/
theorem inv_of_absorbing (hs : Steady s) (hph : s.ph = phAbsf ∨ s.ph = phAbsp) (hbusy : s.busy = true)
    (hcount : s.i = 0 ∧ s.nl = 0 ∧ 8 * s.ptr.toNat + s.rem.toNat = s.len.toNat ∧ s.ptr.toNat % 8 = 0)
    (htail : s.ph = phAbsp → s.rem.toNat < 64) (hsalt : Salted s) (hclean : CleanFrom s.var 0 s) :
    Inv s := by
  have hfirst : firstCleanByte s = 0 := by rcases hph with h | h <;> simp [firstCleanByte, h]
  exact { hs with
    phase := by rcases hph with h | h <;> simp [h]
    busy := by rcases hph with h | h <;> simp [h, hbusy]
    scratch := by rcases hph with h | h <;> simp [h]
    idleLen := by rcases hph with h | h <;> simp [h]
    salt := fun _ => hsalt
    absorbing := fun _ => hcount
    tail := htail
    absorbed := by rcases hph with h | h <;> simp [h]
    cursor := by rcases hph with h | h <;> simp [h]
    padded := by rcases hph with h | h <;> simp [h]
    flushed := by rcases hph with h | h <;> simp [h]
    clean := fun _ => by rw [hfirst]; exact hclean
    openByte := by rcases hph with h | h <;> simp [h] }

/-- A core that encodes the lengths or pads: the whole message is absorbed, and the cursor stands in the block
where R139 says. -/
theorem inv_of_encoding (hs : Steady s) (hph : s.ph = phEncm ∨ s.ph = phEnck ∨ s.ph = phPad)
    (hbusy : s.busy = true) (habs : s.rem = 0 ∧ s.ptr.toNat = bytesOfBits s.len.toNat)
    (hpos : 8 * s.i.toNat + s.nl.toNat = cursorPosition s.ph s.len.toNat) (hsalt : Salted s)
    (hclean : CursorClean s.var s) : Inv s := by
  have hfirst : firstCleanByte s = s.i.toNat + 1 := by simp only [firstCleanByte, if_pos hph]
  exact { hs with
    phase := by rcases hph with h | h | h <;> simp [h]
    busy := by rcases hph with h | h | h <;> simp [h, hbusy]
    scratch := by rcases hph with h | h | h <;> simp [h]
    idleLen := by rcases hph with h | h | h <;> simp [h]
    salt := fun _ => hsalt
    absorbing := by rcases hph with h | h | h <;> simp [h]
    tail := by rcases hph with h | h | h <;> simp [h]
    absorbed := fun _ => habs
    cursor := fun _ => ⟨hclean.index, hpos⟩
    padded := by rcases hph with h | h | h <;> simp [h]
    flushed := by rcases hph with h | h | h <;> simp [h]
    clean := fun _ => by rw [hfirst]; exact hclean.clean
    openByte := fun _ => hclean.openByte }

/-- A padded core: the cursor stands after the closed pad byte, perhaps at the block's end (R25, R41). -/
theorem inv_of_padded (hs : Steady s) (hph : s.ph = phFlr) (hbusy : s.busy = true)
    (habs : s.rem = 0 ∧ s.ptr.toNat = bytesOfBits s.len.toNat)
    (hpos : s.nl = 0 ∧ s.i.toNat = cursorPosition s.ph s.len.toNat / 8 + 1) (hsalt : Salted s)
    (hclean : CleanFrom s.var s.i.toNat s) : Inv s := by
  have hfirst : firstCleanByte s = s.i.toNat := by simp [firstCleanByte, hph]
  exact { hs with
    phase := by simp [hph]
    busy := by simp [hph, hbusy]
    scratch := by simp [hph]
    idleLen := by simp [hph]
    salt := fun _ => hsalt
    absorbing := by simp [hph]
    tail := by simp [hph]
    absorbed := fun _ => habs
    cursor := by simp [hph]
    padded := fun _ => hpos
    flushed := by simp [hph]
    clean := fun _ => by rw [hfirst]; exact hclean
    openByte := by simp [hph] }

/-- A flushed core: the cursor is at rest in a clean block. -/
theorem inv_of_flushed (hs : Steady s) (hph : s.ph = phFin) (hbusy : s.busy = true)
    (habs : s.rem = 0 ∧ s.ptr.toNat = bytesOfBits s.len.toNat) (hpos : s.i = 0 ∧ s.nl = 0)
    (hsalt : Salted s) (hclean : CleanFrom s.var 0 s) : Inv s := by
  have hfirst : firstCleanByte s = 0 := by simp [firstCleanByte, hph]
  exact { hs with
    phase := by simp [hph]
    busy := by simp [hph, hbusy]
    scratch := by simp [hph]
    idleLen := by simp [hph]
    salt := fun _ => hsalt
    absorbing := by simp [hph]
    tail := by simp [hph]
    absorbed := fun _ => habs
    cursor := by simp [hph]
    padded := by simp [hph]
    flushed := fun _ => hpos
    clean := fun _ => by rw [hfirst]; exact hclean
    openByte := by simp [hph] }

/-- From `ENCM` to `PAD` the cursor is where R22 and R27 want it. -/
theorem Inv.cursorClean (h : Inv s) (hph : s.ph = phEncm ∨ s.ph = phEnck ∨ s.ph = phPad) :
    CursorClean s.var s := by
  have hfirst : firstCleanByte s = s.i.toNat + 1 := by simp only [firstCleanByte, if_pos hph]
  refine ⟨(h.cursor hph).1, fun l hl j hj => ?_, h.openByte hph⟩
  exact h.clean (by rcases hph with h | h | h <;> simp [h]) l hl j (by rwa [hfirst])

/-- While absorbing the whole block is clean. -/
theorem Inv.cleanFrom_zero (h : Inv s) (hph : s.ph = phAbsf ∨ s.ph = phAbsp) :
    CleanFrom s.var 0 s := by
  intro l hl j _ hj8
  refine h.clean (by rcases hph with h | h <;> simp [h]) l hl j ?_ hj8
  rcases hph with h | h <;> simp [firstCleanByte, h]

/-! ## The phases keep the invariant -/

/-- `INIT` (R163, R193). -/
theorem initPhase_inv (h : Inv s) (hbusy : s.busy = true)
    (hstep : initPhase C s.var s = .next t) : Inv t := by
  have hframe := initPhase_runFrame hstep
  have hblk : ∀ l, LaneUsed s.var l → t.blk l = saltedBlock (subKey s.key l) := by
    cases hstep
    intro l hl
    rcases hl with rfl | hv
    · cases s.var <;> rfl
    · rw [hv]; cases l <;> rfl
  have hcount : t.ph = phAbsf ∧ t.i = 0 ∧ t.nl = 0 ∧ t.rem = s.len ∧ t.ptr = 0 := by
    cases hstep
    exact ⟨rfl, rfl, rfl, by cases s.var <;> rfl, rfl⟩
  have hport : t.port = Port.idle := by
    cases hstep
    cases s.var <;> rfl
  have htwo : s.var = .narrow → t.tag2 = s.tag2 ∧ t.blk2 = s.blk2 := by
    cases hstep
    intro hv
    rw [hv]
    exact ⟨rfl, rfl⟩
  obtain ⟨hphase, hi, hnl, hrem, hptr⟩ := hcount
  refine inv_of_absorbing (h.steady.run hframe hport htwo) (.inl hphase) (hframe.busy_eq.trans hbusy)
    ⟨hi, hnl, ?_, ?_⟩ (by simp [hphase]) (fun l hl => ?_) (fun l hl j _ hj => ?_)
  · rw [hptr, hrem, hframe.len_eq]; simp
  · rw [hptr]; rfl
  · rw [hframe.var_eq] at hl
    rw [hblk l hl, hframe.key_eq, saltedBlock_at, saltedBlock_at]
    exact ⟨rfl, rfl⟩
  · rw [hframe.var_eq] at hl
    rw [hblk l hl, saltedBlock_at, if_neg (by omega), if_neg (by omega)]

/-- `ABSF` (R164, R194). -/
theorem absfPhase_inv (h : Inv s) (hph : s.ph = phAbsf) (hbusy : s.busy = true)
    (hstep : absfPhase C s.var s = .next t) : Inv t := by
  have hframe := absfPhase_runFrame hstep
  have hbusy' := hframe.busy_eq.trans hbusy
  obtain ⟨hi, hnl, hsum, halign⟩ := h.absorbing (.inl hph)
  have hsalted : Salted s := h.salt (by simp [hph])
  rcases absfPhase_next hstep with ⟨hrem, rfl⟩ | ⟨hrem, rfl⟩
  · have hkept := (absorbedFull_kept s.var s).trans (permute_kept C s.var (absorbedFull s.var s))
    have hkept' : LanesKept s.var s { permute C s.var (absorbedFull s.var s) with
        ptr := s.ptr + 8, rem := s.rem - 64, ph := phAbsf } :=
      ⟨hkept.laneTwo, hkept.salt, hkept.port⟩
    have hlen := s.len.isLt
    have hptr : (s.ptr + 8).toNat = s.ptr.toNat + 8 := by
      rw [BitVec.toNat_add, show (8 : BitVec 16).toNat = 8 from rfl]; omega
    have hrem' : (s.rem - 64).toNat = s.rem.toNat - 64 := by
      rw [BitVec.toNat_sub, show (64 : BitVec 16).toNat = 64 from rfl]; omega
    refine inv_of_absorbing (h.steady.kept hframe hkept') (.inl rfl) hbusy' ⟨?_, ?_, ?_, ?_⟩
      (by simp) (hsalted.kept hframe hkept') ?_
    · simpa using hi
    · simpa using hnl
    · rw [hframe.len_eq, ← hsum]
      change 8 * (s.ptr + 8).toNat + (s.rem - 64).toNat = _
      omega
    · change (s.ptr + 8).toNat % 8 = 0
      omega
    · rw [hframe.var_eq]
      exact permute_clean C s.var (absorbedFull s.var s) 0
  · have hkept : LanesKept s.var s { s with ph := phAbsp } :=
      ⟨fun _ => ⟨rfl, rfl⟩, fun _ _ _ _ => rfl, id⟩
    exact inv_of_absorbing (h.steady.kept hframe hkept) (.inr rfl) hbusy' ⟨hi, hnl, hsum, halign⟩
      (fun _ => hrem) hsalted (h.cleanFrom_zero (.inl hph))

/-- The masked last byte of the message holds `r` bits at the top (R165). -/
theorem tailMask_low (x : Byte) {r : Nat} (q : Nat) (hq : q < 8 - r) :
    (x &&& tailMask r).getLsbD q = false := by
  rw [BitVec.getLsbD_and, tailMask, low_bits_shifted _ _ _ hq, Bool.and_false]

/-- `ABSP` (R165, R195). -/
theorem abspPhase_inv (h : Inv s) (hph : s.ph = phAbsp) (hbusy : s.busy = true)
    (hstep : abspPhase s.var s = .next t) : Inv t := by
  have hframe := abspPhase_runFrame hstep
  obtain ⟨-, -, hsum, halign⟩ := h.absorbing (.inr hph)
  have hclean := h.cleanFrom_zero (.inr hph)
  obtain ⟨hrem, rfl⟩ := abspPhase_next hstep
  have hlen := s.len.isLt
  have hi : (BitVec.ofNat 4 (s.rem.toNat / 8)).toNat = s.rem.toNat / 8 := by
    rw [BitVec.toNat_ofNat]; omega
  have hnl := ofNat3_toNat (k := s.rem.toNat % 8) (by omega)
  have hkept := absorbedTail_kept (v := s.var) hrem
  have hkept' : LanesKept s.var s { absorbedTail s.var s with
      i := BitVec.ofNat 4 (s.rem.toNat / 8), nl := BitVec.ofNat 3 (s.rem.toNat % 8)
      ptr := s.ptr + BitVec.ofNat 16 (bytesOfBits s.rem.toNat), rem := 0, ph := phEncm } :=
    ⟨hkept.laneTwo, hkept.salt, hkept.port⟩
  refine inv_of_encoding (h.steady.kept hframe hkept') (.inl rfl) (hframe.busy_eq.trans hbusy)
    ⟨rfl, ?_⟩ ?_ (Salted.kept (h.salt (by simp [hph])) hframe hkept') ?_
  · rw [hframe.len_eq, ← hsum]
    change (s.ptr + BitVec.ofNat 16 (bytesOfBits s.rem.toNat)).toNat = _
    simp only [bytesOfBits, BitVec.toNat_add, BitVec.toNat_ofNat]
    omega
  · rw [hframe.len_eq, ← hsum]
    change 8 * (BitVec.ofNat 4 (s.rem.toNat / 8)).toNat + (BitVec.ofNat 3 (s.rem.toNat % 8)).toNat = _
    rw [hi, hnl]
    simp only [cursorPosition, if_true]
    omega
  · rw [hframe.var_eq]
    refine ⟨?_, fun l hl j hj hj8 => ?_, fun l hl => ?_⟩
    all_goals dsimp only at *
    all_goals rw [hi] at *
    · omega
    · change ((absorbedTail s.var s).blk l).at j = 0
      rw [absorbedTail_at hl hrem, if_neg (by omega), if_neg (by omega)]
      exact hclean l hl j (Nat.zero_le j) hj8
    · change (((absorbedTail s.var s).blk l).at (s.rem.toNat / 8)).toNat % _ = 0
      rw [hnl, absorbedTail_at hl hrem, if_neg (Nat.lt_irrefl _), low_bits_zero_iff]
      intro q hq
      split
      · exact tailMask_low _ q hq
      · rw [hclean l hl _ (Nat.zero_le _) (by omega)]
        simp

/-- `ENCM` and `ENCK`: the value's bits are written and the phase moves on (R166, R167, R196, R197). -/
theorem emit_then_phase_inv {V : BitVec 16} {next : BitVec 4} (h : Inv s)
    (hph : s.ph = phEncm ∨ s.ph = phEnck) (hbusy : s.busy = true)
    (hnext : next = phEnck ∨ next = phPad)
    (hpos : (cursorPosition s.ph s.len.toNat + numLen V.toNat) % 64 =
      cursorPosition next s.len.toNat)
    (hstep : (andThen (emit C s.var V s) fun u => .next { u with ph := next }) = .next t) :
    Inv t := by
  have hphase : s.ph = phEncm ∨ s.ph = phEnck ∨ s.ph = phPad := by
    rcases hph with h | h <;> simp [h]
  have hlow : 2 ≤ s.ph.toNat ∧ 4 ≤ s.ph.toNat := by rcases hph with h | h <;> simp [h]
  have hframe := emit_then_phase_runFrame hstep
  obtain ⟨hi, rfl⟩ := emit_then_phase_next hstep
  have hwrites := emitBits_writes (C := C) (h.cursorClean hphase) V.toNat (numLen V.toNat)
  have hlanes := emitBits_frame C s s.var V.toNat (numLen V.toNat)
  unfold LaneFrame at hlanes
  have hkept : LanesKept s.var s
      { emitBits C s.var V.toNat (numLen V.toNat) s with ph := next } :=
    ⟨hwrites.kept.laneTwo, hwrites.kept.salt, hwrites.kept.port⟩
  refine inv_of_encoding (h.steady.kept hframe hkept) (.inr hnext) (hframe.busy_eq.trans hbusy) ?_ ?_
    (Salted.kept (h.salt hlow.1) hframe hkept) ?_
  · rw [hlanes]
    exact h.absorbed hlow.2
  · rw [hframe.len_eq, ← hpos, ← (h.cursor hphase).2]
    exact hwrites.position
  · rw [hframe.var_eq]
    exact ⟨hwrites.clean.index, hwrites.clean.clean, hwrites.clean.openByte⟩

/-- `ENCM` leaves the cursor after the length field (R139, R142). -/
theorem encmPhase_inv (h : Inv s) (hph : s.ph = phEncm) (hbusy : s.busy = true)
    (hstep : encmPhase C s.var s = .next t) : Inv t := by
  refine emit_then_phase_inv h (.inl hph) hbusy (.inl rfl) ?_ hstep
  simp [cursorPosition, hph]

/-- `ENCK` leaves the cursor after the key-length field, 80 in 7 bits (R6, R139). -/
theorem enckPhase_inv (h : Inv s) (hph : s.ph = phEnck) (hbusy : s.busy = true)
    (hstep : enckPhase C s.var s = .next t) : Inv t := by
  refine emit_then_phase_inv h (.inr hph) hbusy (.inr rfl) ?_ hstep
  have hwidth : numLen Config.keylenField.toNat = 7 := by decide
  simp [cursorPosition, hph, hwidth]

/-- `PAD` writes one bit only, at the position it finds (R139, R140). -/
theorem cursorPosition_flr (L : Nat) : cursorPosition phFlr L = cursorPosition phPad L := rfl

/-- `PAD` (R140, R168, R198). -/
theorem padPhase_inv (h : Inv s) (hph : s.ph = phPad) (hbusy : s.busy = true)
    (hstep : padPhase s.var s = .next t) : Inv t := by
  have hframe := padPhase_runFrame hstep
  obtain ⟨hi, rfl⟩ := padPhase_next hstep
  have hcursor := h.cursorClean (.inr (.inr hph))
  have hpos := (h.cursor (.inr (.inr hph))).2
  have hnl := s.nl.isLt
  generalize hu : orBlkByte s.var s.i.toNat (padMask s.nl.toNat) s = u at *
  have hui : u.i = s.i := by rw [← hu, orBlkByte_i]
  have hclean : CleanFrom s.var (s.i.toNat + 1) u := by
    rw [← hu]; exact hcursor.clean.or (Nat.lt_succ_self _) _
  have hkept : LanesKept s.var s (advanceByte s.var u) :=
    (hu ▸ orBlkByte_kept hi _ s).trans (advanceByte_kept (by rwa [hui]))
  have hkept' : LanesKept s.var s { advanceByte s.var u with ph := phFlr } :=
    ⟨hkept.laneTwo, hkept.salt, hkept.port⟩
  have hlanes : LaneFrame s (advanceByte s.var u) :=
    (hu ▸ orBlkByte_frame s s.var _ _).trans (advanceByte_frame u s.var)
  have hindex : (advanceByte s.var u).i.toNat = s.i.toNat + 1 := by
    rw [advanceByte_i, hui, advanced_index s hi]
  refine inv_of_padded (h.steady.kept hframe hkept') rfl (hframe.busy_eq.trans hbusy) ?_
    ⟨advanceByte_nl u s.var, hindex.trans ?_⟩ (Salted.kept (h.salt (by simp [hph])) hframe hkept') ?_
  · unfold LaneFrame at hlanes
    rw [hlanes]
    exact h.absorbed (by simp [hph])
  · rw [hframe.len_eq]
    change s.i.toNat + 1 = cursorPosition phFlr s.len.toNat / 8 + 1
    rw [cursorPosition_flr, ← hph, ← hpos]
    omega
  · rw [hframe.var_eq]
    change CleanFrom s.var (advanceByte s.var u).i.toNat (advanceByte s.var u)
    rw [hindex]
    exact hclean.advance (by rw [hui]; omega)

/-- `FLR` (R141, R169, R199). -/
theorem flrPhase_inv (h : Inv s) (hph : s.ph = phFlr) (hbusy : s.busy = true)
    (hstep : flrPhase C s.var s = .next t) : Inv t := by
  have hframe := flrPhase_runFrame hstep
  cases hstep
  have hkept := (fill_kept s.var s).trans (permute_kept C s.var (fill s.var s))
  have hkept' : LanesKept s.var s { permute C s.var (fill s.var s) with i := 0, ph := phFin } :=
    ⟨hkept.laneTwo, hkept.salt, hkept.port⟩
  have hlanes := (fill_frame s s.var).trans (permute_frame C (fill s.var s) s.var)
  refine inv_of_flushed (h.steady.kept hframe hkept') rfl (hframe.busy_eq.trans hbusy) ?_
    ⟨rfl, ?_⟩ (Salted.kept (h.salt (by simp [hph])) hframe hkept') ?_
  · unfold LaneFrame at hlanes
    rw [hlanes]
    exact h.absorbed (by simp [hph])
  · simpa using (h.padded hph).1
  · rw [hframe.var_eq]
    exact permute_clean C s.var (fill s.var s) 0

/-- A narrow tag fills the lower half of `OUT` (R171, R39). -/
theorem outputTag_narrow_upper (t1 t2 : Bytes 8) {j : Nat} (hj : 8 ≤ j) :
    (outputTag .narrow t1 t2).at j = 0 := by
  simp only [outputTag, Bytes.at_ofFn, if_neg (Nat.not_lt.mpr hj)]
  split <;> rfl

/-- What `FIN` leaves behind: the tag, the flags, a clear scratch state (R171, R172, R200). -/
theorem finPhase_next {v : Variant} (hstep : finPhase C v s = .next t) : ∃ t1 t2,
    t = { clearScratch s with
      out := outputTag v t1 t2, busy := false, done := true, ph := phIdle, port := Port.idle
      history := t.history } := by
  cases hstep
  cases v with
  | narrow => exact ⟨_, s.tag2, rfl⟩
  | wide => exact ⟨_, _, rfl⟩

/-- `FIN` (R171, R200). -/
theorem finPhase_inv (h : Inv s) (hbusy : s.busy = true) (hstep : finPhase C s.var s = .next t) :
    Inv t := by
  obtain ⟨herr, -⟩ := h.accepted hbusy
  obtain ⟨t1, t2, heq⟩ := finPhase_next hstep
  rw [heq]
  refine inv_of_idle ?_ rfl rfl ⟨rfl, rfl, rfl, rfl, rfl, rfl, rfl, rfl⟩ rfl
  exact { h.steady with
    port := rfl
    done := fun _ => ⟨rfl, herr⟩
    out := nofun
    outNarrow := fun hv j hj _ => by
      change s.var = .narrow at hv
      change (outputTag s.var t1 t2).at j = 0
      rw [hv, outputTag_narrow_upper t1 t2 hj]
    laneTwo := fun _ => ⟨rfl, rfl⟩
    accepted := nofun }

/-! ## The turns keep the invariant -/

theorem coreTurn_inv (h : Inv s) (hstep : coreTurn s = .next t) : Inv t := by
  rw [coreTurn_sequencer s (by rw [h.port]; rfl)] at hstep
  cases hbusy : s.busy with
  | false => rwa [sequencerTurn_notBusy hbusy hstep]
  | true =>
    rcases sequencerTurn_busy hbusy hstep with ⟨-, rfl⟩ | ⟨-, hop⟩ | ⟨hph, hop⟩ | ⟨hph, hop⟩ |
      ⟨hph, hop⟩ | ⟨hph, hop⟩ | ⟨hph, hop⟩ | ⟨hph, hop⟩ | ⟨-, hop⟩
    · exact h
    · exact initPhase_inv h hbusy hop
    · exact absfPhase_inv h hph hbusy hop
    · exact abspPhase_inv h hph hbusy hop
    · exact encmPhase_inv h hph hbusy hop
    · exact enckPhase_inv h hph hbusy hop
    · exact padPhase_inv h hph hbusy hop
    · exact flrPhase_inv h hph hbusy hop
    · exact finPhase_inv h hbusy hop

/-- The host's turns and the log are no part of the invariant. -/
theorem Inv.observed (h : Inv s) (hseen : ObserverFrame s t) : Inv t := by
  unfold ObserverFrame at hseen
  rw [hseen]
  exact { h with }

/-- With `BUSY = 0` the phase is `IDLE` (R23). -/
theorem Inv.idle_of_notBusy (h : Inv s) (hidle : s.busy = false) : s.ph = phIdle := by
  by_contra hph
  cases hidle.symm.trans (h.busy.mpr hph)

/-- No error has a reserved code (R33). -/
theorem errorCode_le (e : ErrorKind) : (errorCode e).toNat ≤ 4 := by cases e <;> decide

/-- An error raised in an idle core keeps the invariant, whatever `VAR` the command wrote. -/
theorem raise_inv (h : Inv s) (hidle : s.busy = false) (e : ErrorKind) (v : Variant) :
    Inv (raise e { s with var := v }) := by
  have hph := h.idle_of_notBusy hidle
  obtain ⟨-, htag2, -, hblk2, -⟩ := h.scratch (.inl hph)
  refine inv_of_idle ?_ hph hidle (h.scratch (.inl hph)) (h.idleLen hph)
  exact { h.steady with
    err := errorCode_le e
    done := nofun
    out := fun _ => rfl
    outNarrow := fun _ j _ _ => Bytes.at_zero 16 j
    laneTwo := fun _ => ⟨htag2, hblk2⟩
    accepted := fun hbusy => by cases hidle.symm.trans hbusy }

/-- A START keeps the invariant, accepted or not (R241, R243). -/
theorem startIdle_inv (h : Inv s) (hidle : s.busy = false) (v : Variant) : Inv (startIdle v s) := by
  rcases startIdle_cases v s with ⟨e, hfail⟩ | ⟨hlen, hkey, hbuf, hstart⟩
  · rw [hfail]
    exact raise_inv h hidle e v
  · have hph := h.idle_of_notBusy hidle
    obtain ⟨-, htag2, -, hblk2, -⟩ := h.scratch (.inl hph)
    have hlatch : (s.msglen.setWidth 16).toNat = s.msglen.toNat := by
      rw [BitVec.toNat_setWidth]; omega
    rw [hstart]
    refine inv_of_init ?_ rfl rfl (h.scratch (.inl hph))
    exact { h.steady with
      err := Nat.zero_le 4
      done := nofun
      out := fun _ => rfl
      outNarrow := fun _ j _ _ => Bytes.at_zero 16 j
      laneTwo := fun _ => ⟨htag2, hblk2⟩
      accepted := fun _ => ⟨rfl, hlatch.symm, hkey, by
        change bytesOfBits (s.msglen.setWidth 16).toNat ≤ _
        rwa [hlatch]⟩ }

/-- A write of the key or of a declared size while `BUSY = 0`. -/
theorem Inv.declared (h : Inv s) (hidle : s.busy = false)
    (hframe : t = { s with
      inbox := t.inbox, keysz := t.keysz, msglen := t.msglen, msgsz := t.msgsz, key := t.key }) :
    Inv t := by
  have hph := h.idle_of_notBusy hidle
  have hsteady : Steady t := by
    rw [hframe]
    exact { h.steady with accepted := fun hbusy => by cases hidle.symm.trans hbusy }
  rw [hframe] at hsteady ⊢
  exact inv_of_idle hsteady hph hidle (h.scratch (.inl hph)) (h.idleLen hph)

/-- The cleared registers meet the invariant over any message space in canonical form (R44, R290). -/
theorem reset_inv {m : Memory} (hm : m.wf = true) (inbox : List HostEvent) (history : List Event) :
    Inv { State.reset with msg := m, inbox := inbox, history := history } := by
  refine inv_of_idle ?_ rfl rfl ⟨rfl, rfl, rfl, rfl, rfl, rfl, rfl, rfl⟩ rfl
  exact {
    memory := hm
    port := rfl
    err := Nat.zero_le 4
    done := nofun
    out := fun _ => rfl
    outNarrow := fun _ j _ _ => Bytes.at_zero 16 j
    laneTwo := fun _ => ⟨rfl, rfl⟩
    accepted := nofun }

end Phases

/-- Settles O48: the reset state lists no byte, which is a canonical message space. -/
theorem resetMeetsInvariant : Obligations.ResetMeetsInvariant :=
  reset_inv reset_memory_wf [] []

/-- Settles O49, along the effects a step can have: the core's turn phase by phase, the host's by what it writes. -/
theorem stepKeepsInvariant : Obligations.StepKeepsInvariant := by
  intro s t h hstep
  cases stepEffect_of_step hstep with
  | core u seen turn => exact coreTurn_inv (h.observed seen) turn
  | observed seen => exact h.observed seen
  | placed a b rest heq =>
    rw [heq]
    exact { h with memory := Memory.wf_put _ _ _ a.isLt h.memory }
  | reset rest _ heq =>
    rw [heq]
    exact reset_inv h.memory rest s.history
  | declared hidle heq => exact h.declared hidle heq
  | started v d rest hidle _ _ heq =>
    rw [heq]
    exact startIdle_inv (h.observed (t := { s with inbox := rest }) rfl) hidle v
  | illegal rest hidle heq =>
    rw [heq]
    exact raise_inv (h.observed (t := { s with inbox := rest }) rfl) hidle .illegalCommand s.var

end Sys2Proof.Machine

/-! # The message space (20_memory.md): what is read of it, in what order, and where a read stops -/

namespace Sys2Proof.Machine

/-! ## The read check -/

section ReadCheck

variable {s : State} {a n : Nat} {m : Nat → Byte}

/-- A byte the core may read: it exists and the host holds it (R62, U3). -/
def Readable (s : State) (a : Nat) : Prop := a < s.msgsz.toNat ∧ (s.msg.get? a).isSome = true

/-- Bytes the host holds below `MSGSZ` pass the check. -/
theorem msgCheck_held (h : MessageHeld s a n m) : msgCheck s a n = .next () := by
  refine (msgCheck_next s n a).mpr fun j hj => ?_
  obtain ⟨hlt, hget⟩ := h j hj
  exact ⟨hlt, by rw [hget]; rfl⟩

theorem msgByte_held (h : MessageHeld s a n m) {j : Nat} (hj : j < n) : msgByte s (a + j) = m j := by
  rw [msgByte, (h j hj).2, Option.getD_some]

/-- The check stops at the first address at or above `MSGSZ` (R62). -/
theorem msgCheck_first_beyond {j : Nat} (hj : j < n) (hbefore : ∀ k, k < j → Readable s (a + k))
    (hbeyond : s.msgsz.toNat ≤ a + j) : msgCheck s a n = .fault .beyondMessageBuffer := by
  refine msgCheck_first s n j (.fault .beyondMessageBuffer) hj nofun a
    (fun k hk => (msgCheckOne_next s _).mpr (hbefore k hk)) ?_
  rw [msgCheckOne, if_neg (Nat.not_lt.mpr hbeyond)]

/-- The check stops at the first byte the host does not hold (U3). -/
theorem msgCheck_first_unheld {j : Nat} (hj : j < n) (hbefore : ∀ k, k < j → Readable s (a + k))
    (hexists : a + j < s.msgsz.toNat) (hnone : s.msg.get? (a + j) = none) :
    msgCheck s a n = .refused .messageByteNotHeld := by
  refine msgCheck_first s n j (.refused .messageByteNotHeld) hj nofun a
    (fun k hk => (msgCheckOne_next s _).mpr (hbefore k hk)) ?_
  rw [msgCheckOne, if_pos hexists, hnone]

end ReadCheck

/-! ## `ABSF` and `ABSP`: the check, then the effects -/

section Absorb

variable {C : Config} {v : Variant} {s : State} {m : Nat → Byte}

/-- The state an absorbing `ABSF` leaves (R164, R194). -/
def afterFull (C : Config) (v : Variant) (s : State) : State :=
  { permute C v (absorbedFull v s) with ptr := s.ptr + 8, rem := s.rem - 64, ph := phAbsf }

/-- The state `ABSP` leaves (R165, R195). -/
def afterTail (v : Variant) (s : State) : State :=
  { absorbedTail v s with
    i := BitVec.ofNat 4 (s.rem.toNat / 8), nl := BitVec.ofNat 3 (s.rem.toNat % 8)
    ptr := s.ptr + BitVec.ofNat 16 (bytesOfBits s.rem.toNat), rem := 0, ph := phEncm }

/-- With 64 bits or more remaining `ABSF` checks 8 addresses before any effect (R164, R194). -/
theorem absfPhase_reads (h : 64 ≤ s.rem.toNat) : absfPhase C v s =
    andThen (msgCheck s s.ptr.toNat 8) fun _ => .next (afterFull C v s) := by
  rw [absfPhase, if_pos h]
  cases v <;> rfl

/-- With fewer `ABSF` reads nothing. -/
theorem absfPhase_moves_on (h : s.rem.toNat < 64) :
    absfPhase C v s = .next { s with ph := phAbsp } := by
  rw [absfPhase, if_neg (Nat.not_le.mpr h)]

/-- `ABSP` checks the bytes of the tail before any effect (R165, R195). -/
theorem abspPhase_reads (h : s.rem.toNat < 64) : abspPhase v s =
    andThen (msgCheck s s.ptr.toNat (bytesOfBits s.rem.toNat)) fun _ => .next (afterTail v s) := by
  have hframe := absorbedTail_frame v s
  unfold LaneFrame at hframe
  have hptr : (absorbedTail v s).ptr = s.ptr := by rw [hframe]
  have hread : abspPhase v s = andThen (msgCheck s s.ptr.toNat (bytesOfBits s.rem.toNat)) fun _ =>
      .next { afterTail v s with
        ptr := (absorbedTail v s).ptr + BitVec.ofNat 16 (bytesOfBits s.rem.toNat) } := by
    rw [abspPhase, if_pos h]
    rfl
  rw [hread, hptr]
  rfl

theorem abspPhase_long_tail (h : 64 ≤ s.rem.toNat) : abspPhase v s = .fault .tailTooLong := by
  rw [abspPhase, if_neg (Nat.not_lt.mpr h)]

/-- `ABSF` over bytes the host holds. -/
theorem absfPhase_held (h : 64 ≤ s.rem.toNat) (hheld : MessageHeld s s.ptr.toNat 8 m) :
    absfPhase C v s = .next (afterFull C v s) := by
  rw [absfPhase_reads h, msgCheck_held hheld, andThen_next]

/-- `ABSP` over bytes the host holds. -/
theorem abspPhase_held (h : s.rem.toNat < 64)
    (hheld : MessageHeld s s.ptr.toNat (bytesOfBits s.rem.toNat) m) :
    abspPhase v s = .next (afterTail v s) := by
  rw [abspPhase_reads h, msgCheck_held hheld, andThen_next]

/-- The block `ABSF` makes of the bytes the host holds. -/
theorem absorbedBlock_held {n : Nat} (hheld : MessageHeld s s.ptr.toNat n m) (t : Bytes 8)
    (b : Bytes 10) : absorbedBlock s n t b =
      Vector.ofFn fun j => if j.val < n then m j.val ^^^ t.at j.val else b.at j.val := by
  refine congrArg Vector.ofFn (funext fun j => ?_)
  split
  · rw [msgByte_held hheld ‹_›]
  · rfl

end Absorb

/-! ## What the phases add to the log -/

/-- The full-encryption requests of a phase, one for each lane of the variant in order (R163, R193, R226). -/
def encryptRequests (v : Variant) (key : Bytes 20) (p : Lane → Bytes 8) : List Event :=
  match v with
  | .narrow => [.request 0x000 (p .one) (subKey key .one)]
  | .wide => [.request 0x000 (p .one) (subKey key .one), .request 0x002 (p .two) (subKey key .two)]

/-- The reads of `n` message bytes from address `a` on, ascending (R70). -/
def readEvents (a n : Nat) : List Event := (List.range n).map fun j => .msgRead (a + j)

section PhaseLogs

variable {C : Config} {v : Variant} {s t : State}

theorem initPhase_log (h : initPhase C v s = .next t) : t.port = Port.idle ∧
    t.history = s.history ++ encryptRequests v s.key (initialValue C) := by
  cases h
  cases v with
  | narrow => exact ⟨rfl, rfl⟩
  | wide => exact ⟨rfl, List.append_assoc _ [_] [_]⟩

theorem finPhase_log (h : finPhase C v s = .next t) : t.port = Port.idle ∧
    t.history = s.history ++ encryptRequests v s.key s.tag := by
  cases h
  cases v with
  | narrow => exact ⟨rfl, rfl⟩
  | wide => exact ⟨rfl, List.append_assoc _ [_] [_]⟩

theorem permute_log (C : Config) (v : Variant) (s : State) : (permute C v s).port = Port.idle ∧
    (permute C v s).history = s.history ++ permuteRequests s v := by
  obtain ⟨t1, t2, b1, b2, heq⟩ := (permute_spec C s v).2.2
  rw [heq]
  exact ⟨rfl, rfl⟩

@[simp] theorem fill_history (v : Variant) (s : State) : (fill v s).history = s.history := by
  cases v <;> rfl

@[simp] theorem absorbedFull_history (v : Variant) (s : State) :
    (absorbedFull v s).history = s.history ++ readEvents s.ptr.toNat 8 := by cases v <;> rfl

@[simp] theorem openTail_history (v : Variant) (nb r : Nat) (s : State) :
    (openTail v nb r s).history = s.history := by
  unfold openTail
  split
  · rfl
  · cases v <;> rfl

@[simp] theorem openTail_port (v : Variant) (nb r : Nat) (s : State) :
    (openTail v nb r s).port = s.port := by
  unfold openTail
  split
  · rfl
  · cases v <;> rfl

/-- The tail is read once, in the wide variant too, and the adapter is asked nothing (R74, R165, R195). -/
theorem afterTail_log (v : Variant) (s : State) : (afterTail v s).port = s.port ∧
    (afterTail v s).history = s.history ++ readEvents s.ptr.toNat (bytesOfBits s.rem.toNat) := by
  refine ⟨(openTail_port v _ _ _).trans ?_, (openTail_history v _ _ _).trans ?_⟩ <;> cases v <;> rfl

theorem flrPhase_log (h : flrPhase C v s = .next t) : t.port = Port.idle ∧
    t.history = s.history ++ permuteRequests (fill v s) v := by
  cases h
  have hlog := permute_log C v (fill v s)
  rwa [fill_history] at hlog

/-- An absorbing `ABSF` reads its 8 bytes, then makes its one permutation call. -/
theorem afterFull_log (C : Config) (v : Variant) (s : State) :
    (afterFull C v s).port = Port.idle ∧ (afterFull C v s).history =
      s.history ++ (readEvents s.ptr.toNat 8 ++ permuteRequests (absorbedFull v s) v) := by
  obtain ⟨hport, hhistory⟩ := permute_log C v (absorbedFull v s)
  exact ⟨hport, hhistory.trans (by rw [absorbedFull_history, List.append_assoc])⟩

end PhaseLogs

/-! ## The bits of the tail -/

section Tail

variable {v : Variant} {s : State} {m m' : Nat → Byte}

/-- Each bit of a byte is a message bit (R64). -/
theorem getLsbD_eq_messageBit (m : Nat → Byte) (j : Nat) {q : Nat} (hq : q < 8) :
    (m j).getLsbD q = messageBit m (8 * j + (7 - q)) := by
  rw [messageBit, show (8 * j + (7 - q)) / 8 = j by omega,
    show 7 - (8 * j + (7 - q)) % 8 = q by omega]

/-- A byte whose eight message bits agree is the same byte. -/
theorem byte_eq_of_messageBit {j : Nat}
    (h : ∀ b, b < 8 * j + 8 → messageBit m b = messageBit m' b) : m j = m' j := by
  refine BitVec.eq_of_getLsbD_eq fun q hq => ?_
  rw [getLsbD_eq_messageBit m j hq, getLsbD_eq_messageBit m' j hq]
  exact h _ (by omega)

/-- The masked bytes agree when their first `r` bits do (R165). -/
theorem masked_eq_of_messageBit {j r : Nat}
    (h : ∀ b, b < 8 * j + r → messageBit m b = messageBit m' b) :
    m j &&& tailMask r = m' j &&& tailMask r := by
  refine BitVec.eq_of_getLsbD_eq fun q hq => ?_
  by_cases hlow : q < 8 - r
  · rw [tailMask_low _ _ hlow, tailMask_low _ _ hlow]
  · rw [BitVec.getLsbD_and, BitVec.getLsbD_and, getLsbD_eq_messageBit m j hq,
      getLsbD_eq_messageBit m' j hq, h _ (by omega)]

/-- Other message bytes that are equal where they are absorbed make the same blocks. -/
theorem absorbBytes_congr {msg' : Memory} {n : Nat} (h : ∀ j, j < n →
      msgByte { s with msg := msg' } (s.ptr.toNat + j) = msgByte s (s.ptr.toNat + j)) :
    absorbBytes v n { s with msg := msg' } = { absorbBytes v n s with msg := msg' } := by
  have hblock (t : Bytes 8) (b : Bytes 10) :
      absorbedBlock { s with msg := msg' } n t b = absorbedBlock s n t b := by
    refine congrArg Vector.ofFn (funext fun j => ?_)
    split
    · exact congrArg (· ^^^ _) (h j ‹_›)
    · rfl
  cases v with
  | narrow =>
    exact congrArg (fun b => ({ s with msg := msg', blk1 := b } : State)) (hblock s.tag1 s.blk1)
  | wide =>
    exact congrArg₂ (fun b c => ({ s with msg := msg', blk1 := b, blk2 := c } : State))
      (hblock s.tag1 s.blk1) (hblock s.tag2 s.blk2)

/-- Another last byte that is equal under the mask leaves the same open byte. -/
theorem openTail_congr {msg' : Memory} {nb r : Nat} (h : r ≠ 0 →
      msgByte { s with msg := msg' } (s.ptr.toNat + nb) &&& tailMask r =
        msgByte s (s.ptr.toNat + nb) &&& tailMask r) :
    openTail v nb r { s with msg := msg' } = { openTail v nb r s with msg := msg' } := by
  unfold openTail
  split
  · rfl
  · rw [h ‹_›]
    cases v <;> rfl

/-- The tail depends on the message only through its complete bytes and the masked last one. -/
theorem absorbedTail_congr {msg' : Memory}
    (hfull : ∀ j, j < s.rem.toNat / 8 →
      msgByte { s with msg := msg' } (s.ptr.toNat + j) = msgByte s (s.ptr.toNat + j))
    (hopen : s.rem.toNat % 8 ≠ 0 →
      msgByte { s with msg := msg' } (s.ptr.toNat + s.rem.toNat / 8) &&& tailMask (s.rem.toNat % 8) =
        msgByte s (s.ptr.toNat + s.rem.toNat / 8) &&& tailMask (s.rem.toNat % 8)) :
    absorbedTail v { s with msg := msg' } = { absorbedTail v s with msg := msg' } := by
  unfold absorbedTail
  rw [absorbBytes_congr hfull]
  refine openTail_congr (s := noteMsgReads s.ptr.toNat (bytesOfBits s.rem.toNat)
    (absorbBytes v (s.rem.toNat / 8) s)) ?_
  cases v <;> exact hopen

end Tail

/-! ## The statements -/

/-- Settles O15: placing is one `put`, refused only where it would change the message. -/
theorem messageBytePlacement : Obligations.MessageBytePlacement := by
  intro s a b rest hinbox
  have hstep : step s = placeByte a.toNat b { s with inbox := rest } := step_cons s _ rest hinbox
  refine ⟨fun hfree => ?_, fun hbusy hinside hchange => ?_⟩
  · refine ⟨s.msg.put a.toNat b, ?_, by rw [Memory.get?_put, if_pos rfl],
      fun x hx => by rw [Memory.get?_put, if_neg hx.symm], Memory.wf_put _ _ _ a.isLt⟩
    rw [hstep]
    rcases placeByte_cases a.toNat b { s with inbox := rest } with ⟨-, hbusy, hinside, hchange⟩ | hput
    · rcases hfree with hidle | houtside | hsame
      · cases hidle.symm.trans hbusy
      · exact absurd hinside (Nat.not_lt.mpr houtside)
      · exact absurd hsame hchange
    · exact hput
  · rw [hstep, placeByte, if_pos ⟨hbusy, hinside, hchange⟩]

/-- Settles O27: both phases check their bytes in ascending order before any effect. -/
theorem messageReadStops : Obligations.MessageReadStops := by
  intro s
  refine ⟨fun hrem j hj hbefore => ⟨fun hbeyond => ?_, fun hexists hnone => ?_⟩,
    fun hrem j hj hbefore => ⟨fun hbeyond => ?_, fun hexists hnone => ?_⟩, fun hrem => ?_⟩
  · have hstop (v : Variant) : absfPhase Config.chip v s = .fault .beyondMessageBuffer := by
      rw [absfPhase_reads hrem, msgCheck_first_beyond hj hbefore hbeyond, andThen_fault]
    exact ⟨hstop .narrow, hstop .wide⟩
  · have hstop (v : Variant) : absfPhase Config.chip v s = .refused .messageByteNotHeld := by
      rw [absfPhase_reads hrem, msgCheck_first_unheld hj hbefore hexists hnone, andThen_refused]
    exact ⟨hstop .narrow, hstop .wide⟩
  · have hstop (v : Variant) : abspPhase v s = .fault .beyondMessageBuffer := by
      rw [abspPhase_reads hrem, bytesOfBits, msgCheck_first_beyond hj hbefore hbeyond, andThen_fault]
    exact ⟨hstop .narrow, hstop .wide⟩
  · have hstop (v : Variant) : abspPhase v s = .refused .messageByteNotHeld := by
      rw [abspPhase_reads hrem, bytesOfBits, msgCheck_first_unheld hj hbefore hexists hnone,
        andThen_refused]
    exact ⟨hstop .narrow, hstop .wide⟩
  · exact ⟨abspPhase_long_tail hrem, abspPhase_long_tail hrem⟩

/-- Settles O39: each phase's log, the blocks and seeds written out. -/
theorem phasesLogTheirRequests : Obligations.PhasesLogTheirRequests := by
  intro s
  refine ⟨⟨_, rfl, initPhase_log rfl⟩, ⟨_, rfl, initPhase_log rfl⟩, ⟨_, rfl, flrPhase_log rfl⟩,
    ⟨_, rfl, flrPhase_log rfl⟩, ⟨_, rfl, finPhase_log rfl⟩, ⟨_, rfl, finPhase_log rfl⟩,
    fun m hrem hheld => ?_⟩
  have hblock := absorbedBlock_held hheld
  refine ⟨⟨_, absfPhase_held hrem hheld, ?_⟩, ⟨_, absfPhase_held hrem hheld, ?_⟩⟩
  · beta_reduce
    rw [← hblock]
    exact afterFull_log Config.chip .narrow s
  · beta_reduce
    rw [← hblock, ← hblock]
    exact afterFull_log Config.chip .wide s

/-- Settles O40: the tail's reads are noted once, whatever the variant. -/
theorem tailLogsItsReads : Obligations.TailLogsItsReads := by
  intro s m hrem hheld
  exact ⟨⟨_, abspPhase_held hrem hheld, afterTail_log .narrow s⟩,
    ⟨_, abspPhase_held hrem hheld, afterTail_log .wide s⟩⟩

/-- Settles O26: the complete bytes agree bit by bit, the partial byte agrees under its mask. -/
theorem bitsBeyondLengthIgnored : Obligations.BitsBeyondLengthIgnored := by
  intro s msg' m m' hrem hheld hheld' hbits
  have hfull (j : Nat) (hj : j < s.rem.toNat / 8) :
      msgByte { s with msg := msg' } (s.ptr.toNat + j) = msgByte s (s.ptr.toNat + j) := by
    rw [msgByte_held hheld (by omega), msgByte_held hheld' (by omega)]
    exact (byte_eq_of_messageBit fun b hb => hbits b (by omega)).symm
  have hopen (hr : s.rem.toNat % 8 ≠ 0) :
      msgByte { s with msg := msg' } (s.ptr.toNat + s.rem.toNat / 8) &&& tailMask (s.rem.toNat % 8) =
        msgByte s (s.ptr.toNat + s.rem.toNat / 8) &&& tailMask (s.rem.toNat % 8) := by
    rw [msgByte_held hheld (by omega), msgByte_held hheld' (by omega)]
    exact (masked_eq_of_messageBit fun b hb => hbits b (by omega)).symm
  have htail (v : Variant) : ∃ t, abspPhase v s = .next t ∧
      abspPhase v { s with msg := msg' } = .next { t with msg := msg' } := by
    refine ⟨_, abspPhase_held hrem hheld, ?_⟩
    rw [abspPhase_held (s := { s with msg := msg' }) hrem hheld', afterTail,
      absorbedTail_congr hfull hopen]
    rfl
  exact ⟨htail .narrow, htail .wide⟩

end Sys2Proof.Machine

/-! # A whole invocation: no step faults, and it ends after its turns (R62, R97, R160, R176, R226) -/

namespace Sys2Proof.Machine

/-! ## The core's turn under the invariant -/

section CoreTurn

variable {s t : State} {m : Nat → Byte}

/-- The phases a busy core can be in, and what its turn then is (R96). -/
inductive PhaseTurn (s : State) : Prop
  | init (hph : s.ph = phInit) (heq : coreTurn s = initPhase Config.chip s.var s)
  | absf (hph : s.ph = phAbsf) (heq : coreTurn s = absfPhase Config.chip s.var s)
  | absp (hph : s.ph = phAbsp) (heq : coreTurn s = abspPhase s.var s)
  | encm (hph : s.ph = phEncm) (heq : coreTurn s = encmPhase Config.chip s.var s)
  | enck (hph : s.ph = phEnck) (heq : coreTurn s = enckPhase Config.chip s.var s)
  | pad (hph : s.ph = phPad) (heq : coreTurn s = padPhase s.var s)
  | flr (hph : s.ph = phFlr) (heq : coreTurn s = flrPhase Config.chip s.var s)
  | fin (hph : s.ph = phFin) (heq : coreTurn s = finPhase Config.chip s.var s)

/-- Under the invariant the port is idle, so the core's turn is the sequencer's. -/
theorem Inv.coreTurn_eq (h : Inv s) : coreTurn s = sequencerTurn s :=
  coreTurn_sequencer s (by rw [h.port]; rfl)

theorem Inv.phaseTurn (h : Inv s) (hbusy : s.busy = true) : PhaseTurn s := by
  have hturn := h.coreTurn_eq
  rw [sequencerTurn_eq, hbusy] at hturn
  rcases phaseOp_cases s.var s.ph with ⟨hres, -⟩ | ⟨hph, -⟩ | ⟨hph, hop⟩ | ⟨hph, hop⟩ | ⟨hph, hop⟩ |
    ⟨hph, hop⟩ | ⟨hph, hop⟩ | ⟨hph, hop⟩ | ⟨hph, hop⟩ | ⟨hph, hop⟩
  · exact absurd h.phase (by omega)
  · exact absurd hph (h.busy.mp hbusy)
  all_goals rw [hop] at hturn
  · exact .init hph (hturn.trans (by cases s.var <;> rfl))
  · exact .absf hph (hturn.trans (by cases s.var <;> rfl))
  · exact .absp hph (hturn.trans (by cases s.var <;> rfl))
  · exact .encm hph (hturn.trans (by cases s.var <;> rfl))
  · exact .enck hph (hturn.trans (by cases s.var <;> rfl))
  · exact .pad hph (hturn.trans (by cases s.var <;> rfl))
  · exact .flr hph (hturn.trans (by cases s.var <;> rfl))
  · exact .fin hph (hturn.trans (by cases s.var <;> rfl))

/-- With `BUSY = 0` the core's turn changes nothing (R13). -/
theorem Inv.coreTurn_idle (h : Inv s) (hidle : s.busy = false) : coreTurn s = .next s := by
  rw [h.coreTurn_eq, sequencerTurn_idle (h.idle_of_notBusy hidle)]

/-- While absorbing, the bytes that hold the next `n` of the remaining bits are bytes of the message (R64, R69). -/
theorem Inv.absorbing_inside (h : Inv s) (hph : s.ph = phAbsf ∨ s.ph = phAbsp) {n j : Nat}
    (hn : n ≤ s.rem.toNat) (hj : j < bytesOfBits n) : s.ptr.toNat + j < bytesOfBits s.len.toNat := by
  obtain ⟨-, -, hsum, -⟩ := h.absorbing hph
  simp only [bytesOfBits] at hj ⊢
  omega

/-- What START checked: the message lies below `MSGSZ` (R62). -/
theorem Inv.message_fits (h : Inv s) (hbusy : s.busy = true) :
    bytesOfBits s.len.toNat ≤ s.msgsz.toNat := by
  obtain ⟨-, -, -, hfits⟩ := h.accepted hbusy
  exact hfits

/-- The bytes of a block or of the tail, held as a part of the message. -/
theorem Inv.absorbing_held (h : Inv s) (hph : s.ph = phAbsf ∨ s.ph = phAbsp)
    (hheld : MessageHeld s 0 (bytesOfBits s.len.toNat) m) {n : Nat} (hn : n ≤ s.rem.toNat) :
    MessageHeld s s.ptr.toNat (bytesOfBits n) fun j => m (s.ptr.toNat + j) := by
  intro j hj
  simpa using hheld (s.ptr.toNat + j) (h.absorbing_inside hph hn hj)

/-! ## No turn faults -/

theorem noFault_next : NoFault (.next t) := nofun

theorem noFault_refused (r : Refusal) : NoFault (.refused r) := nofun

/-- A phase that reads only below `MSGSZ` does not fault. -/
theorem noFault_of_check {a n : Nat} (h : ∀ j, j < n → a + j < s.msgsz.toNat) :
    NoFault (andThen (msgCheck s a n) fun _ => .next t) := by
  cases hcheck : msgCheck s a n with
  | next _ => exact noFault_next
  | refused r => exact noFault_refused r
  | fault f =>
    obtain ⟨j, hj, hbeyond⟩ := msgCheck_fault s n a f hcheck
    exact absurd (h j hj) (Nat.not_lt.mpr hbeyond)

/-- With the cursor in the block `ENCM` and `ENCK` complete (R133). -/
theorem emit_then_phase_of_inside {C : Config} {v : Variant} {V : BitVec 16} {next : BitVec 4}
    (hi : s.i.toNat < 8) : (andThen (emit C v V s) fun u => .next { u with ph := next }) =
      .next { emitBits C v V.toNat (numLen V.toNat) s with ph := next } := by
  rw [emit, if_pos hi, andThen_next]

/-- With the cursor in the block `PAD` completes (R140). -/
theorem padPhase_of_inside {v : Variant} (hi : s.i.toNat < 8) : padPhase v s =
    .next { advanceByte v (orBlkByte v s.i.toNat (padMask s.nl.toNat) s) with ph := phFlr } := by
  rw [padPhase, padBit, if_pos hi, andThen_next]

/-- Under the invariant the core's turn does not fault. -/
theorem Inv.coreTurn_noFault (h : Inv s) : NoFault (coreTurn s) := by
  cases hbusy : s.busy with
  | false => rw [h.coreTurn_idle hbusy]; exact noFault_next
  | true =>
    have hfits := h.message_fits hbusy
    cases h.phaseTurn hbusy with
    | init _ heq => rw [heq]; exact noFault_next
    | absf hph heq =>
      rw [heq]
      by_cases hrem : 64 ≤ s.rem.toNat
      · rw [absfPhase_reads hrem]
        exact noFault_of_check fun j hj =>
          Nat.lt_of_lt_of_le (h.absorbing_inside (.inl hph) hrem hj) hfits
      · rw [absfPhase_moves_on (by omega)]
        exact noFault_next
    | absp hph heq =>
      rw [heq, abspPhase_reads (h.tail hph)]
      exact noFault_of_check fun j hj =>
        Nat.lt_of_lt_of_le (h.absorbing_inside (.inr hph) (Nat.le_refl _) hj) hfits
    | encm hph heq =>
      rw [heq, encmPhase, emit_then_phase_of_inside (h.cursor (.inl hph)).1]
      exact noFault_next
    | enck hph heq =>
      rw [heq, enckPhase, emit_then_phase_of_inside (h.cursor (.inr (.inl hph))).1]
      exact noFault_next
    | pad hph heq =>
      rw [heq, padPhase_of_inside (h.cursor (.inr (.inr hph))).1]
      exact noFault_next
    | flr _ heq => rw [heq]; exact noFault_next
    | fin _ heq => rw [heq]; exact noFault_next

/-- A host write is refused, dropped, done or a command, and no command faults. -/
theorem hostWrite_noFault (n width : Nat) (d : BitVec 32) (s : State) :
    NoFault (hostWrite n width d s) := by
  rcases hostWrite_cases s n width d with ⟨-, heq⟩ | ⟨-, -, heq⟩ | ⟨-, hidle, -, heq⟩ | ⟨-, -, -, heq⟩
  · rw [heq]; exact noFault_refused _
  · rw [heq]; exact noFault_next
  · rw [heq]
    rcases commandWrite_cases (d.setWidth 8) hidle with ⟨v, -, hstart⟩ | hillegal
    · rw [hstart]; exact noFault_next
    · rw [hillegal]; exact noFault_next
  · rw [heq]; exact noFault_next

/-- Under the invariant no turn of the host faults. -/
theorem Inv.hostTurn_noFault (h : Inv s) (e : HostEvent) : NoFault (hostTurn e s) := by
  cases e with
  | core => exact h.coreTurn_noFault
  | wr n width d => exact hostWrite_noFault n width d s
  | rd n width =>
    change NoFault (hostRead n width s)
    unfold hostRead
    split
    · exact noFault_next
    · exact noFault_refused _
  | rdIfDone n => exact noFault_next
  | wait =>
    change NoFault (waitTurn s)
    cases hbusy : s.busy with
    | true =>
      have hseen : ObserverFrame s { noteHostRead 1 s with inbox := .wait :: s.inbox } := rfl
      rw [waitTurn_busy s hbusy]
      exact (h.observed hseen).coreTurn_noFault
    | false =>
      simp only [waitTurn, hbusy]
      exact noFault_next
  | place a b =>
    change NoFault (placeByte a.toNat b s)
    rcases placeByte_cases a.toNat b s with ⟨hrefused, -⟩ | hput
    · rw [hrefused]; exact noFault_refused _
    · rw [hput]; exact noFault_next
  | reset => exact noFault_next

end CoreTurn

/-- Settles O50: the core's turn phase by phase, the host's by what it answers. -/
theorem invariantStepsDoNotFault : Obligations.InvariantStepsDoNotFault := by
  intro s h
  rcases step_cases s with ⟨-, hstep⟩ | ⟨e, rest, -, hstep⟩
  · rw [hstep]
    exact h.coreTurn_noFault
  · rw [hstep]
    exact (h.observed (t := { s with inbox := rest }) rfl).hostTurn_noFault e

end Sys2Proof.Machine

/-! # The end of an invocation (R160, R226, R248, R303): the turns it takes and what stands in the log then -/

namespace Sys2Proof.Machine

/-! ## Runs, turn by turn -/

section Runs

variable {s t : State} {n n' : Nat} {P : State → Prop}

/-- A run goes on from the state of its first step. -/
theorem run_succ (h : step s = .next t) (k : Nat) :
    Host.Core.run Sys2Proof.core (k + 1) s = Host.Core.run Sys2Proof.core k t := by
  have hcore : Host.Core.step Sys2Proof.core s = .next t := h
  simp only [Host.Core.run, hcore]

@[simp] theorem coreTurns_zero (es : List HostEvent) : coreTurns es 0 = 0 := by
  cases es <;> rfl

/-- A run that has ended needs no turn. -/
theorem EndsAfter.ended (hidle : s.busy = false) (hP : P s) : EndsAfter 0 s P :=
  ⟨0, Nat.zero_le _, coreTurns_zero _, nofun, s, rfl, hidle, hP⟩

/-- One more turn in front of a run that ends; the turns counted as the core's are to add up. -/
theorem EndsAfter.turn (h : EndsAfter n t P) (hstep : step s = .next t) (hbusy : s.busy = true)
    (hlength : t.inbox.length + n + 1 ≤ s.inbox.length + n')
    (hcount : ∀ k, coreTurns t.inbox k = n → coreTurns s.inbox (k + 1) = n') :
    EndsAfter n' s P := by
  obtain ⟨k, hk, hturns, hbefore, u, hrun, hidle, hP⟩ := h
  refine ⟨k + 1, by omega, hcount k hturns, fun j hj => ?_, u, (run_succ hstep k).trans hrun, hidle, hP⟩
  cases j with
  | zero => exact ⟨s, rfl, hbusy⟩
  | succ j =>
    rw [run_succ hstep]
    exact hbefore j (by omega)

/-- A turn of the core when the host has none. -/
theorem EndsAfter.core_alone (h : EndsAfter n t P) (hstep : step s = .next t) (hbusy : s.busy = true)
    (hs : s.inbox = []) (ht : t.inbox = []) : EndsAfter (n + 1) s P := by
  refine h.turn hstep hbusy (by rw [hs, ht]; simp) fun k hk => ?_
  rw [ht] at hk
  rw [hs]
  cases k <;> exact congrArg (· + 1) hk

/-- A turn of the core at a `WAIT` of the host, which stays the next turn. -/
theorem EndsAfter.core_awaited {es : List HostEvent} (h : EndsAfter n t P) (hstep : step s = .next t)
    (hbusy : s.busy = true) (hs : s.inbox = .wait :: es) (ht : t.inbox = .wait :: es) :
    EndsAfter (n + 1) s P := by
  refine h.turn hstep hbusy (by rw [hs, ht]; omega) fun k hk => ?_
  rw [ht] at hk
  rw [hs]
  cases k <;> exact congrArg (· + 1) hk

/-- A turn of the core that the host leaves it. -/
theorem EndsAfter.core_given {es : List HostEvent} (h : EndsAfter n t P) (hstep : step s = .next t)
    (hbusy : s.busy = true) (hs : s.inbox = .core :: es) (ht : t.inbox = es) :
    EndsAfter (n + 1) s P := by
  refine h.turn hstep hbusy (by rw [hs, ht, List.length_cons]; omega) fun k hk => ?_
  rw [ht] at hk
  rw [hs, coreTurns, hk, Nat.add_comm]

/-- A turn of the host itself, which does not count. -/
theorem EndsAfter.host {e : HostEvent} {es : List HostEvent} (h : EndsAfter n t P)
    (hstep : step s = .next t) (hbusy : s.busy = true) (hs : s.inbox = e :: es) (ht : t.inbox = es)
    (hc : e ≠ .core) (hw : e ≠ .wait) : EndsAfter n s P := by
  refine h.turn hstep hbusy (by rw [hs, ht, List.length_cons]; omega) fun k hk => ?_
  rw [ht] at hk
  rw [hs, coreTurns, hk]
  · exact hw
  · exact hc

end Runs

/-! ## An invocation in progress -/

/-- `u` is a busy state of the invocation that `s` is a state of, with the message `m`. -/
structure Invocation (s : State) (m : Nat → Byte) (u : State) : Prop where
  inv : Inv u
  busy : u.busy = true
  var : u.var = s.var
  len : u.len = s.len
  held : MessageHeld u 0 (bytesOfBits u.len.toNat) m

/-- How many turns of the core a busy state is away from the end (R160). -/
def turnsLeft (s : State) : Nat :=
  if s.ph = phInit then s.len.toNat / 64 + 8
  else if s.ph = phAbsf then s.rem.toNat / 64 + 7
  else 9 - s.ph.toNat

section Progress

variable {s t u : State} {m : Nat → Byte} {n : Nat} {K P : State → Prop}

theorem turnsLeft_pos (h : Inv s) : 0 < turnsLeft s := by
  have hph := h.phase
  unfold turnsLeft
  split_ifs <;> omega

theorem turnsLeft_fin (hph : s.ph = phFin) : turnsLeft s = 1 := by simp [turnsLeft, hph]

/-- The core's turn writes none of the host's inputs. -/
theorem coreTurn_hostInputsKept (h : coreTurn s = .next t) : HostInputsKept s t := by
  cases hport : s.port.pending with
  | some header =>
    rw [coreTurn_adapter s header hport] at h
    rw [adapterTurn_next h]
    exact HostInputsKept.refl s
  | none =>
    rw [coreTurn_sequencer s hport, sequencerTurn] at h
    split at h
    · split at h
      · exact operationsLeaveHostInputs _ _ _ h
      · exact operationsLeaveHostInputs _ _ _ h
    · cases h

/-- Before `FIN` the core's turn keeps `VAR`, `LEN` and the flags too. -/
theorem Inv.coreTurn_runFrame (h : Inv s) (hbusy : s.busy = true) (hph : s.ph ≠ phFin)
    (hstep : coreTurn s = .next t) : RunFrame s t := by
  cases h.phaseTurn hbusy with
  | init _ heq => exact initPhase_runFrame (heq.symm.trans hstep)
  | absf _ heq => exact absfPhase_runFrame (heq.symm.trans hstep)
  | absp _ heq => exact abspPhase_runFrame (heq.symm.trans hstep)
  | encm _ heq => exact emit_then_phase_runFrame (heq.symm.trans hstep)
  | enck _ heq => exact emit_then_phase_runFrame (heq.symm.trans hstep)
  | pad _ heq => exact padPhase_runFrame (heq.symm.trans hstep)
  | flr _ heq => exact flrPhase_runFrame (heq.symm.trans hstep)
  | fin hfin _ => exact absurd hfin hph

/-- In `FIN` the core's turn is the last (R171). -/
theorem Inv.coreTurn_fin (h : Inv s) (hbusy : s.busy = true) (hph : s.ph = phFin)
    (hstep : coreTurn s = .next t) : finPhase Config.chip s.var s = .next t := by
  cases h.phaseTurn hbusy with
  | fin _ heq => exact heq.symm.trans hstep
  | init h' _ | absf h' _ | absp h' _ | encm h' _ | enck h' _ | pad h' _ | flr h' _ =>
    cases h'.symm.trans hph

/-- While the host holds the message the core's turn goes on. -/
theorem Invocation.coreTurn_next (h : Invocation s m u) : ∃ t, coreTurn u = .next t := by
  cases h.inv.phaseTurn h.busy with
  | init _ heq | flr _ heq | fin _ heq => exact ⟨_, heq⟩
  | absf hph heq =>
    by_cases hrem : 64 ≤ u.rem.toNat
    · exact ⟨_, heq.trans (absfPhase_held hrem (h.inv.absorbing_held (.inl hph) h.held hrem))⟩
    · exact ⟨_, heq.trans (absfPhase_moves_on (by omega))⟩
  | absp hph heq =>
    exact ⟨_, heq.trans (abspPhase_held (h.inv.tail hph)
      (h.inv.absorbing_held (.inr hph) h.held (Nat.le_refl _)))⟩
  | encm hph heq =>
    exact ⟨_, heq.trans (emit_then_phase_of_inside (h.inv.cursor (.inl hph)).1)⟩
  | enck hph heq =>
    exact ⟨_, heq.trans (emit_then_phase_of_inside (h.inv.cursor (.inr (.inl hph))).1)⟩
  | pad hph heq => exact ⟨_, heq.trans (padPhase_of_inside (h.inv.cursor (.inr (.inr hph))).1)⟩

/-- Before `FIN` the core's turn stays in the invocation. -/
theorem Invocation.step (h : Invocation s m u) (hph : u.ph ≠ phFin) (hstep : coreTurn u = .next t) :
    Invocation s m t := by
  have hframe := h.inv.coreTurn_runFrame h.busy hph hstep
  obtain ⟨-, -, -, hmsgsz, hmsg, -⟩ := coreTurn_hostInputsKept hstep
  have hheld : MessageHeld t 0 (bytesOfBits t.len.toNat) m := by
    unfold MessageHeld
    rw [hframe.len_eq, hmsgsz, hmsg]
    exact h.held
  exact ⟨coreTurn_inv h.inv hstep, hframe.busy_eq.trans h.busy, hframe.var_eq.trans h.var,
    hframe.len_eq.trans h.len, hheld⟩

/-- The host's undisturbing turns stay in the invocation. -/
theorem Invocation.observed {es : List HostEvent} (h : Invocation s m u)
    (hframe : HostFrame { u with inbox := es } t) : Invocation s m t := by
  obtain ⟨msg, seen, rfl, -, hwf, hsame⟩ := hframe
  refine ⟨{ h.inv with memory := hwf h.inv.memory }, h.busy, h.var, h.len, fun j hj => ?_⟩
  obtain ⟨hlt, hget⟩ := h.held j hj
  exact ⟨hlt, (hsame _ (by simpa using hj)).trans hget⟩

theorem turnsLeft_observed {es : List HostEvent} (hframe : HostFrame { u with inbox := es } t) :
    turnsLeft t = turnsLeft u := by
  obtain ⟨msg, seen, rfl, -⟩ := hframe
  rfl

/-- What is undisturbing depends on the length and the bytes of the message only. -/
theorem undisturbing_of_same {e : HostEvent} (hlen : t.len = u.len)
    (hmsg : ∀ a, a < bytesOfBits u.len.toNat → t.msg.get? a = u.msg.get? a)
    (h : e.undisturbing u = true) : e.undisturbing t = true := by
  cases e with
  | place a b =>
    simp only [HostEvent.undisturbing, Bool.or_eq_true, decide_eq_true_eq, beq_iff_eq, hlen] at h ⊢
    by_cases ha : bytesOfBits u.len.toNat ≤ a.toNat
    · exact .inl ha
    · rw [hmsg _ (Nat.not_le.mp ha)]
      exact h
  | core | wait | rdIfDone _ | wr _ _ _ | rd _ _ | reset => exact h

theorem undisturbing_observed {e : HostEvent} {es : List HostEvent}
    (hframe : HostFrame { u with inbox := es } t) (h : e.undisturbing u = true) :
    e.undisturbing t = true := by
  obtain ⟨msg, seen, rfl, -, -, hsame⟩ := hframe
  exact undisturbing_of_same (u := u) rfl hsame h

theorem undisturbing_coreTurn {e : HostEvent} (hu : Invocation s m u) (hph : u.ph ≠ phFin)
    (hstep : coreTurn u = .next t) (h : e.undisturbing u = true) : e.undisturbing t = true := by
  obtain ⟨-, -, -, -, hmsg, -⟩ := coreTurn_hostInputsKept hstep
  exact undisturbing_of_same (hu.inv.coreTurn_runFrame hu.busy hph hstep).len_eq
    (fun a _ => by rw [hmsg]) h

/-- What is to be shown of an invocation to know that `P` holds at its end: a property `K` of its busy states
that the host does not disturb, that the core's turns keep, and that `FIN` turns into `P`. -/
structure RunProperty (s : State) (m : Nat → Byte) (K P : State → Prop) : Prop where
  observed : ∀ {u t es}, K u → HostFrame { u with inbox := es } t → K t
  turn : ∀ {u t}, Invocation s m u → K u → coreTurn u = .next t → u.ph ≠ phFin →
    K t ∧ turnsLeft u = turnsLeft t + 1
  final : ∀ {u t}, Invocation s m u → K u → u.ph = phFin →
    finPhase Config.chip u.var u = .next t → P t

/-- A state of a run: in the invocation, with the property, `n` turns of the core from the end, and only
undisturbing turns of the host to come. -/
structure OnTrack (s : State) (m : Nat → Byte) (K : State → Prop) (n : Nat) (u : State) : Prop where
  invocation : Invocation s m u
  property : K u
  turns : turnsLeft u = n
  undisturbed : ∀ e ∈ u.inbox, e.undisturbing u = true

/-- An undisturbing turn of the host, or one taken off, stays on track. -/
theorem OnTrack.observed {es : List HostEvent} (h : OnTrack s m K n u) (hrun : RunProperty s m K P)
    (hframe : HostFrame { u with inbox := es } t) (hes : ∀ e ∈ es, e ∈ u.inbox) :
    OnTrack s m K n t where
  invocation := h.invocation.observed hframe
  property := hrun.observed h.property hframe
  turns := (turnsLeft_observed hframe).trans h.turns
  undisturbed e he := by
    have hinbox : t.inbox = es := by
      obtain ⟨msg, seen, rfl, -⟩ := hframe
      rfl
    rw [hinbox] at he
    exact undisturbing_observed hframe (h.undisturbed e (hes e he))

/-- The core's turn takes one off the turns left; the last of them is `FIN`. -/
theorem OnTrack.coreTurn (h : OnTrack s m K (n + 1) u) (hrun : RunProperty s m K P)
    (hnext : ∀ t, OnTrack s m K n t → EndsAfter n t P) :
    ∃ t, coreTurn u = .next t ∧ t.inbox = u.inbox ∧ EndsAfter n t P := by
  obtain ⟨hu, hK, hn, hes⟩ := h
  obtain ⟨t, hstep⟩ := hu.coreTurn_next
  obtain ⟨-, -, -, -, -, hinbox⟩ := coreTurn_hostInputsKept hstep
  refine ⟨t, hstep, hinbox, ?_⟩
  by_cases hph : u.ph = phFin
  · have hfin := hu.inv.coreTurn_fin hu.busy hph hstep
    have hlast := turnsLeft_fin hph
    obtain rfl : n = 0 := by omega
    exact .ended (finPhase_flags hfin).1 (hrun.final hu hK hph hfin)
  · obtain ⟨hKt, hcount⟩ := hrun.turn hu hK hstep hph
    refine hnext t ⟨hu.step hph hstep, hKt, by omega, fun e he => ?_⟩
    rw [hinbox] at he
    exact undisturbing_coreTurn hu hph hstep (hes e he)

/-- The turns left count down with the turns of the core, whatever undisturbing turns the host has. -/
theorem OnTrack.endsAfter (h : OnTrack s m K n u) (hrun : RunProperty s m K P) :
    EndsAfter n u P := by
  induction n generalizing u with
  | zero =>
    have hpos := turnsLeft_pos h.invocation.inv
    rw [h.turns] at hpos
    exact absurd hpos (Nat.lt_irrefl 0)
  | succ n ih =>
    have hbusy := h.invocation.busy
    generalize hinbox : u.inbox = es
    induction es generalizing u with
    | nil =>
      obtain ⟨t, hturn, ht, hend⟩ := h.coreTurn hrun fun t ht => ih ht
      exact hend.core_alone ((step_nil u hinbox).trans hturn) hbusy hinbox (ht.trans hinbox)
    | cons e es ih' =>
      have hstep := step_cons u e es hinbox
      have htail : ∀ e' ∈ es, e' ∈ u.inbox := fun e' he => hinbox ▸ .tail e he
      have hrefl := HostFrame.refl { u with inbox := es }
      by_cases hc : e = .core
      · subst hc
        obtain ⟨t, hturn, ht, hend⟩ := (h.observed hrun hrefl htail).coreTurn hrun fun t ht => ih ht
        exact hend.core_given (hstep.trans hturn) hbusy hinbox ht
      by_cases hw : e = .wait
      · subst hw
        have hread := HostFrame.read { u with inbox := .wait :: es } 1
        obtain ⟨t, hturn, ht, hend⟩ := (h.observed hrun hread fun e' he => hinbox ▸ he).coreTurn hrun
          fun t ht => ih ht
        have hwait := waitTurn_busy { u with inbox := es } hbusy
        exact hend.core_awaited (hstep.trans (hwait.trans hturn)) hbusy hinbox ht
      · have hsafe := undisturbing_observed hrefl (h.undisturbed e (hinbox ▸ .head es))
        obtain ⟨t, hturn, hframe⟩ :=
          hostTurn_undisturbing { u with inbox := es } e hbusy hsafe hc hw
        have ht : t.inbox = es := by
          obtain ⟨msg, seen, rfl, -⟩ := hframe
          rfl
        have hon := h.observed hrun hframe htail
        exact (ih' hon hon.invocation.busy ht).host (hstep.trans hturn) hbusy hinbox ht hc hw

end Progress

end Sys2Proof.Machine

/-! # What an invocation adds to the log (R70, R74, R226) -/

namespace Sys2Proof.Machine

/-- From `s` to `t` the log grew by entries of which `reads` are the message reads, in order, and `n` are adapter
requests. -/
def LogGrows (s t : State) (reads : List Event) (n : Nat) : Prop :=
  ∃ es, t.history = s.history ++ es ∧ es.filter Event.isMsgRead = reads ∧
    (es.filter Event.isRequest).length = n

/-- How many lanes a variant has, and so how many requests each of its permutation calls makes (R170, R192). -/
def laneCount : Variant → Nat
  | .narrow => 1
  | .wide => 2

/-- The bits of the padded stream written before a phase from `ENCM` to `FLR`, the pad bit aside (R103). -/
def streamPosition (ph : BitVec 4) (L : Nat) : Nat :=
  if ph = phEncm then L else if ph = phEnck then L + numLen L else L + numLen L + 7

/-- The cipher calls per lane an invocation has made before a phase: the one of `INIT`, and one for each full
block (R163, R226). -/
def callsBefore (ph : BitVec 4) (L p : Nat) : Nat :=
  if ph = phInit then 0
  else if ph = phAbsf ∨ ph = phAbsp then 1 + p / 8
  else if ph = phFin then 1 + blockCount L
  else 1 + streamPosition ph L / 64

theorem callsBefore_absorbing {ph : BitVec 4} (h : ph = phAbsf ∨ ph = phAbsp) (L p : Nat) :
    callsBefore ph L p = 1 + p / 8 := by
  rcases h with rfl | rfl <;> rfl

theorem callsBefore_encoding {ph : BitVec 4}
    (h : ph = phEncm ∨ ph = phEnck ∨ ph = phPad ∨ ph = phFlr) (L p : Nat) :
    callsBefore ph L p = 1 + streamPosition ph L / 64 := by
  rcases h with rfl | rfl | rfl | rfl <;> rfl

theorem callsBefore_fin (L p : Nat) : callsBefore phFin L p = 1 + blockCount L := rfl

/-- The last block is the one the pad bit stands in (R103). -/
theorem blockCount_eq (L : Nat) : blockCount L = streamPosition phFlr L / 64 + 1 := by
  have hflr : streamPosition phFlr L = L + numLen L + 7 := rfl
  rw [blockCount, hflr]
  omega

section Log

variable {s t u : State} {n n' : Nat} {v : Variant} {C : Config} {reads reads' : List Event}

theorem LogGrows.of_same (h : t.history = s.history) : LogGrows s t [] 0 :=
  ⟨[], by rw [h, List.append_nil], rfl, rfl⟩

theorem LogGrows.trans (h : LogGrows s t reads n) (h' : LogGrows t u reads' n') :
    LogGrows s u (reads ++ reads') (n + n') := by
  obtain ⟨es, heq, hreads, hcount⟩ := h
  obtain ⟨es', heq', hreads', hcount'⟩ := h'
  refine ⟨es ++ es', by rw [heq', heq, List.append_assoc], ?_, ?_⟩
  · rw [List.filter_append, hreads, hreads']
  · rw [List.filter_append, List.length_append, hcount, hcount']

/-- Requests alone, after other requests. -/
theorem LogGrows.trans_requests {k : Nat} (h : LogGrows s t [] n) (h' : LogGrows t u [] n')
    (hk : n + n' = k) : LogGrows s u [] k :=
  hk ▸ h.trans h'

/-- The log's growth read off its end. -/
theorem LogGrows.added (h : LogGrows s t reads n) :
    (s.added t).filter Event.isMsgRead = reads ∧
      ((s.added t).filter Event.isRequest).length = n := by
  obtain ⟨es, heq, hreads, hcount⟩ := h
  rw [State.added, heq, List.drop_left]
  exact ⟨hreads, hcount⟩

theorem LogGrows.of_encrypt {key : Bytes 20} {p : Lane → Bytes 8}
    (h : t.history = s.history ++ encryptRequests v key p) : LogGrows s t [] (laneCount v * 1) := by
  cases v <;> exact ⟨_, h, rfl, rfl⟩

theorem LogGrows.of_permute (h : t.history = s.history ++ permuteRequests u v) :
    LogGrows s t [] (laneCount v * 1) := by
  cases v <;> exact ⟨_, h, rfl, rfl⟩

theorem LogGrows.of_reads {a k : Nat} (h : t.history = s.history ++ readEvents a k) :
    LogGrows s t (readEvents a k) 0 := by
  refine ⟨_, h, ?_, ?_⟩
  · simp [readEvents, List.filter_map, Function.comp_def, Event.isMsgRead]
  · simp [readEvents, List.filter_map, Function.comp_def, Event.isRequest]

/-- Ascending reads after ascending reads, each byte once (R70). -/
theorem readEvents_append (a k : Nat) : readEvents 0 a ++ readEvents a k = readEvents 0 (a + k) := by
  simp [readEvents, List.range_add]

theorem permute_grows (C : Config) (v : Variant) (s : State) :
    LogGrows s (permute C v s) [] (laneCount v * 1) :=
  .of_permute (permute_log C v s).2

/-! ## The cursor's procedures: one permutation call for each full block -/

@[simp] theorem orBlkByte_history (j : Nat) (x : Byte) (s : State) :
    (orBlkByte v j x s).history = s.history := by cases v <;> rfl
@[simp] theorem writeBlkByte_history (j : Nat) (x : Byte) (s : State) :
    (writeBlkByte v j x s).history = s.history := by cases v <;> rfl
@[simp] theorem advanceByte_history (s : State) : (advanceByte v s).history = s.history := by
  cases v <;> rfl

theorem closeByte_grows (hi : s.i.toNat < 8) :
    LogGrows s (closeByte C v s) [] (laneCount v * ((s.i.toNat + 1) / 8)) := by
  by_cases h7 : s.i.toNat = 7
  · rw [closeByte_full C s v h7, h7]
    have hcall := permute_log C v (advanceByte v s)
    rw [advanceByte_history] at hcall
    exact .of_permute hcall.2
  · have hnone : (s.i.toNat + 1) / 8 = 0 := by omega
    rw [closeByte_inside C s v (by omega), hnone]
    exact .of_same (advanceByte_history s)

theorem or_close_grows (hi : s.i.toNat < 8) (x : Byte) :
    LogGrows s (closeByte C v (orBlkByte v s.i.toNat x s)) []
      (laneCount v * ((s.i.toNat + 1) / 8)) := by
  have hclose := closeByte_grows (C := C) (v := v) (s := orBlkByte v s.i.toNat x s)
    (by rwa [orBlkByte_i])
  rw [orBlkByte_i] at hclose
  exact (LogGrows.of_same (orBlkByte_history _ x s)).trans_requests hclose (Nat.zero_add _)

theorem write_close_grows (hi : s.i.toNat < 8) (x : Byte) :
    LogGrows s (closeByte C v (writeBlkByte v s.i.toNat x s)) []
      (laneCount v * ((s.i.toNat + 1) / 8)) := by
  have hclose := closeByte_grows (C := C) (v := v) (s := writeBlkByte v s.i.toNat x s)
    (by rwa [writeBlkByte_i])
  rw [writeBlkByte_i] at hclose
  exact (LogGrows.of_same (writeBlkByte_history _ x s)).trans_requests hclose (Nat.zero_add _)

theorem emitMiddle_grows (V n : Nat) : ∀ (r : Nat) {s : State}, ByteStart v s →
    LogGrows s (emitMiddle C v V n r s) [] (laneCount v * ((s.i.toNat + n) / 8)) := by
  induction n with
  | zero =>
    intro r s h
    rw [Nat.add_zero, Nat.div_eq_of_lt h.index]
    exact .of_same rfl
  | succ n ih =>
    intro r s h
    have hone := write_close_closes (C := C) h (middleSlice V r)
    refine (write_close_grows h.index _).trans_requests (ih (r - 8) hone.start) ?_
    rw [← Nat.mul_add, hone.index]
    exact congrArg (laneCount v * ·) (by omega)

theorem emitFit_grows (h : CursorClean v s) (V : Nat) (hn : s.nl.toNat + n ≤ 8) :
    LogGrows s (emitFit C v V n s) [] (laneCount v * ((8 * s.i.toNat + s.nl.toNat + n) / 64)) := by
  have hi := h.index
  unfold emitFit
  split
  · have hblocks : (8 * s.i.toNat + s.nl.toNat + n) / 64 = (s.i.toNat + 1) / 8 := by omega
    rw [hblocks]
    exact or_close_grows hi _
  · have hblocks : (8 * s.i.toNat + s.nl.toNat + n) / 64 = 0 := by omega
    rw [hblocks]
    exact .of_same (orBlkByte_history _ _ s)

theorem emitSpan_grows (h : CursorClean v s) (V : Nat) (hn : 8 < s.nl.toNat + n) :
    LogGrows s (emitSpan C v V n s) [] (laneCount v * ((8 * s.i.toNat + s.nl.toNat + n) / 64)) := by
  have hi := h.index
  have hhead := or_close_closes (C := C) h.index h.clean (headSlice V n (8 - s.nl.toNat))
  have hclosed := (or_close_grows (C := C) (v := v) hi (headSlice V n (8 - s.nl.toNat))).trans_requests
    (emitMiddle_grows (C := C) V ((n - (8 - s.nl.toNat)) / 8) (n - (8 - s.nl.toNat)) hhead.start) rfl
  refine hclosed.trans_requests (.of_same (writeBlkByte_history _ _ _)) ?_
  rw [Nat.add_zero, ← Nat.mul_add, hhead.index]
  exact congrArg (laneCount v * ·) (by omega)

/-- `EMIT` makes one permutation call when it reaches the block's end (R136, R139). -/
theorem emitBits_grows (h : CursorClean v s) (V n : Nat) :
    LogGrows s (emitBits C v V n s) [] (laneCount v * ((8 * s.i.toNat + s.nl.toNat + n) / 64)) := by
  unfold emitBits
  split
  · exact emitFit_grows h V ‹_›
  · exact emitSpan_grows h V (by omega)

end Log

/-! ## Phase by phase -/

/-- A phase before `FIN` that reads `k` message bytes and makes `c` cipher calls per lane. -/
structure PhaseAdvance (k c : Nat) (s t : State) : Prop where
  log : LogGrows s t (readEvents s.ptr.toNat k) (laneCount s.var * c)
  ptr : t.ptr.toNat = s.ptr.toNat + k
  calls : callsBefore t.ph s.len.toNat t.ptr.toNat = callsBefore s.ph s.len.toNat s.ptr.toNat + c
  turns : turnsLeft s = turnsLeft t + 1

section PhaseAdvance

variable {s t : State} {C : Config}

theorem turnsLeft_absf (hph : s.ph = phAbsf) : turnsLeft s = s.rem.toNat / 64 + 7 := by
  simp [turnsLeft, hph]

theorem turnsLeft_absp (hph : s.ph = phAbsp) : turnsLeft s = 6 := by simp [turnsLeft, hph]

/-- From `ABSP` on the turns are counted by the phase. -/
theorem turnsLeft_succ (hs : phAbsp.toNat ≤ s.ph.toNat) (ht : t.ph.toNat = s.ph.toNat + 1)
    (hfin : t.ph.toNat ≤ 8) : turnsLeft s = turnsLeft t + 1 := by
  have hlate {u : State} (hu : 3 ≤ u.ph.toNat) : turnsLeft u = 9 - u.ph.toNat := by
    rw [turnsLeft, if_neg, if_neg]
    all_goals
      intro h
      rw [h] at hu
      exact absurd hu (by decide)
  have hs' : 3 ≤ s.ph.toNat := hs
  rw [hlate hs', hlate (by omega)]
  omega

theorem initPhase_advance (h : Inv s) (hph : s.ph = phInit) (hstep : initPhase C s.var s = .next t) :
    PhaseAdvance 0 1 s t := by
  obtain ⟨-, -, -, -, -, -, -, hptr⟩ := h.scratch (.inr hph)
  have hlog := (initPhase_log hstep).2
  have ht : t.ph = phAbsf ∧ t.rem = s.len ∧ t.ptr = 0 := by
    cases hstep
    exact ⟨rfl, by cases s.var <;> rfl, rfl⟩
  obtain ⟨hphase, hrem, hptr'⟩ := ht
  refine ⟨.of_encrypt hlog, by rw [hptr, hptr']; rfl, by rw [hphase, hph, hptr', hptr]; rfl, ?_⟩
  rw [turnsLeft_absf hphase, hrem, turnsLeft, if_pos hph]

theorem absfPhase_advance (h : Inv s) (hph : s.ph = phAbsf)
    (hstep : absfPhase C s.var s = .next t) : ∃ k c, PhaseAdvance k c s t := by
  obtain ⟨-, -, hsum, -⟩ := h.absorbing (.inl hph)
  have hlen := s.len.isLt
  rcases absfPhase_next hstep with ⟨hrem, heq⟩ | ⟨hrem, rfl⟩
  · have hptr : t.ptr.toNat = s.ptr.toNat + 8 := by
      rw [heq, BitVec.toNat_add, show (8 : BitVec 16).toNat = 8 from rfl]; omega
    have hrem' : t.rem.toNat = s.rem.toNat - 64 := by
      rw [heq, BitVec.toNat_sub, show (64 : BitVec 16).toNat = 64 from rfl]; omega
    have hphase : t.ph = phAbsf := by rw [heq]
    have hreads : LogGrows s (absorbedFull s.var s) (readEvents s.ptr.toNat 8) 0 :=
      .of_reads (absorbedFull_history s.var s)
    have hlog := hreads.trans (permute_grows C s.var (absorbedFull s.var s))
    rw [List.append_nil, Nat.zero_add] at hlog
    refine ⟨8, 1, heq ▸ hlog, hptr, ?_, ?_⟩
    · rw [callsBefore_absorbing (.inl hphase), callsBefore_absorbing (.inl hph), hptr]
      omega
    · rw [turnsLeft_absf hph, turnsLeft_absf hphase, hrem']
      omega
  · refine ⟨0, 0, .of_same rfl, rfl, ?_, ?_⟩
    · rw [hph]
      rfl
    · rw [turnsLeft_absf hph, turnsLeft_absp rfl]
      omega

theorem abspPhase_advance (h : Inv s) (hph : s.ph = phAbsp)
    (hstep : abspPhase s.var s = .next t) : PhaseAdvance (bytesOfBits s.rem.toNat) 0 s t := by
  obtain ⟨-, -, hsum, halign⟩ := h.absorbing (.inr hph)
  have hlen := s.len.isLt
  have hrem := h.tail hph
  obtain ⟨-, heq⟩ := abspPhase_next hstep
  have hphase : t.ph = phEncm := by rw [heq]
  refine ⟨.of_reads ?_, ?_, ?_, turnsLeft_succ (by rw [hph]) (by rw [hphase, hph]; rfl)
    (by rw [hphase]; decide)⟩
  · rw [heq]
    exact (afterTail_log s.var s).2
  · rw [heq]
    simp only [bytesOfBits, BitVec.toNat_add, BitVec.toNat_ofNat]
    omega
  · rw [callsBefore_encoding (.inl hphase), callsBefore_absorbing (.inr hph), hphase]
    change 1 + s.len.toNat / 64 = _
    omega

/-- The cursor stands in the block where the stream's position says. -/
theorem cursorPosition_eq (ph : BitVec 4) (L : Nat) :
    cursorPosition ph L = streamPosition ph L % 64 := by
  unfold cursorPosition streamPosition
  split_ifs <;> rfl

/-- `ENCM` and `ENCK` move the stream's position on by the value's width, and make a call when the block
is full then (R139). -/
theorem emit_then_phase_advance {V : BitVec 16} {next : BitVec 4} (h : Inv s)
    (hph : s.ph = phEncm ∨ s.ph = phEnck) (hnext : next = phEnck ∨ next = phPad)
    (hturn : next.toNat = s.ph.toNat + 1)
    (hpos : streamPosition s.ph s.len.toNat + numLen V.toNat = streamPosition next s.len.toNat)
    (hstep : (andThen (emit C s.var V s) fun u => .next { u with ph := next }) = .next t) :
    ∃ c, PhaseAdvance 0 c s t := by
  have hcursor := (h.cursor (hph.imp_right .inl)).2
  rw [cursorPosition_eq] at hcursor
  have hgrows := emitBits_grows (C := C) (h.cursorClean (hph.imp_right .inl)) V.toNat (numLen V.toNat)
  have hlanes := emitBits_frame C s s.var V.toNat (numLen V.toNat)
  unfold LaneFrame at hlanes
  have hptr : (emitBits C s.var V.toNat (numLen V.toNat) s).ptr = s.ptr := by rw [hlanes]
  obtain ⟨-, rfl⟩ := emit_then_phase_next hstep
  refine ⟨_, hgrows, congrArg BitVec.toNat hptr, ?_, turnsLeft_succ ?_ hturn ?_⟩
  · rw [callsBefore_encoding (.inr (hnext.imp_right .inl)), callsBefore_encoding
      (hph.imp_right .inl)]
    omega
  · rcases hph with hph | hph <;> rw [hph] <;> decide
  · change next.toNat ≤ 8
    rcases hnext with rfl | rfl <;> decide

theorem padPhase_advance (hph : s.ph = phPad) (hstep : padPhase s.var s = .next t) :
    PhaseAdvance 0 0 s t := by
  obtain ⟨-, rfl⟩ := padPhase_next hstep
  have hptr : (advanceByte s.var (orBlkByte s.var s.i.toNat (padMask s.nl.toNat) s)).ptr = s.ptr := by
    cases s.var <;> rfl
  refine ⟨.of_same ((advanceByte_history _).trans (orBlkByte_history _ _ s)),
    congrArg BitVec.toNat hptr, ?_, turnsLeft_succ (by rw [hph]; decide) (by rw [hph]; rfl)
    (by decide : phFlr.toNat ≤ 8)⟩
  rw [hph]
  rfl

theorem flrPhase_advance (hph : s.ph = phFlr) (hstep : flrPhase C s.var s = .next t) :
    PhaseAdvance 0 1 s t := by
  have hlog := (flrPhase_log hstep).2
  have ht : t.ph = phFin ∧ t.ptr = s.ptr := by
    cases hstep
    exact ⟨rfl, by cases s.var <;> rfl⟩
  obtain ⟨hphase, hptr⟩ := ht
  refine ⟨.of_permute hlog, by rw [hptr]; rfl, ?_, turnsLeft_succ (by rw [hph]; decide)
    (by rw [hphase, hph]; rfl) (by rw [hphase]; decide)⟩
  rw [hphase, callsBefore_fin, blockCount_eq, hph]
  rfl

/-- Before `FIN` every turn of the core is a phase that moves the invocation on. -/
theorem Inv.coreTurn_advance (h : Inv s) (hbusy : s.busy = true) (hph : s.ph ≠ phFin)
    (hstep : coreTurn s = .next t) : ∃ k c, PhaseAdvance k c s t := by
  cases h.phaseTurn hbusy with
  | init hph heq => exact ⟨_, _, initPhase_advance h hph (heq.symm.trans hstep)⟩
  | absf hph heq => exact absfPhase_advance h hph (heq.symm.trans hstep)
  | absp hph heq => exact ⟨_, _, abspPhase_advance h hph (heq.symm.trans hstep)⟩
  | encm hph heq =>
    refine ⟨0, emit_then_phase_advance h (.inl hph) (.inl rfl) (by rw [hph]; rfl) ?_
      (heq.symm.trans hstep)⟩
    rw [hph]
    rfl
  | enck hph heq =>
    have hwidth : numLen Config.keylenField.toNat = 7 := by decide
    refine ⟨0, emit_then_phase_advance h (.inr hph) (.inr rfl) (by rw [hph]; rfl) ?_
      (heq.symm.trans hstep)⟩
    rw [hph, hwidth]
    rfl
  | pad hph heq => exact ⟨_, _, padPhase_advance hph (heq.symm.trans hstep)⟩
  | flr hph heq => exact ⟨_, _, flrPhase_advance hph (heq.symm.trans hstep)⟩
  | fin hfin _ => exact absurd hfin hph

end PhaseAdvance

/-! ## The whole invocation -/

/-- Since `s` the message bytes below `PTR` are read, and the requests before the phase are made. -/
def LogSoFar (s u : State) : Prop :=
  LogGrows s u (readEvents 0 u.ptr.toNat)
    (laneCount u.var * callsBefore u.ph u.len.toNat u.ptr.toNat)

/-- How an invocation that began at `s` leaves the core and the log (R160, R226). -/
def EndedWell (s t : State) : Prop :=
  t.ph = 0 ∧ t.done = true ∧ t.err = 0 ∧ LanesClear t ∧ t.len = 0 ∧
    LogGrows s t (readEvents 0 (bytesOfBits s.len.toNat))
      (laneCount s.var * (blockCount s.len.toNat + 2))

section Whole

variable {s t u : State} {m : Nat → Byte}

theorem LogSoFar.start (h : Inv s) (hph : s.ph = phInit) : LogSoFar s s := by
  obtain ⟨-, -, -, -, -, -, -, hptr⟩ := h.scratch (.inr hph)
  unfold LogSoFar
  rw [hptr, hph]
  exact .of_same rfl

/-- What the host reads is no message read of the core and no request. -/
theorem LogSoFar.observed {es : List HostEvent} (h : LogSoFar s u)
    (hframe : HostFrame { u with inbox := es } t) : LogSoFar s t := by
  obtain ⟨msg, seen, rfl, hseen, -⟩ := hframe
  have hreads : seen.filter Event.isMsgRead = [] :=
    List.filter_eq_nil_iff.mpr fun e he => by simp [(hseen e he).2]
  have hrequests : seen.filter Event.isRequest = [] :=
    List.filter_eq_nil_iff.mpr fun e he => by simp [(hseen e he).1]
  have hall := h.trans (n' := 0)
    (u := { u with inbox := es, msg := msg, history := u.history ++ seen })
    ⟨seen, rfl, hreads, congrArg List.length hrequests⟩
  rwa [List.append_nil, Nat.add_zero] at hall

theorem LogSoFar.turn {k c : Nat} (h : LogSoFar s u) (hframe : RunFrame u t)
    (hturn : PhaseAdvance k c u t) : LogSoFar s t := by
  unfold LogSoFar
  rw [hframe.var_eq, hframe.len_eq, hturn.calls, hturn.ptr, ← readEvents_append, Nat.mul_add]
  exact h.trans hturn.log

/-- `FIN` ends the invocation: the whole message is read, and each lane has its last call. -/
theorem LogSoFar.final (hu : Invocation s m u) (h : LogSoFar s u) (hph : u.ph = phFin)
    (hstep : finPhase Config.chip u.var u = .next t) : EndedWell s t := by
  have hinv := finPhase_inv hu.inv hu.busy hstep
  obtain ⟨-, hdone, hidle⟩ := finPhase_flags hstep
  obtain ⟨-, hptr⟩ := hu.inv.absorbed (by simp [hph])
  refine ⟨hidle, hdone, (hinv.done hdone).2, hinv.scratch (.inl hidle), hinv.idleLen hidle, ?_⟩
  have hall := h.trans (.of_encrypt (finPhase_log hstep).2)
  rw [List.append_nil, ← Nat.mul_add, hph, callsBefore_fin, hptr, hu.len, hu.var] at hall
  rwa [show blockCount s.len.toNat + 2 = 1 + blockCount s.len.toNat + 1 by omega]

/-- The log keeps step with the phases, and `FIN` ends the invocation. -/
theorem logSoFar_runProperty (s : State) (m : Nat → Byte) :
    RunProperty s m (LogSoFar s) (EndedWell s) where
  observed := LogSoFar.observed
  turn hu h hstep hph := by
    obtain ⟨k, c, hturn⟩ := hu.inv.coreTurn_advance hu.busy hph hstep
    exact ⟨h.turn (hu.inv.coreTurn_runFrame hu.busy hph hstep) hturn, hturn.turns⟩
  final := LogSoFar.final

end Whole

theorem EndsAfter.imp {n : Nat} {s : State} {P Q : State → Prop} (h : EndsAfter n s P)
    (hPQ : ∀ t, P t → Q t) : EndsAfter n s Q := by
  obtain ⟨k, hk, hturns, hbefore, t, hrun, hidle, hP⟩ := h
  exact ⟨k, hk, hturns, hbefore, t, hrun, hidle, hPQ t hP⟩

/-- Settles O51: the turns left count down from those of `INIT`, and the log keeps step with the phases. -/
theorem invocationEnds : Obligations.InvocationEnds := by
  intro s m hinv hph hes hheld
  have hbusy : s.busy = true := hinv.busy.mpr (by simp [hph])
  have hturns : turnsLeft s = s.len.toNat / 64 + 8 := if_pos hph
  have hstart : OnTrack s m (LogSoFar s) (s.len.toNat / 64 + 8) s :=
    ⟨⟨hinv, hbusy, rfl, rfl, hheld⟩, .start hinv hph, hturns, hes⟩
  refine (hstart.endsAfter (logSoFar_runProperty s m)).imp ?_
  rintro t ⟨hidle, hdone, herr, hclear, hlen, hlog⟩
  obtain ⟨hreads, hrequests⟩ := hlog.added
  refine ⟨hidle, hdone, herr, hclear, hlen, ?_, ?_⟩
  · simpa [readEvents, bytesOfBits] using hreads
  · rw [hrequests]
    cases s.var
    · exact Nat.one_mul _
    · exact Nat.mul_add 2 _ 2

end Sys2Proof.Machine

/-! # The encodings (30_encoding.md R91 to R98, R109): decode and encode agree, and both agree with the table -/

namespace Sys2Proof

/-! ## The fields of a word, put together again -/

/-- A bit read as a variant or a lane and written back is the same bit. -/
theorem bit_of_ite (b : BitVec 1) : (if b = 1 then 1 else 0 : BitVec 1) = b := by
  rcases BitVec.eq_zero_or_eq_one b with rfl | rfl <;> rfl

theorem phaseWordVar_bit (w : BitVec 5) : (phaseWordVar w).bit = w.extractLsb' 4 1 := by
  rw [phaseWordVar, apply_ite Variant.bit]
  exact bit_of_ite _

/-- A phase word is its variant bit and its phase code (R96). -/
theorem phaseWord_of_fields (w : BitVec 5) : phaseWord (phaseWordVar w) (phaseWordPh w) = w := by
  rw [phaseWord, phaseWordVar_bit, phaseWordPh]
  exact (BitVec.extractLsb'_append_extractLsb'_eq_extractLsb' rfl).trans BitVec.extractLsb'_eq_self

/-- `LANE` of a header, its bit 1 (R98). -/
def headerLane (w : BitVec 10) : Lane := if w.extractLsb' 1 1 = 1 then .two else .one

theorem headerLane_bit (w : BitVec 10) : (headerLane w).bit = w.extractLsb' 1 1 := by
  rw [headerLane, apply_ite Lane.bit]
  exact bit_of_ite _

/-- A header is its round count, its lane bit and its kind bit (R98). -/
theorem headerWord_of_fields (w : BitVec 10) :
    headerWord (w.extractLsb' 2 8) (headerLane w) (w.extractLsb' 0 1) = w := by
  have hhigh : w.extractLsb' 2 8 ++ w.extractLsb' 1 1 = w.extractLsb' 1 9 :=
    BitVec.extractLsb'_append_extractLsb'_eq_extractLsb' rfl
  rw [headerWord, headerLane_bit, hhigh]
  exact (BitVec.extractLsb'_append_extractLsb'_eq_extractLsb' rfl).trans BitVec.extractLsb'_eq_self

/-! ## Decode after encode, encode after decode -/

/-- The word of a well-formed operation decodes to it (R91, R96, R98). -/
theorem decode_encode {i : Instr} (h : i.wf = true) : decode (encode i) = .ok i := by
  cases i with
  | fe lane rounds =>
    obtain rfl : rounds = Config.roundsFull := by simpa [Instr.wf] using h
    cases lane <;> rfl
  | rre lane rounds =>
    obtain rfl : rounds = Config.rounds := by simpa [Instr.wf] using h
    cases lane <;> rfl
  | idle v => cases v <;> rfl
  | startN | startW => rfl
  | initN | absfN | abspN | encmN | enckN | padN | flrN | finN => rfl
  | initW | absfW | abspW | encmW | enckW | padW | flrW | finW => rfl

/-- The operation a phase and a variant select has the phase word of the two (R96). -/
theorem encode_phaseOp {v : Variant} {ph : BitVec 4} {i : Instr} (h : phaseOp v ph = .ok i) :
    i.wf = true ∧ encode i = .phase (phaseWord v ph) := by
  rcases Machine.phaseOp_cases v ph with ⟨-, hop⟩ | ⟨rfl, hop⟩ | ⟨rfl, hop⟩ | ⟨rfl, hop⟩ | ⟨rfl, hop⟩ |
    ⟨rfl, hop⟩ | ⟨rfl, hop⟩ | ⟨rfl, hop⟩ | ⟨rfl, hop⟩ | ⟨rfl, hop⟩
  all_goals cases hop.symm.trans h
  all_goals cases v <;> exact ⟨rfl, rfl⟩

/-- The decoder of headers, by the fields. -/
theorem decodeHeader_eq (w : BitVec 10) : decodeHeader w =
    if w.extractLsb' 0 1 = 0 then
      if w.extractLsb' 2 8 = Config.roundsFull then .ok (.fe (headerLane w) (w.extractLsb' 2 8))
      else .error .reservedHeader
    else if w.extractLsb' 2 8 = Config.rounds then .ok (.rre (headerLane w) (w.extractLsb' 2 8))
    else .error .reservedHeader := rfl

/-- What a header decodes to is the request of its lane and its kind, with the round count of that kind (R98). -/
theorem encode_decodeHeader {w : BitVec 10} {i : Instr} (h : decodeHeader w = .ok i) :
    i.wf = true ∧ encode i = .header w := by
  have hfields := headerWord_of_fields w
  rw [decodeHeader_eq] at h
  split_ifs at h with hkind hrounds hrounds <;> cases h
  · rw [hkind] at hfields
    exact ⟨beq_iff_eq.mpr hrounds, congrArg CodeWord.header hfields⟩
  · rw [(BitVec.eq_zero_or_eq_one _).resolve_left hkind] at hfields
    exact ⟨beq_iff_eq.mpr hrounds, congrArg CodeWord.header hfields⟩

/-- A word that decodes is the encoding of a well-formed operation. -/
theorem encode_of_decode {w : CodeWord} {i : Instr} (h : decode w = .ok i) :
    i.wf = true ∧ encode i = w := by
  cases w with
  | command c =>
    simp only [decode, decodeCommand] at h
    split_ifs at h with hN hW
    · cases h; exact ⟨rfl, congrArg CodeWord.command hN.symm⟩
    · cases h; exact ⟨rfl, congrArg CodeWord.command hW.symm⟩
  | phase p =>
    obtain ⟨hwf, hword⟩ := encode_phaseOp h
    exact ⟨hwf, by rw [hword, phaseWord_of_fields]⟩
  | header a => exact encode_decodeHeader h

/-! ## The operation table -/

/-- Each operation's word belongs to the row of its mnemonic (R109). -/
theorem encode_selected {i : Instr} (h : i.wf = true) :
    ∃ r ∈ opcodeTable, r.mnemonic = i.mnemonic ∧ r.selects (encode i) = true := by
  cases i with
  | fe lane rounds => exact Laws.EncodingInTable.fe lane rounds h
  | rre lane rounds => exact Laws.EncodingInTable.rre lane rounds h
  | idle v => exact Laws.EncodingInTable.idle v h
  | startN => exact Laws.EncodingInTable.startN h
  | startW => exact Laws.EncodingInTable.startW h
  | initN => exact Laws.EncodingInTable.initN h
  | absfN => exact Laws.EncodingInTable.absfN h
  | abspN => exact Laws.EncodingInTable.abspN h
  | encmN => exact Laws.EncodingInTable.encmN h
  | enckN => exact Laws.EncodingInTable.enckN h
  | padN => exact Laws.EncodingInTable.padN h
  | flrN => exact Laws.EncodingInTable.flrN h
  | finN => exact Laws.EncodingInTable.finN h
  | initW => exact Laws.EncodingInTable.initW h
  | absfW => exact Laws.EncodingInTable.absfW h
  | abspW => exact Laws.EncodingInTable.abspW h
  | encmW => exact Laws.EncodingInTable.encmW h
  | enckW => exact Laws.EncodingInTable.enckW h
  | padW => exact Laws.EncodingInTable.padW h
  | flrW => exact Laws.EncodingInTable.flrW h
  | finW => exact Laws.EncodingInTable.finW h

theorem selects_iff {r : OpcodeRow} {w : CodeWord} :
    r.selects w = true ↔ r.format = w.format ∧ w.value &&& r.mask = r.bits := by
  simp [OpcodeRow.selects]

/-- Two rows of the table that agree where both masks look are the same row. -/
theorem opcodeTable_apart : ∀ r ∈ opcodeTable, ∀ r' ∈ opcodeTable, r.format = r'.format →
    r.bits &&& r'.mask = r'.bits &&& r.mask → r = r' := by decide

/-- A word belongs to one row at most (R109). -/
theorem selects_unique {r r' : OpcodeRow} {w : CodeWord} (hr : r ∈ opcodeTable)
    (hr' : r' ∈ opcodeTable) (h : r.selects w = true) (h' : r'.selects w = true) : r = r' := by
  obtain ⟨hformat, hbits⟩ := selects_iff.mp h
  obtain ⟨hformat', hbits'⟩ := selects_iff.mp h'
  refine opcodeTable_apart r hr r' hr' (hformat.trans hformat'.symm) ?_
  rw [← hbits, ← hbits', Nat.and_assoc, Nat.and_assoc, Nat.and_comm r.mask]

/-- A row with a full mask has one word. -/
theorem eq_of_full_mask {n b : Nat} {w : BitVec n} (h : w.toNat &&& (2 ^ n - 1) = b) :
    w = BitVec.ofNat n b := by
  rw [Nat.and_two_pow_sub_one_of_lt_two_pow w.isLt] at h
  rw [← h, BitVec.ofNat_toNat, BitVec.setWidth_eq]

/-- Every phase word of a row decodes to an operation of the row's mnemonic (R96, R109). -/
theorem decode_selected_phase : ∀ w : BitVec 5, ∀ r ∈ opcodeTable, r.selects (.phase w) = true →
    (decode (.phase w)).toOption.map Instr.mnemonic = some r.mnemonic := by decide

/-- The rows of format H: a full mask, and the two commands (R91). -/
theorem row_of_command : ∀ r ∈ opcodeTable, r.format = .H → r.mask = 2 ^ 8 - 1 ∧
    (r.bits = 1 ∧ r.mnemonic = Instr.startN.mnemonic ∨
      r.bits = 2 ∧ r.mnemonic = Instr.startW.mnemonic) := by decide

/-- The rows of format A: every bit but `LANE` in the mask, and the two requests (R98). -/
theorem row_of_header : ∀ r ∈ opcodeTable, r.format = .A → r.mask = (0x3FD : BitVec 10).toNat ∧
    ((r.bits = 0x000 ∧ r.mnemonic = "FE") ∨ (r.bits = 0x041 ∧ r.mnemonic = "RRE")) := by decide

/-- The row's mask keeps `ROUNDS` and `KIND` of a header (R98). -/
theorem header_fields_of_mask (w : BitVec 10) :
    (w &&& 0x3FD).extractLsb' 2 8 = w.extractLsb' 2 8 ∧
      (w &&& 0x3FD).extractLsb' 0 1 = w.extractLsb' 0 1 := by
  constructor
  · rw [BitVec.extractLsb'_and]
    exact BitVec.and_allOnes
  · rw [BitVec.extractLsb'_and]
    exact BitVec.and_allOnes

/-- A header of a row decodes to the request of that row. -/
theorem decode_selected_header {w : BitVec 10} {r : OpcodeRow} (hr : r ∈ opcodeTable)
    (h : r.selects (.header w) = true) :
    ∃ i, decode (.header w) = .ok i ∧ i.mnemonic = r.mnemonic := by
  obtain ⟨hformat, hbits⟩ := selects_iff.mp h
  obtain ⟨hmask, hrow⟩ := row_of_header r hr hformat
  obtain ⟨hrounds, hkind⟩ := header_fields_of_mask w
  have hword : w &&& 0x3FD = BitVec.ofNat 10 r.bits := by
    apply BitVec.eq_of_toNat_eq
    rw [BitVec.toNat_and, ← hmask, ← hbits, BitVec.toNat_ofNat]
    exact (Nat.mod_eq_of_lt (Nat.and_lt_two_pow _ (by rw [hmask]; decide))).symm
  rw [hword] at hrounds hkind
  have hfields := headerWord_of_fields w
  rw [← hrounds, ← hkind] at hfields
  generalize headerLane w = lane at hfields
  rw [← hfields]
  rcases hrow with ⟨hb, hname⟩ | ⟨hb, hname⟩
  all_goals rw [hb, hname]
  · exact ⟨_, decode_encode (i := .fe lane Config.roundsFull) rfl, rfl⟩
  · exact ⟨_, decode_encode (i := .rre lane Config.rounds) rfl, rfl⟩

/-- A word of a row decodes to an operation of the row's mnemonic (R109). -/
theorem decode_selected {w : CodeWord} {r : OpcodeRow} (hr : r ∈ opcodeTable)
    (h : r.selects w = true) : ∃ i, decode w = .ok i ∧ i.mnemonic = r.mnemonic := by
  cases w with
  | command c =>
    obtain ⟨hformat, hbits⟩ := selects_iff.mp h
    obtain ⟨hmask, hrow⟩ := row_of_command r hr hformat
    have hword : c = BitVec.ofNat 8 r.bits := eq_of_full_mask (hmask ▸ hbits)
    rcases hrow with ⟨hb, hname⟩ | ⟨hb, hname⟩
    · exact ⟨.startN, by rw [hword, hb]; rfl, hname.symm⟩
    · exact ⟨.startW, by rw [hword, hb]; rfl, hname.symm⟩
  | phase p =>
    have hname := decode_selected_phase p r hr h
    cases hd : decode (.phase p) with
    | error e => rw [hd] at hname; cases hname
    | ok i => rw [hd] at hname; exact ⟨i, rfl, Option.some.inj hname⟩
  | header a => exact decode_selected_header hr h

/-! ## The statements -/

/-- Settles O1: a word that decodes is put together again from its fields, and each encoding decodes. -/
theorem decodeInvertsEncode : Obligations.DecodeInvertsEncode := by
  refine fun w i => ⟨encode_of_decode, ?_⟩
  rintro ⟨hwf, rfl⟩
  exact decode_encode hwf

/-- Settles O2: each word is decoded. -/
theorem specWordsDecode : Obligations.SpecWordsDecode := by
  unfold Obligations.SpecWordsDecode
  decide

/-- Settles O3: the encoding of the decoded operation stands in the row of its mnemonic, and rows that share a word
are the same row. -/
theorem decodeFollowsOpcodeTable : Obligations.DecodeFollowsOpcodeTable := by
  have hrow {w : CodeWord} {i : Instr} (h : decode w = .ok i) :
      ∃ r ∈ opcodeTable, r.mnemonic = i.mnemonic ∧ r.selects w = true := by
    obtain ⟨hwf, rfl⟩ := encode_of_decode h
    exact encode_selected hwf
  refine ⟨fun w i h => ?_, fun w r hr h => decode_selected hr h, fun w hnone => ?_⟩
  · obtain ⟨r, hr, hname, hselects⟩ := hrow h
    exact ⟨r, hr, hname, hselects, fun r' hr' h' => selects_unique hr' hr h' hselects⟩
  · cases hd : decode w with
    | error e => exact ⟨e, rfl⟩
    | ok i =>
      obtain ⟨r, hr, -, hselects⟩ := hrow hd
      cases (hnone r hr).symm.trans hselects

end Sys2Proof

/-! # What the step makes of a word, and the host's view of the core (R35, R93, R95, R97, R98, log 14) -/

namespace Sys2Proof.Machine

/-! ## Words placed for the next step -/

section Place

variable {s : State} {i : Instr}

theorem decodeTableWord_eq_some {nbits w : Nat} : decodeTableWord nbits w = some i ↔
    ∃ word, tableWord nbits w = some word ∧ decode word = .ok i := by
  unfold decodeTableWord
  cases tableWord nbits w with
  | none => simp
  | some word => cases hd : decode word <;> simp [hd]

/-- A word placed where the core looks for it is what the next step runs, its turn taken off (log 14). -/
theorem step_placeCodeWord {word : CodeWord} (hd : decode word = .ok i) :
    step (placeCodeWord word s) = exec i { placeCodeWord word s with inbox := s.inbox } := by
  obtain ⟨hphase, hheader, hcommand⟩ := stepRunsDecodedOperation
  cases word with
  | command c =>
    refine hcommand _ (c.setWidth 32) s.inbox i rfl rfl ?_
    rwa [BitVec.setWidth_setWidth_of_le c (by decide), BitVec.setWidth_eq]
  | phase w =>
    refine hphase _ i (.inr rfl) rfl ?_ ?_
    · change decide (phaseWordPh w ≠ 0) = true ∨ phaseWordPh w = 0
      rw [decide_eq_true_iff]
      exact (Decidable.em _).symm
    · change decode (.phase (phaseWord (phaseWordVar w) (phaseWordPh w))) = .ok i
      rwa [phaseWord_of_fields]
  | header w => exact hheader _ w i (.inr rfl) rfl hd

end Place

/-! ## Codes that select nothing -/

section Reserved

variable {s : State}

theorem phaseOp_reserved {ph : BitVec 4} (v : Variant) (h : 9 ≤ ph.toNat) :
    phaseOp v ph = .error .reservedPhase := by
  rcases phaseOp_cases v ph with ⟨-, hop⟩ | ⟨rfl, -⟩ | ⟨rfl, -⟩ | ⟨rfl, -⟩ | ⟨rfl, -⟩ | ⟨rfl, -⟩ |
    ⟨rfl, -⟩ | ⟨rfl, -⟩ | ⟨rfl, -⟩ | ⟨rfl, -⟩
  · exact hop
  all_goals exact absurd h (by decide)

/-- The only headers that decode are the four that are issued (R98). -/
theorem header_of_decode {header : BitVec 10} {i : Instr} (h : decode (.header header) = .ok i) :
    header = 0x000 ∨ header = 0x002 ∨ header = 0x041 ∨ header = 0x043 := by
  obtain ⟨hwf, hword⟩ := encode_of_decode h
  cases i with
  | fe lane rounds =>
    obtain rfl : rounds = Config.roundsFull := beq_iff_eq.mp hwf
    cases hword
    cases lane <;> decide
  | rre lane rounds =>
    obtain rfl : rounds = Config.rounds := beq_iff_eq.mp hwf
    cases hword
    cases lane <;> decide
  | _ => cases hword

theorem sequencerTurn_reserved (h : 9 ≤ s.ph.toNat) : sequencerTurn s = .fault .reservedPhase := by
  rw [sequencerTurn_eq, phaseOp_reserved s.var h]

theorem adapterTurn_reserved {header : BitVec 10} (h0 : header ≠ 0x000) (h2 : header ≠ 0x002)
    (h41 : header ≠ 0x041) (h43 : header ≠ 0x043) :
    adapterTurn header s = .fault .reservedHeader := by
  unfold adapterTurn
  cases hd : decode (.header header) with
  | error e => rfl
  | ok i =>
    rcases header_of_decode hd with h | h | h | h
    · exact absurd h h0
    · exact absurd h h2
    · exact absurd h h41
    · exact absurd h h43

end Reserved

/-! ## The status word, field by field (R95) -/

section Status

variable (s : State)

/-- Above the three flags stand the error code, a gap, the phase and a gap. -/
theorem statusWord_above_flags (start len : Nat) (h : 3 ≤ start) :
    (statusWord s).extractLsb' start len =
      ((0 : BitVec 4) ++ s.ph ++ (0 : BitVec 2) ++ s.err).extractLsb' (start - 3) len :=
  calc (statusWord s).extractLsb' start len
      = ((0 : BitVec 4) ++ s.ph ++ (0 : BitVec 2) ++ s.err ++ s.var.bit ++
          flagBit s.done).extractLsb' (start - 1) len :=
        BitVec.extractLsb'_append_eq_of_le (by omega)
    _ = ((0 : BitVec 4) ++ s.ph ++ (0 : BitVec 2) ++ s.err ++ s.var.bit).extractLsb'
          (start - 1 - 1) len := BitVec.extractLsb'_append_eq_of_le (by omega)
    _ = ((0 : BitVec 4) ++ s.ph ++ (0 : BitVec 2) ++ s.err).extractLsb' (start - 1 - 1 - 1) len :=
        BitVec.extractLsb'_append_eq_of_le (by omega)

/-- Above the error code stand a gap, the phase and a gap. -/
theorem statusWord_above_err (start len : Nat) (h : 6 ≤ start) :
    (statusWord s).extractLsb' start len =
      ((0 : BitVec 4) ++ s.ph ++ (0 : BitVec 2)).extractLsb' (start - 3 - 3) len :=
  (statusWord_above_flags s start len (by omega)).trans
    (BitVec.extractLsb'_append_eq_of_le (by omega))

/-- Above the lower gap stand the phase and a gap. -/
theorem statusWord_above_gap (start len : Nat) (h : 8 ≤ start) :
    (statusWord s).extractLsb' start len =
      ((0 : BitVec 4) ++ s.ph).extractLsb' (start - 3 - 3 - 2) len :=
  (statusWord_above_err s start len (by omega)).trans
    (BitVec.extractLsb'_append_eq_of_le (by omega))

theorem flagBit_getLsbD (b : Bool) : (flagBit b).getLsbD 0 = b := by cases b <;> rfl

theorem statusWord_busy : (statusWord s).getLsbD 0 = s.busy :=
  BitVec.getLsbD_append.trans (flagBit_getLsbD s.busy)

theorem statusWord_done : (statusWord s).getLsbD 1 = s.done :=
  BitVec.getLsbD_append.trans (BitVec.getLsbD_append.trans (flagBit_getLsbD s.done))

theorem statusWord_var : (statusWord s).getLsbD 2 = decide (s.var = .wide) :=
  BitVec.getLsbD_append.trans <| BitVec.getLsbD_append.trans <| BitVec.getLsbD_append.trans <| by
    cases s.var <;> rfl

end Status

/-! ## Accesses of the host -/

section Access

variable {s : State} {n w width : Nat} {d : BitVec 32} {rest : List HostEvent}

/-- A write of the whole of `STATUS` is dropped, busy or not (R95, R249). -/
theorem hostWrite_status (d : BitVec 32) (s : State) : hostWrite 1 16 d s = .next s := by
  have hstatus : hostReg 1 = .status := rfl
  rcases hostWrite_cases s 1 16 d with ⟨hpart, -⟩ | ⟨-, -, heq⟩ | ⟨-, -, hcmd, -⟩ | ⟨-, -, -, heq⟩
  · cases hpart
  · exact heq
  · cases hcmd
  · rw [heq, hstatus, writeReg]

/-- An access at another width is no access of the whole register (R93). -/
theorem wholeAccess_other {r : HostReg} (hw : r.width = some w) (hne : width ≠ w) :
    r.wholeAccess width = false := by
  simp [HostReg.wholeAccess, hw, hne]

theorem hostWrite_part (h : (hostReg n).wholeAccess width = false) :
    hostWrite n width d s = .refused .accessWidth := by
  simp [hostWrite, h]

theorem hostRead_part (h : (hostReg n).wholeAccess width = false) :
    hostRead n width s = .refused .accessWidth := by
  simp [hostRead, h]

end Access

/-! ## The statements -/

/-- Settles O5: a word of the table that decodes is placed as a command, a phase word or a header. -/
theorem fetchWordRunsNext : Obligations.FetchWordRunsNext := by
  intro s nbits w i h
  obtain ⟨word, hword, hd⟩ := decodeTableWord_eq_some.mp h
  have hplace : s.withFetchWord nbits w = placeCodeWord word s := by
    rw [State.withFetchWord, hword]
  rw [hplace]
  exact step_placeCodeWord hd

/-- Settles O7: neither decoder has an operation for a reserved code. -/
theorem reservedCodesAreStuck : Obligations.ReservedCodesAreStuck := by
  refine ⟨fun s hturn hport hph => ?_, fun s header hturn hport h0 h2 h41 h43 => ?_⟩
  · rw [step_coresTurn hturn, coreTurn_sequencer { s with inbox := s.inbox.tail } hport]
    exact sequencerTurn_reserved hph
  · rw [step_coresTurn hturn, coreTurn_adapter { s with inbox := s.inbox.tail } header hport]
    exact adapterTurn_reserved h0 h2 h41 h43

/-- Settles O9: each field is read off the word below the fields above it. -/
theorem statusWordLayout : Obligations.StatusWordLayout := by
  intro s rest d
  refine ⟨?_, ?_, ?_, ?_, statusWord_var s, statusWord_done s, statusWord_busy s, fun hinbox => ?_⟩
  · exact (statusWord_above_gap s 12 4 (by decide)).trans BitVec.extractLsb'_append_eq_left
  · exact (statusWord_above_gap s 8 4 (by decide)).trans BitVec.extractLsb'_append_eq_right
  · exact (statusWord_above_err s 6 2 (by decide)).trans BitVec.extractLsb'_append_eq_right
  · exact (statusWord_above_flags s 3 3 (by decide)).trans BitVec.extractLsb'_append_eq_right
  · rw [step_cons s _ rest hinbox]
    exact hostWrite_status d { s with inbox := rest }

/-- Settles O14: the width is looked at before anything else, at a write and at a read. -/
theorem otherWidthsAreRefused : Obligations.OtherWidthsAreRefused := by
  intro s n w width d rest hw hne
  have hpart := wholeAccess_other hw hne
  refine ⟨fun hinbox => ?_, fun hinbox => ?_⟩
  · rw [step_cons s _ rest hinbox]
    exact hostWrite_part hpart
  · rw [step_cons s _ rest hinbox]
    exact hostRead_part hpart

end Sys2Proof.Machine

/-! # The padded stream (30_encoding.md R99, R103, R104): its bits, and that it tells messages apart -/

namespace Sys2Proof.Machine

/-! ## The width of a number (R130) -/

theorem numLenUpTo_le_iff (k n w : Nat) (h : n ≤ k) : numLenUpTo k n ≤ w ↔ n < 2 ^ w := by
  induction k generalizing n w with
  | zero =>
    obtain rfl := Nat.le_zero.mp h
    simp [numLenUpTo]
  | succ k ih =>
    by_cases hn : n = 0
    · simp [numLenUpTo, hn]
    · rw [numLenUpTo, if_neg hn]
      cases w with
      | zero => omega
      | succ w =>
        have hhalf := ih (n / 2) w (by omega)
        rw [Nat.pow_succ]
        omega

/-- The width is the least number of bits a number fits into (R130). -/
theorem numLen_le_iff {n w : Nat} : numLen n ≤ w ↔ n < 2 ^ w :=
  numLenUpTo_le_iff n n w (Nat.le_refl n)

theorem lt_two_pow_numLen (n : Nat) : n < 2 ^ numLen n := numLen_le_iff.mp (Nat.le_refl _)

theorem numLen_mono {n n' : Nat} (h : n ≤ n') : numLen n ≤ numLen n' :=
  numLen_le_iff.mpr (h.trans_lt (lt_two_pow_numLen n'))

theorem numLen_keylen : numLen 80 = 7 := by decide

/-! ## Bits and bytes -/

/-- The byte read at a position holds the eight bits from there on, most significant first (R132). -/
theorem byteFrom_getLsbD (bits : List Bool) (p : Nat) {q : Nat} (hq : q < 8) :
    (byteFrom bits p).getLsbD (7 - q) = bits.getD (p + q) false := by
  have hlow : 7 - q < 8 := by omega
  have hindex : 8 - 1 - (7 - q) = q := by omega
  rw [byteFrom, BitVec.getLsbD_setWidth, BitVec.getLsbD_ofBoolListBE, List.length_map,
    List.length_range, hindex]
  simp [hlow, hq]

/-- The bits of the bytes read one after the other are the bits they are read from. -/
theorem messageBit_byteFrom (bits : List Bool) (q : Nat) :
    messageBit (fun j => byteFrom bits (8 * j)) q = bits.getD q false := by
  rw [messageBit, byteFrom_getLsbD bits _ (Nat.mod_lt q (by decide)), Nat.div_add_mod]

/-! ## The bits of the stream -/

/-- Bit `q` of the padded stream, zeros after the pad bit (R103). -/
def streamBit (m : Nat → Byte) (L q : Nat) : Bool := (streamBits m L).getD q false

section Stream

variable (m : Nat → Byte) (L : Nat)

@[simp] theorem fieldBits_length (V : Nat) : (fieldBits V).length = numLen V := by
  simp [fieldBits]

theorem fieldBits_getD (V : Nat) {q : Nat} (hq : q < numLen V) :
    (fieldBits V).getD q false = V.testBit (numLen V - 1 - q) := by
  simp [fieldBits, hq]

theorem streamBits_length : (streamBits m L).length = L + numLen L + 8 := by
  simp [streamBits, numLen_keylen, Nat.add_assoc]

/-- The message comes first. -/
theorem streamBit_message {q : Nat} (hq : q < L) : streamBit m L q = messageBit m q := by
  rw [streamBit, streamBits, List.append_assoc, List.append_assoc,
    List.getD_append _ _ _ _ (by simpa using hq)]
  simp [hq]

/-- Then the length field (R99). -/
theorem streamBit_length {q : Nat} (hq : q < numLen L) :
    streamBit m L (L + q) = L.testBit (numLen L - 1 - q) := by
  rw [streamBit, streamBits, List.append_assoc, List.append_assoc,
    List.getD_append_right _ _ _ _ (by simp), List.getD_append _ _ _ _ (by simp [hq])]
  simpa using fieldBits_getD L hq

/-- Then the key-length field, 80 in 7 bits (R6, R99). -/
theorem streamBit_keylen {q : Nat} (hq : q < 7) :
    streamBit m L (L + numLen L + q) = Nat.testBit 80 (6 - q) := by
  rw [streamBit, streamBits, List.append_assoc,
    List.getD_append_right _ _ _ _ (by simp),
    List.getD_append _ _ _ _ (by simp [numLen_keylen, hq])]
  have hfield := fieldBits_getD 80 (q := q) (by rw [numLen_keylen]; exact hq)
  rw [numLen_keylen] at hfield
  simpa using hfield

/-- Then the terminating `1`. -/
theorem streamBit_pad : streamBit m L (L + numLen L + 7) = true := by
  rw [streamBit, streamBits, List.getD_append_right _ _ _ _
    (by simp [numLen_keylen, Nat.add_assoc])]
  simp [numLen_keylen, Nat.add_assoc]

/-- After it only zeros. -/
theorem streamBit_after {q : Nat} (hq : L + numLen L + 8 ≤ q) : streamBit m L q = false :=
  List.getD_eq_default _ _ (by rw [streamBits_length]; exact hq)

/-- Byte `j` of the padded stream. -/
def streamByte (j : Nat) : Byte := byteFrom (streamBits m L) (8 * j)

theorem messageBit_streamByte (q : Nat) : messageBit (streamByte m L) q = streamBit m L q :=
  messageBit_byteFrom (streamBits m L) q

/-- The plain blocks are the bytes of the stream, eight in a block (R103). -/
theorem plainBlock_eq (b : Nat) :
    plainBlock m L b = Vector.ofFn fun j => streamByte m L (8 * b + j.val) := by
  refine congrArg Vector.ofFn (funext fun j => ?_)
  rw [streamByte, Nat.mul_add, ← Nat.mul_assoc]

end Stream

/-! ## The stream tells messages apart (R104) -/

section Injective

variable {m m' : Nat → Byte} {L L' : Nat}

/-- Equal blocks have equal bits. -/
theorem streamBit_eq_of_plainBlock {b : Nat} (h : plainBlock m L b = plainBlock m' L' b) {q : Nat}
    (hq : q / 64 = b) : streamBit m L q = streamBit m' L' q := by
  have hbyte : streamByte m L (q / 8) = streamByte m' L' (q / 8) := by
    have hat := congrArg (fun X : Bytes 8 => X.at (q / 8 % 8)) h
    have hindex : 8 * b + q / 8 % 8 = q / 8 := by omega
    have hlow : q / 8 % 8 < 8 := by omega
    simpa [plainBlock_eq, hlow, hindex] using hat
  rw [← messageBit_streamByte, ← messageBit_streamByte, messageBit, messageBit, hbyte]

/-- Streams with the same bits end with the same pad bit: a later one would be a zero of the other. -/
theorem stream_end_le (h : ∀ q, q < 64 * blockCount L → streamBit m L q = streamBit m' L' q) :
    L + numLen L ≤ L' + numLen L' := by
  by_contra hlt
  have hpad := streamBit_pad m L
  rw [h _ (by rw [blockCount]; omega), streamBit_after m' L' (by omega)] at hpad
  cases hpad

end Injective

/-- Settles O54: the pad bit fixes the length, and the message stands at the stream's start. -/
theorem paddedStreamInjective : Obligations.PaddedStreamInjective := by
  intro m m' L L' _ _ hcount hblocks
  have hbits (q : Nat) (hq : q < 64 * blockCount L) : streamBit m L q = streamBit m' L' q :=
    streamBit_eq_of_plainBlock (hblocks (q / 64) (by omega)) rfl
  have hle := stream_end_le hbits
  have hge : L' + numLen L' ≤ L + numLen L :=
    stream_end_le fun q hq => (hbits q (hcount ▸ hq)).symm
  have hlen : L = L' := by
    rcases Nat.le_total L L' with h | h
    · have := numLen_mono h
      omega
    · have := numLen_mono h
      omega
  refine ⟨hlen, fun q hq => ?_⟩
  have hbit := hbits q (by rw [blockCount]; omega)
  rwa [streamBit_message m L hq, streamBit_message m' L' (hlen ▸ hq)] at hbit

end Sys2Proof.Machine

/-! # The bit stream the lanes take in (R99, R132 to R137, R143, R170, R192): the blocks it fills, the calls it makes -/

namespace Sys2Proof.Machine

/-! ## What is taken in, without the cursor -/

/-- A stream of plain bytes for each lane, the sub-keys whose first two bytes are the salts, and the tags to start
from. -/
structure Feed where
  bytes : Lane → Nat → Byte
  key : Lane → Bytes 10
  start : Lane → Bytes 8

/-- The seeds of a permutation call: the tags, exchanged in the wide variant (R170, R191, R192). -/
def seedOf (v : Variant) (T : Lane → Bytes 8) (l : Lane) : Bytes 8 :=
  match v, l with
  | .narrow, l => T l
  | .wide, .one => xchgOne (T .one) (T .two)
  | .wide, .two => xchgTwo (T .one) (T .two)

/-- Plain block `b` of a lane. -/
def Feed.plain (F : Feed) (l : Lane) (b : Nat) : Bytes 8 :=
  Vector.ofFn fun j => F.bytes l (8 * b + j.val)

/-- The lanes' tags after `b` blocks (R173, R202). -/
def Feed.tag (C : Config) (v : Variant) (F : Feed) : Nat → Lane → Bytes 8
  | 0 => F.start
  | b + 1 => fun l => C.rre (seedOf v (Feed.tag C v F b) l)
      (maskedBlock (F.plain l b) (Feed.tag C v F b l) (F.key l)) 16

theorem Feed.tag_succ (C : Config) (v : Variant) (F : Feed) (b : Nat) (l : Lane) :
    F.tag C v (b + 1) l = C.rre (seedOf v (F.tag C v b) l)
      (maskedBlock (F.plain l b) (F.tag C v b l) (F.key l)) 16 := rfl

/-- The working block a lane hands to permutation call `b`: masked with the tag, salted. -/
def Feed.block (C : Config) (v : Variant) (F : Feed) (b : Nat) (l : Lane) : Bytes 10 :=
  maskedBlock (F.plain l b) (F.tag C v b l) (F.key l)

/-- The requests of permutation call `b` (R98, R226). -/
def Feed.requests (C : Config) (v : Variant) (F : Feed) (b : Nat) : List Event :=
  match v with
  | .narrow => [.request 0x041 (seedOf .narrow (F.tag C .narrow b) .one) (F.block C .narrow b .one)]
  | .wide => [.request 0x041 (seedOf .wide (F.tag C .wide b) .one) (F.block C .wide b .one),
      .request 0x043 (seedOf .wide (F.tag C .wide b) .two) (F.block C .wide b .two)]

/-- The lanes in use have made `b` calls and hold the first `n` bits of block `b`, zeros after them (R22, R143). -/
structure TakenIn (C : Config) (v : Variant) (F : Feed) (b n : Nat) (s : State) : Prop where
  tag : ∀ l, LaneUsed v l → s.tag l = F.tag C v b l
  salt : ∀ l, LaneUsed v l →
    (s.blk l).at 8 = (F.key l).at 0 ∧ (s.blk l).at 9 = (F.key l).at 1
  bits : ∀ l, LaneUsed v l → ∀ q, q < 64 → plainBit s l q =
    if q < n then messageBit (F.bytes l) (64 * b + q) else false

section Plain

variable {C : Config} {v : Variant} {F : Feed} {l : Lane} {s t : State} {b n : Nat}

@[simp] theorem orBlkByte_tag (j : Nat) (x : Byte) (s : State) (l : Lane) :
    (orBlkByte v j x s).tag l = s.tag l := by cases v <;> cases l <;> rfl
@[simp] theorem advanceByte_tag (s : State) (l : Lane) : (advanceByte v s).tag l = s.tag l := by
  cases v <;> cases l <;> rfl
@[simp] theorem fill_tag (s : State) (l : Lane) : (fill v s).tag l = s.tag l := by
  cases v <;> cases l <;> rfl

/-- A bit of a plain byte is a plain bit. -/
theorem plainByte_getLsbD (s : State) (l : Lane) (j : Nat) {r : Nat} (hr : r < 8) :
    (plainByte s l j).getLsbD r = plainBit s l (8 * j + (7 - r)) := by
  rw [plainBit, show (8 * j + (7 - r)) / 8 = j by omega,
    show 7 - (8 * j + (7 - r)) % 8 = r by omega]

/-- At the block's start no byte is closed yet. -/
theorem plainByte_of_start (hi : s.i = 0) (j : Nat) : plainByte s l j = (s.blk l).at j := by
  rw [plainByte, hi]
  exact if_neg (Nat.not_lt_zero j)

/-- At the block's end every byte is closed. -/
theorem plainByte_of_full (hi : s.i.toNat = 8) {j : Nat} (hj : j < 8) :
    plainByte s l j = (s.blk l).at j ^^^ (s.tag l).at j := by
  rw [plainByte, hi, if_pos hj]

/-- A byte ORed into the open byte is ORed into its plain content. -/
theorem plainByte_or (hl : LaneUsed v l) (hi : s.i.toNat < 8) (x : Byte) (j : Nat) :
    plainByte (orBlkByte v s.i.toNat x s) l j =
      if j = s.i.toNat then plainByte s l j ||| x else plainByte s l j := by
  simp only [plainByte, orBlkByte_i, orBlkByte_tag, orBlkByte_blk hl, Bytes.at_put]
  grind

/-- To close a byte leaves the plain content as it is (R136, R143). -/
theorem plainByte_advance (hl : LaneUsed v l) (hi : s.i.toNat < 8) (j : Nat) :
    plainByte (advanceByte v s) l j = plainByte s l j := by
  simp only [plainByte, advanceByte_i, advanced_index s hi, advanceByte_tag, advanceByte_blk hl,
    Bytes.at_put]
  rcases Nat.lt_trichotomy j s.i.toNat with h | rfl | h
  · rw [if_pos (by omega), if_pos h, if_neg (by omega)]
  · rw [if_pos (Nat.lt_succ_self _), if_neg (Nat.lt_irrefl _), if_pos ⟨rfl, by omega⟩,
      BitVec.xor_assoc, BitVec.xor_self, BitVec.xor_zero]
  · rw [if_neg (by omega), if_neg (by omega), if_neg (by omega)]

theorem maskedBlock_at (X T : Bytes 8) (k : Bytes 10) {j : Nat} (hj : j < 10) :
    (maskedBlock X T k).at j = if j < 8 then X.at j ^^^ T.at j else k.at (j - 8) := by
  simp [maskedBlock, hj]

theorem Feed.plain_at (F : Feed) (l : Lane) (b : Nat) {j : Nat} (hj : j < 8) :
    (F.plain l b).at j = F.bytes l (8 * b + j) := by
  simp [Feed.plain, hj]

/-- The tag XORed out of a working block leaves the plain block (R143). -/
theorem Feed.block_unmasked (C : Config) (v : Variant) (F : Feed) (b : Nat) (l : Lane) {j : Nat}
    (hj : j < 8) : (F.block C v b l).at j ^^^ (F.tag C v b l).at j = F.bytes l (8 * b + j) := by
  rw [Feed.block, maskedBlock_at _ _ _ (by omega), if_pos hj, Feed.plain_at F l b hj,
    BitVec.xor_assoc, BitVec.xor_self, BitVec.xor_zero]

theorem seedOf_congr {T T' : Lane → Bytes 8} (h : ∀ l, LaneUsed v l → T l = T' l)
    (hl : LaneUsed v l) : seedOf v T l = seedOf v T' l := by
  cases v with
  | narrow => exact h l hl
  | wide => cases l <;> simp only [seedOf, h .one (.inr rfl), h .two (.inr rfl)]

theorem permuteSeed_eq (s : State) (v : Variant) (l : Lane) :
    permuteSeed s v l = seedOf v s.tag l := by
  cases v <;> cases l <;> rfl

/-- A plain byte that is taken in whole is the stream's. -/
theorem TakenIn.plainByte_eq (h : TakenIn C v F b n s) (hl : LaneUsed v l) {j : Nat}
    (hj : 8 * j + 8 ≤ n) (hn : n ≤ 64) : plainByte s l j = F.bytes l (8 * b + j) := by
  refine BitVec.eq_of_getLsbD_eq fun r hr => ?_
  rw [plainByte_getLsbD s l j hr, h.bits l hl _ (by omega), if_pos (by omega),
    getLsbD_eq_messageBit _ _ hr]
  congr 1
  omega

/-- A plain byte that is not yet begun is clear. -/
theorem TakenIn.plainByte_zero (h : TakenIn C v F b n s) (hl : LaneUsed v l) {j : Nat}
    (hj : n ≤ 8 * j) (hj8 : j < 8) : plainByte s l j = 0 := by
  refine BitVec.eq_of_getLsbD_eq fun r hr => ?_
  rw [plainByte_getLsbD s l j hr, h.bits l hl _ (by omega), if_neg (by omega)]
  exact BitVec.getLsbD_zero.symm

/-- Bits of the stream ORed in after the ones the open byte holds. -/
theorem TakenIn.or {k : Nat} (h : TakenIn C v F b n s) (hi : s.i.toNat < 8)
    (hn : n = 8 * s.i.toNat + s.nl.toNat) (hk : s.nl.toNat + k ≤ 8) {x : Byte}
    (hx : ∀ l, LaneUsed v l → ∀ q, q < 8 → x.getLsbD (7 - q) =
      if s.nl.toNat ≤ q ∧ q < s.nl.toNat + k then
        messageBit (F.bytes l) (64 * b + n + (q - s.nl.toNat)) else false) :
    TakenIn C v F b (n + k) (orBlkByte v s.i.toNat x s) where
  tag l hl := (orBlkByte_tag _ x s l).trans (h.tag l hl)
  salt l hl := by
    have hkept := (orBlkByte_kept (v := v) hi x s).salt l hl
    rw [hkept 8 (Nat.le_refl 8), hkept 9 (by decide)]
    exact h.salt l hl
  bits l hl q hq := by
    have hold := h.bits l hl q hq
    rw [plainBit] at hold ⊢
    rw [plainByte_or hl hi]
    by_cases hbyte : q / 8 = s.i.toNat
    · rw [if_pos hbyte, BitVec.getLsbD_or, hold, hx l hl _ (Nat.mod_lt q (by decide))]
      by_cases hlow : q < n
      · rw [if_pos hlow, if_neg (by omega), if_pos (by omega), Bool.or_false]
      by_cases hhigh : q < n + k
      · rw [if_neg hlow, if_pos (by omega), if_pos hhigh, Bool.false_or]
        congr 1
        omega
      · rw [if_neg hlow, if_neg (by omega), if_neg hhigh, Bool.false_or]
    · rw [if_neg hbyte, hold]
      by_cases hlow : q < n
      · rw [if_pos hlow, if_pos (by omega)]
      · rw [if_neg hlow, if_neg (by omega)]

theorem TakenIn.advance (h : TakenIn C v F b n s) (hi : s.i.toNat < 8) :
    TakenIn C v F b n (advanceByte v s) where
  tag l hl := (advanceByte_tag s l).trans (h.tag l hl)
  salt l hl := by
    have hkept := (advanceByte_kept (v := v) hi).salt l hl
    rw [hkept 8 (Nat.le_refl 8), hkept 9 (by decide)]
    exact h.salt l hl
  bits l hl q hq := by
    rw [plainBit, plainByte_advance hl hi]
    exact h.bits l hl q hq

/-- A full block is the plain block masked with the tag, and salted (R136, R143). -/
theorem TakenIn.blk_eq (h : TakenIn C v F b 64 s) (hi : s.i.toNat = 8) (hl : LaneUsed v l) :
    s.blk l = F.block C v b l := by
  refine Bytes.ext_at fun j hj => ?_
  rw [Feed.block, maskedBlock_at _ _ _ hj]
  by_cases hj8 : j < 8
  · have hbyte := h.plainByte_eq hl (j := j) (by omega) (Nat.le_refl 64)
    rw [plainByte_of_full hi hj8] at hbyte
    rw [if_pos hj8, Feed.plain_at F l b hj8, ← hbyte, ← h.tag l hl, BitVec.xor_assoc,
      BitVec.xor_self, BitVec.xor_zero]
  · obtain ⟨hsalt8, hsalt9⟩ := h.salt l hl
    obtain rfl | rfl : j = 8 ∨ j = 9 := by omega
    · exact hsalt8
    · exact hsalt9

/-- The permutation call of a full block starts the next (R137, R170, R192). -/
theorem TakenIn.after_call (h : TakenIn C v F b 64 s) (hi : s.i.toNat = 8) :
    TakenIn C v F (b + 1) 0 { permute C v s with i := 0 } where
  tag l hl := by
    have htag := ((permute_spec C s v).1 l hl).1
    rw [permuteSeed_eq, seedOf_congr h.tag hl, h.blk_eq hi hl] at htag
    exact htag
  salt l hl := by
    have hkept := (permute_kept C v s).salt l hl
    change ((permute C v s).blk l).at 8 = _ ∧ ((permute C v s).blk l).at 9 = _
    rw [hkept 8 (Nat.le_refl 8), hkept 9 (by decide)]
    exact h.salt l hl
  bits l hl q hq := by
    have hclear := permute_clean C v s 0 l hl (q / 8) (Nat.zero_le _) (by omega)
    rw [if_neg (Nat.not_lt_zero q), plainBit, plainByte_of_start rfl]
    change (((permute C v s).blk l).at (q / 8)).getLsbD _ = false
    rw [hclear]
    exact BitVec.getLsbD_zero

theorem TakenIn.requests (h : TakenIn C v F b 64 s) (hi : s.i.toNat = 8) :
    permuteRequests s v = F.requests C v b := by
  have hseed (l : Lane) (hl : LaneUsed v l) : permuteSeed s v l = seedOf v (F.tag C v b) l :=
    (permuteSeed_eq s v l).trans (seedOf_congr h.tag hl)
  have hone := h.blk_eq hi (.inl rfl)
  cases v with
  | narrow => simp only [permuteRequests, Feed.requests, hseed .one (.inl rfl), ← hone, blk_one]
  | wide =>
    have htwo := h.blk_eq hi (l := .two) (.inr rfl)
    simp only [permuteRequests, Feed.requests, hseed .one (.inl rfl), hseed .two (.inr rfl), ← hone,
      ← htwo, blk_one, blk_two]

end Plain

end Sys2Proof.Machine

/-! # `EMIT` on the bit stream (R133 to R139): the bits of a value follow the bits written before, across a block's
end too -/

namespace Sys2Proof.Machine

/-! ## The slices of a value, bit by bit -/

section Slices

variable {V nl num q r : Nat}

/-- `EMIT_FIT`'s byte holds the value after the bits already there (R134). -/
theorem fitSlice_getLsbD (hV : V < 2 ^ num) (hfit : nl + num ≤ 8) (hq : q < 8) :
    (fitSlice V nl num).getLsbD (7 - q) =
      if nl ≤ q ∧ q < nl + num then V.testBit (num - 1 - (q - nl)) else false := by
  rw [fitSlice, BitVec.getLsbD_ofNat, Nat.testBit_shiftLeft,
    decide_eq_true (by omega : 7 - q < 8), Bool.true_and]
  by_cases hlow : nl ≤ q
  · by_cases hhigh : q < nl + num
    · rw [if_pos ⟨hlow, hhigh⟩, decide_eq_true (by omega), Bool.true_and]
      congr 1
      omega
    · rw [if_neg (by omega), decide_eq_false (by omega), Bool.false_and]
  · rw [if_neg (by omega), Nat.testBit_lt_two_pow
      (hV.trans_le (Nat.pow_le_pow_right (by decide) (by omega))), Bool.and_false]

/-- `EMIT_SPAN`'s head fills the open byte with the value's first bits (R135). -/
theorem headSlice_getLsbD (hV : V < 2 ^ num) (hspan : 8 ≤ nl + num) (hnl : nl ≤ 8) (hq : q < 8) :
    (headSlice V num (8 - nl)).getLsbD (7 - q) =
      if nl ≤ q then V.testBit (num - 1 - (q - nl)) else false := by
  rw [headSlice, BitVec.getLsbD_ofNat, Nat.testBit_shiftRight,
    decide_eq_true (by omega : 7 - q < 8), Bool.true_and]
  by_cases hlow : nl ≤ q
  · rw [if_pos hlow]
    congr 1
    omega
  · rw [if_neg hlow, Nat.testBit_lt_two_pow
      (hV.trans_le (Nat.pow_le_pow_right (by decide) (by omega)))]

/-- A middle byte of `EMIT_SPAN` holds the next eight bits (R135). -/
theorem middleSlice_getLsbD (hr : 8 ≤ r) (hq : q < 8) :
    (middleSlice V r).getLsbD (7 - q) = V.testBit (r - 1 - q) := by
  rw [middleSlice, BitVec.getLsbD_ofNat, Nat.testBit_shiftRight,
    decide_eq_true (by omega : 7 - q < 8), Bool.true_and]
  congr 1
  omega

/-- `EMIT_SPAN`'s tail holds the last bits at the top (R135). -/
theorem tailSlice_getLsbD (hr : r < 8) (hq : q < 8) :
    (tailSlice V r).getLsbD (7 - q) = if q < r then V.testBit (r - 1 - q) else false := by
  rw [tailSlice, BitVec.getLsbD_ofNat, Nat.testBit_shiftLeft, Nat.testBit_mod_two_pow,
    decide_eq_true (by omega : 7 - q < 8), Bool.true_and]
  by_cases h : q < r
  · rw [if_pos h, decide_eq_true (by omega), decide_eq_true (by omega), Bool.true_and, Bool.true_and]
    congr 1
    omega
  · rw [if_neg h, decide_eq_false (by omega), Bool.false_and]

end Slices

/-! ## The cursor on the stream -/

/-- The cursor stands at bit `p` of the stream, and the blocks hold what comes before it (R139, R143). -/
structure OnStream (C : Config) (v : Variant) (F : Feed) (p : Nat) (s : State) : Prop where
  index : s.i.toNat < 8
  position : 8 * s.i.toNat + s.nl.toNat = p % 64
  taken : TakenIn C v F (p / 64) (p % 64) s

/-- From bit `p` of the stream on stand the last `r` bits of a number, most significant first (R99). -/
def Carries (v : Variant) (F : Feed) (p V r : Nat) : Prop :=
  ∀ l, LaneUsed v l → ∀ q, q < r → messageBit (F.bytes l) (p + q) = V.testBit (r - 1 - q)

/-- From `s` to `t` the cursor went on from bit `p` by `n` bits, with the requests of the blocks filled. -/
structure Streamed (C : Config) (v : Variant) (F : Feed) (p n : Nat) (s t : State) : Prop where
  stream : OnStream C v F (p + n) t
  history : t.history = s.history ++
    (List.range' (p / 64) ((p + n) / 64 - p / 64)).flatMap (F.requests C v)
  port : t.port = if (p + n) / 64 = p / 64 then s.port else Port.idle

section Stream

variable {C : Config} {v : Variant} {F : Feed} {l : Lane} {s t u : State} {p k n V r : Nat} {x : Byte}

theorem Carries.drop (h : Carries v F p V (k + r)) : Carries v F (p + k) V r := by
  intro l hl q hq
  rw [Nat.add_assoc, h l hl (k + q) (by omega)]
  congr 1
  omega

theorem Streamed.trans (h1 : Streamed C v F p k s t) (h2 : Streamed C v F (p + k) n t u) :
    Streamed C v F p (k + n) s u where
  stream := Nat.add_assoc p k n ▸ h2.stream
  history := by
    have hblocks : (p + (k + n)) / 64 - p / 64 =
        ((p + k) / 64 - p / 64) + ((p + k + n) / 64 - (p + k) / 64) := by omega
    have hnext : p / 64 + ((p + k) / 64 - p / 64) = (p + k) / 64 := by omega
    rw [h2.history, h1.history, List.append_assoc, ← List.flatMap_append, hblocks,
      ← List.range'_append_1, hnext]
  port := by
    rw [h2.port, h1.port, ← Nat.add_assoc]
    by_cases hlast : (p + k + n) / 64 = (p + k) / 64
    · by_cases hfirst : (p + k) / 64 = p / 64
      · rw [if_pos hlast, if_pos hfirst, if_pos (hlast.trans hfirst)]
      · rw [if_pos hlast, if_neg hfirst, if_neg (by omega)]
    · rw [if_neg hlast, if_neg (by omega)]

/-- What is written into the open byte before it is closed goes into no request yet. -/
theorem Streamed.after (hhistory : u.history = s.history) (hport : u.port = s.port)
    (h : Streamed C v F p n u t) : Streamed C v F p n s t :=
  ⟨h.stream, hhistory ▸ h.history, hport ▸ h.port⟩

theorem OnStream.nl_toNat (h : OnStream C v F p s) : s.nl.toNat = p % 8 := by
  have := h.position
  have := s.nl.isLt
  omega

/-- A byte that is taken in whole is closed, and the block permuted when it is the last (R136, R137). -/
theorem closeByte_streams (hi : s.i.toNat < 8) (hk : 8 * s.i.toNat + 8 = p % 64 + k)
    (h : TakenIn C v F (p / 64) (p % 64 + k) s) : Streamed C v F p k s (closeByte C v s) := by
  have hadv := h.advance hi
  have hindex : (advanceByte v s).i.toNat = s.i.toNat + 1 := by
    rw [advanceByte_i, advanced_index s hi]
  have hnl : (advanceByte v s).nl.toNat = 0 := by rw [advanceByte_nl]; rfl
  by_cases h7 : s.i.toNat = 7
  · have hfull : p % 64 + k = 64 := by omega
    rw [hfull] at hadv
    have hnext : (p + k) / 64 = p / 64 + 1 ∧ (p + k) % 64 = 0 := by omega
    have hlog := permute_log C v (advanceByte v s)
    rw [advanceByte_history, hadv.requests (by omega)] at hlog
    rw [closeByte_full C s v h7]
    refine ⟨⟨(by decide : (0 : BitVec 4).toNat < 8), ?_, ?_⟩, hlog.2.trans ?_, hlog.1.trans ?_⟩
    · rw [hnext.2]
      change 0 + (permute C v (advanceByte v s)).nl.toNat = 0
      rw [permute_nl, hnl]
    · rw [hnext.1, hnext.2]
      exact hadv.after_call (by omega)
    · rw [hnext.1, Nat.add_sub_cancel_left]
      simp
    · rw [hnext.1, if_neg (by omega)]
  · have hnext : (p + k) / 64 = p / 64 ∧ (p + k) % 64 = p % 64 + k := by omega
    rw [closeByte_inside C s v (by omega)]
    refine ⟨⟨by omega, by omega, by rwa [hnext.1, hnext.2]⟩, ?_, ?_⟩
    · rw [hnext.1, Nat.sub_self]
      simp
    · rw [if_pos hnext.1]
      cases v <;> rfl

/-- The byte `x` holds the stream's `k` bits from `p` on after the bits the open byte has. -/
def Slice (v : Variant) (F : Feed) (p k : Nat) (x : Byte) : Prop :=
  ∀ l, LaneUsed v l → ∀ q, q < 8 → x.getLsbD (7 - q) =
    if p % 8 ≤ q ∧ q < p % 8 + k then messageBit (F.bytes l) (p + (q - p % 8)) else false

/-- The stream's next bits ORed into the open byte. -/
theorem OnStream.taken_or (h : OnStream C v F p s) (hk : p % 8 + k ≤ 8) (hx : Slice v F p k x) :
    TakenIn C v F (p / 64) (p % 64 + k) (orBlkByte v s.i.toNat x s) := by
  have hnl := h.nl_toNat
  refine h.taken.or h.index h.position.symm (by rwa [hnl]) fun l hl q hq => ?_
  rw [hx l hl q hq, hnl, Nat.div_add_mod]

/-- With room to spare the byte stays open (R134). -/
theorem or_streams (h : OnStream C v F p s) (hk : p % 8 + k < 8) (hx : Slice v F p k x) :
    Streamed C v F p k s
      { orBlkByte v s.i.toNat x s with nl := BitVec.ofNat 3 (p % 8 + k) } := by
  have htaken := h.taken_or hk.le hx
  have hposition := h.position
  have hnl := h.nl_toNat
  have hnext : (p + k) / 64 = p / 64 ∧ (p + k) % 64 = p % 64 + k := by omega
  have hi : (orBlkByte v s.i.toNat x s).i = s.i := orBlkByte_i _ _ _
  refine ⟨⟨?_, ?_, ?_⟩, ?_, ?_⟩
  · change (orBlkByte v s.i.toNat x s).i.toNat < 8
    rw [hi]
    exact h.index
  · change 8 * (orBlkByte v s.i.toNat x s).i.toNat + (BitVec.ofNat 3 (p % 8 + k)).toNat = _
    rw [hi, ofNat3_toNat hk]
    omega
  · rw [hnext.1, hnext.2]
    exact ⟨htaken.tag, htaken.salt, htaken.bits⟩
  · rw [hnext.1, Nat.sub_self]
    exact (orBlkByte_history _ _ _).trans (List.append_nil _).symm
  · rw [if_pos hnext.1]
    cases v <;> rfl

/-- With exactly the room left the byte is closed. -/
theorem or_close_streams (h : OnStream C v F p s) (hk : p % 8 + k = 8) (hx : Slice v F p k x) :
    Streamed C v F p k s (closeByte C v (orBlkByte v s.i.toNat x s)) := by
  have hposition := h.position
  have hi := orBlkByte_i (v := v) s.i.toNat x s
  refine .after (orBlkByte_history _ _ _) (by cases v <;> rfl)
    (closeByte_streams (by rw [hi]; exact h.index) ?_ (h.taken_or hk.le hx))
  rw [hi]
  have := h.nl_toNat
  omega

/-- At the start of a byte, which is clear there, to write it is to OR into it (R22). -/
theorem OnStream.write_eq_or (h : OnStream C v F p s) (hp : p % 8 = 0) (x : Byte) :
    writeBlkByte v s.i.toNat x s = orBlkByte v s.i.toNat x s := by
  have hposition := h.position
  have hindex := h.index
  have hzero (l : Lane) (hl : LaneUsed v l) : (s.blk l).at s.i.toNat = 0 := by
    have hplain := h.taken.plainByte_zero hl (j := s.i.toNat) (by omega) hindex
    rwa [plainByte, if_neg (Nat.lt_irrefl _)] at hplain
  have hor : 0 ||| x = x := BitVec.zero_or
  have hone : s.blk1.at s.i.toNat = 0 := hzero .one (.inl rfl)
  cases v with
  | narrow => rw [writeBlkByte_narrow, orBlkByte_narrow, hone, hor]
  | wide =>
    have htwo : s.blk2.at s.i.toNat = 0 := hzero .two (.inr rfl)
    rw [writeBlkByte_wide, orBlkByte_wide, hone, htwo, hor]

/-! ## The slices of a value the stream carries -/

theorem Carries.fitSlice (h : Carries v F p V n) (hV : V < 2 ^ n) (hn : p % 8 + n ≤ 8) :
    Slice v F p n (fitSlice V (p % 8) n) := by
  intro l hl q hq
  rw [fitSlice_getLsbD hV hn hq]
  split_ifs with hin
  · rw [h l hl (q - p % 8) (by omega)]
  · rfl

theorem Carries.headSlice (h : Carries v F p V n) (hV : V < 2 ^ n) (hn : 8 < p % 8 + n) :
    Slice v F p (8 - p % 8) (headSlice V n (8 - p % 8)) := by
  have hlow : p % 8 < 8 := Nat.mod_lt p (by decide)
  intro l hl q hq
  rw [headSlice_getLsbD hV hn.le hlow.le hq]
  by_cases hin : p % 8 ≤ q
  · rw [if_pos hin, if_pos (by omega), h l hl (q - p % 8) (by omega)]
  · rw [if_neg hin, if_neg (by omega)]

theorem Carries.middleSlice (h : Carries v F p V r) (hp : p % 8 = 0) (hr : 8 ≤ r) :
    Slice v F p 8 (middleSlice V r) := by
  intro l hl q hq
  rw [middleSlice_getLsbD hr hq, if_pos (by omega), hp, Nat.sub_zero, h l hl q (by omega)]

theorem Carries.tailSlice (h : Carries v F p V r) (hp : p % 8 = 0) (hr : r < 8) :
    Slice v F p r (tailSlice V r) := by
  intro l hl q hq
  rw [tailSlice_getLsbD hr hq, hp, Nat.zero_add, Nat.sub_zero]
  by_cases hin : q < r
  · rw [if_pos hin, if_pos ⟨Nat.zero_le q, hin⟩, h l hl q hin]
  · rw [if_neg hin, if_neg (by omega)]

/-! ## `EMIT`, part by part -/

/-- The middle of `EMIT_SPAN` takes whole bytes of the value in (R135). -/
theorem emitMiddle_streams (C : Config) (n : Nat) :
    ∀ {p r : Nat} {s : State}, OnStream C v F p s → p % 8 = 0 → 8 * n ≤ r → Carries v F p V r →
      Streamed C v F p (8 * n) s (emitMiddle C v V n r s) := by
  induction n with
  | zero =>
    intro p r s h _ _ _
    exact ⟨h, by simp [emitMiddle], (if_pos rfl).symm⟩
  | succ n ih =>
    intro p r s h hp hr hcarries
    have hfirst := or_close_streams (C := C) h (by omega) (hcarries.middleSlice hp (by omega))
    rw [← h.write_eq_or hp] at hfirst
    have hrest : r = 8 + (r - 8) := by omega
    rw [hrest] at hcarries
    have hall := hfirst.trans (ih hfirst.stream (by omega) (by omega) hcarries.drop)
    rwa [Nat.add_comm 8, ← Nat.mul_succ] at hall

/-- `EMIT_FIT` takes the whole value in (R134). -/
theorem emitFit_streams (h : OnStream C v F p s) (hV : V < 2 ^ n) (hn : p % 8 + n ≤ 8)
    (hcarries : Carries v F p V n) : Streamed C v F p n s (emitFit C v V n s) := by
  have hslice := hcarries.fitSlice hV hn
  rw [emitFit, h.nl_toNat]
  split_ifs with hfull
  · exact or_close_streams h hfull hslice
  · exact or_streams h (by omega) hslice

/-- `EMIT_SPAN` takes the head, the whole bytes and the tail of the value in (R135). -/
theorem emitSpan_streams (h : OnStream C v F p s) (hV : V < 2 ^ n) (hn : 8 < p % 8 + n)
    (hcarries : Carries v F p V n) : Streamed C v F p n s (emitSpan C v V n s) := by
  have hhead := or_close_streams h (by omega) (hcarries.headSlice hV hn)
  generalize hk : 8 - p % 8 = k at *
  obtain ⟨r, rfl⟩ : ∃ r, n = k + r := ⟨n - k, by omega⟩
  have hmiddle := hhead.trans (emitMiddle_streams C (r / 8) hhead.stream (by omega) (by omega)
    hcarries.drop)
  have hrest : r = 8 * (r / 8) + r % 8 := (Nat.div_add_mod r 8).symm
  have hlast : Carries v F (p + (k + 8 * (r / 8))) V (r % 8) := by
    rw [hrest] at hcarries
    rw [← Nat.add_assoc]
    exact hcarries.drop.drop
  have hbyte : (p + (k + 8 * (r / 8))) % 8 = 0 := by omega
  have htail := or_streams hmiddle.stream (by omega) (hlast.tailSlice hbyte (by omega))
  rw [← hmiddle.stream.write_eq_or hbyte, hbyte, Nat.zero_add] at htail
  have hall := hmiddle.trans htail
  rw [Nat.add_assoc, ← hrest] at hall
  rwa [emitSpan, h.nl_toNat, hk, Nat.add_sub_cancel_left]

/-- `EMIT` takes the value's bits in at the cursor, in every lane in use (R99, R133, R139). -/
theorem emitBits_streams (h : OnStream C v F p s) (hV : V < 2 ^ n) (hcarries : Carries v F p V n) :
    Streamed C v F p n s (emitBits C v V n s) := by
  rw [emitBits, h.nl_toNat]
  split_ifs with hfit
  · exact emitFit_streams h hV hfit hcarries
  · exact emitSpan_streams h hV (by omega) hcarries

end Stream

end Sys2Proof.Machine

/-! # `ENCM` and `ENCK` on any block that is clean from the cursor on (R99, R133 to R137, R143) -/

namespace Sys2Proof.Machine

/-- The plain bits of a lane up to `p`, then the `n` bits of a value. -/
def appendedBit (s : State) (p V n : Nat) (l : Lane) (q : Nat) : Bool :=
  if q < p then plainBit s l q else V.testBit (n - 1 - (q - p))

/-- The feed whose first bits the block of `s` holds, and whose next bits are those of a value. -/
def appendedFeed (s : State) (p V n : Nat) : Feed where
  bytes l j := byteFrom ((List.range 128).map (appendedBit s p V n l)) (8 * j)
  key l := Vector.ofFn fun j => (s.blk l).at (8 + j.val)
  start := s.tag

section Append

variable {C : Config} {v : Variant} {s : State} {p V n : Nat}

theorem appendedFeed_bit (l : Lane) {q : Nat} (hq : q < 128) :
    messageBit ((appendedFeed s p V n).bytes l) q = appendedBit s p V n l q := by
  change messageBit (fun j => byteFrom _ (8 * j)) q = _
  rw [messageBit_byteFrom]
  simp [hq]

theorem appendedFeed_carries (hn : p + n ≤ 128) : Carries v (appendedFeed s p V n) p V n := by
  intro l _ q hq
  rw [appendedFeed_bit l (by omega), appendedBit, if_neg (by omega), Nat.add_sub_cancel_left]

/-- A block that is clean from the cursor on holds what was written before it (R22, R27). -/
theorem appendedFeed_onStream (hi : s.i.toNat < 8) (hp : 8 * s.i.toNat + s.nl.toNat = p)
    (hclean : ∀ l, LaneUsed v l → ∀ q, p ≤ q → q < 64 → plainBit s l q = false) :
    OnStream C v (appendedFeed s p V n) p s := by
  have hnl := s.nl.isLt
  have hsmall : p / 64 = 0 ∧ p % 64 = p := by omega
  refine ⟨hi, hp.trans hsmall.2.symm, ?_⟩
  rw [hsmall.1, hsmall.2]
  refine ⟨fun l _ => rfl, fun l _ => by simp [appendedFeed], fun l hl q hq => ?_⟩
  by_cases hold : q < p
  · rw [if_pos hold, Nat.mul_zero, Nat.zero_add, appendedFeed_bit l (by omega), appendedBit,
      if_pos hold]
  · rw [if_neg hold]
    exact hclean l hl q (by omega) hq

end Append

section Encoding

variable {s t : State} {isKey : Bool} {v : Variant}

/-- A value of 16 bits or of 7. -/
theorem encodingPhase_width (isKey : Bool) (v : Variant) (s : State) :
    numLen (encodingPhase isKey v s).2.1 ≤ 16 := by
  refine numLen_le_iff.mpr ?_
  cases isKey with
  | false => cases v <;> exact s.len.isLt
  | true => cases v <;> exact (by decide : (80 : Nat) < 2 ^ 16)

/-- What `ENCM` and `ENCK` do with the cursor in the block. -/
theorem exec_encodingPhase (hi : s.i.toNat < 8) : exec (encodingPhase isKey v s).1 s =
    .next { emitBits Config.chip v (encodingPhase isKey v s).2.1
        (numLen (encodingPhase isKey v s).2.1) s with
      ph := (encodingPhase isKey v s).2.2 } := by
  cases isKey <;> cases v <;> exact emit_then_phase_of_inside hi

/-- `ENCM` and `ENCK` take their value's bits in after those the block holds. -/
theorem exec_encodingPhase_streams (hi : s.i.toNat < 8) {p V n : Nat}
    (hV : (encodingPhase isKey v s).2.1 = V) (hn : numLen V = n)
    (hp : 8 * s.i.toNat + s.nl.toNat = p)
    (hclean : ∀ l, LaneUsed v l → ∀ q, p ≤ q → q < 64 → plainBit s l q = false) :
    ∃ t, exec (encodingPhase isKey v s).1 s = .next t ∧
      Streamed Config.chip v (appendedFeed s p V n) p n s t := by
  have hwidth := encodingPhase_width isKey v s
  have hnl := s.nl.isLt
  rw [hV, hn] at hwidth
  have hemit := emitBits_streams (C := Config.chip) (appendedFeed_onStream hi hp hclean)
    (hn ▸ lt_two_pow_numLen V) (appendedFeed_carries (s := s) (v := v) (V := V) (by omega))
  refine ⟨_, exec_encodingPhase hi, ?_⟩
  rw [hV, hn]
  obtain ⟨⟨hindex, hposition, ⟨htag, hsalt, hbits⟩⟩, hhistory, hport⟩ := hemit
  exact ⟨⟨hindex, hposition, ⟨htag, hsalt, hbits⟩⟩, hhistory, hport⟩

end Encoding

/-! ## The statements -/

/-- Settles O29: the block holds one stream, the bits before the cursor and then the value's. -/
theorem encodingAppendsBits : Obligations.EncodingAppendsBits := by
  intro s isKey v hi
  dsimp only
  intro hfit hclean
  generalize hV : (encodingPhase isKey v s).2.1 = V at *
  generalize hn : numLen V = n at *
  generalize hp : 8 * s.i.toNat + s.nl.toNat = p at *
  obtain ⟨t, hstep, hstreamed⟩ := exec_encodingPhase_streams hi hV hn hp hclean
  refine ⟨t, hstep, fun l hl q hq => ?_⟩
  rw [hstreamed.stream.taken.bits l hl q hq, show (p + n) % 64 = p + n by omega,
    show (p + n) / 64 = 0 by omega, Nat.mul_zero, Nat.zero_add, appendedFeed_bit l (by omega),
    appendedBit]
  by_cases hold : q < p
  · rw [if_pos (by omega), if_pos hold, if_pos hold]
  · rw [if_neg hold, if_neg hold]

/-- Settles O30: the stream's first block goes to the cipher, and its next bits stand in the new block. -/
theorem encodingCrossesBlock : Obligations.EncodingCrossesBlock := by
  intro s isKey v hi
  dsimp only
  intro hcross hclean
  have hwidth := encodingPhase_width isKey v s
  have hnl := s.nl.isLt
  generalize hV : (encodingPhase isKey v s).2.1 = V at *
  generalize hn : numLen V = n at *
  generalize hp : 8 * s.i.toNat + s.nl.toNat = p at *
  obtain ⟨t, hstep, hstreamed⟩ := exec_encodingPhase_streams hi hV hn hp hclean
  have hbefore : p / 64 = 0 := by omega
  have hafter : (p + n) / 64 = 1 ∧ (p + n) % 64 = p + n - 64 := by omega
  obtain ⟨⟨-, -, htaken⟩, hhistory, hport⟩ := hstreamed
  rw [hafter.1, hafter.2] at htaken
  rw [hafter.1, hbefore] at hhistory
  rw [hafter.1, hbefore, if_neg (by decide)] at hport
  refine ⟨t, (appendedFeed s p V n).block Config.chip v 0, seedOf v s.tag, hstep,
    fun l hl => ⟨fun q hq => ?_, ?_, ?_, htaken.tag l hl, fun q hq => ?_⟩, fun k hk => ⟨?_, ?_⟩,
    hport, ?_⟩
  · have hbyte := (appendedFeed s p V n).block_unmasked Config.chip v 0 l (j := q / 8) (by omega)
    change (_ ^^^ (Feed.tag Config.chip v (appendedFeed s p V n) 0 l).at _).getLsbD _ = _
    rw [hbyte, Nat.mul_zero, Nat.zero_add]
    exact appendedFeed_bit l (by omega)
  · rw [Feed.block, maskedBlock_at _ _ _ (by decide)]
    simp [appendedFeed]
  · rw [Feed.block, maskedBlock_at _ _ _ (by decide)]
    simp [appendedFeed]
  · rw [htaken.bits l hl q hq]
    by_cases hin : q < p + n - 64
    · rw [if_pos hin, if_pos hin, appendedFeed_bit l (by omega), appendedBit, if_neg (by omega),
        Nat.mul_one, Nat.add_comm 64]
    · rw [if_neg hin, if_neg hin]
  · rintro rfl
    rfl
  · rintro rfl
    exact ⟨xchgOne_at _ _ k hk, xchgTwo_at _ _ k hk⟩
  · rw [hhistory]
    cases v <;> rfl

end Sys2Proof.Machine

/-! # An invocation takes in the padded stream, and its tag is the closed form (R103, R173, R202) -/

namespace Sys2Proof.Machine

/-! ## Blocks that do not come bit by bit -/

section Blocks

variable {C : Config} {v : Variant} {F : Feed} {s t : State} {b n p : Nat}

/-- What is taken in stands in the lanes and the cursor's index only. -/
theorem TakenIn.congr (h : TakenIn C v F b n s) (htag : ∀ l, LaneUsed v l → t.tag l = s.tag l)
    (hblk : ∀ l, LaneUsed v l → t.blk l = s.blk l) (hi : t.i = s.i) : TakenIn C v F b n t where
  tag l hl := (htag l hl).trans (h.tag l hl)
  salt l hl := by rw [hblk l hl]; exact h.salt l hl
  bits l hl q hq := by
    rw [plainBit, plainByte, htag l hl, hblk l hl, hi]
    exact h.bits l hl q hq

theorem OnStream.congr (h : OnStream C v F p s) (htag : ∀ l, LaneUsed v l → t.tag l = s.tag l)
    (hblk : ∀ l, LaneUsed v l → t.blk l = s.blk l) (hi : t.i = s.i) (hnl : t.nl = s.nl) :
    OnStream C v F p t :=
  ⟨hi ▸ h.index, by rw [hi, hnl]; exact h.position, h.taken.congr htag hblk hi⟩

/-- A clean and salted block has nothing taken in (R22). -/
theorem TakenIn.of_clean (htag : ∀ l, LaneUsed v l → s.tag l = F.tag C v b l)
    (hsalt : ∀ l, LaneUsed v l → (s.blk l).at 8 = (F.key l).at 0 ∧ (s.blk l).at 9 = (F.key l).at 1)
    (hclean : CleanFrom v 0 s) (hi : s.i = 0) : TakenIn C v F b 0 s where
  tag := htag
  salt := hsalt
  bits l hl q hq := by
    rw [if_neg (Nat.not_lt_zero q), plainBit, plainByte_of_start hi,
      hclean l hl (q / 8) (Nat.zero_le _) (by omega)]
    exact BitVec.getLsbD_zero

/-- Where the stream goes on with zeros to the block's end, the whole block is taken in. -/
theorem TakenIn.zeros (h : TakenIn C v F b n s)
    (hzero : ∀ l, LaneUsed v l → ∀ q, n ≤ q → q < 64 → messageBit (F.bytes l) (64 * b + q) = false) :
    TakenIn C v F b 64 s where
  tag := h.tag
  salt := h.salt
  bits l hl q hq := by
    rw [h.bits l hl q hq, if_pos hq]
    split_ifs with hn
    · rfl
    · exact (hzero l hl q (by omega) hq).symm

/-- The block of plain bytes, all closed, is the next eight bytes of the stream. -/
theorem TakenIn.of_bytes (htag : ∀ l, LaneUsed v l → s.tag l = F.tag C v b l)
    (hsalt : ∀ l, LaneUsed v l → (s.blk l).at 8 = (F.key l).at 0 ∧ (s.blk l).at 9 = (F.key l).at 1)
    (hbytes : ∀ l, LaneUsed v l → ∀ j, j < 8 →
      plainByte s l j = F.bytes l (8 * b + j)) : TakenIn C v F b 64 s where
  tag := htag
  salt := hsalt
  bits l hl q hq := by
    rw [plainBit, hbytes l hl _ (by omega), if_pos hq, messageBit]
    congr 2 <;> omega

theorem permute_index (i : BitVec 4) (s : State) :
    permute C v { s with i := i } = { permute C v s with i := i } := by cases v <;> rfl

/-- The permutation call of a block that is full but for the cursor's index. -/
theorem TakenIn.permute_full (h : TakenIn C v F b 64 { s with i := 8 }) :
    TakenIn C v F (b + 1) 0 { permute C v s with i := 0 } := by
  have hnext := h.after_call rfl
  rwa [permute_index] at hnext

theorem filledBlock_at (i : Nat) (t : Bytes 8) (c : Bytes 10) {j : Nat} (hj : j < 10) :
    (filledBlock i t c).at j = if i ≤ j ∧ j < 8 then t.at j else c.at j := by
  simp [filledBlock, hj]

/-- `FILL` completes the block with zeros, each masked with its tag byte (R141). -/
theorem TakenIn.filled (h : TakenIn C v F b 64 s)
    (hclean : CleanFrom v s.i.toNat s) : TakenIn C v F b 64 { fill v s with i := 8 } := by
  refine .of_bytes (fun l hl => ?_) (fun l hl => ?_) fun l hl j hj => ?_
  · exact (fill_tag s l).trans (h.tag l hl)
  · change ((fill v s).blk l).at 8 = _ ∧ ((fill v s).blk l).at 9 = _
    rw [(fill_kept v s).salt l hl 8 (Nat.le_refl 8), (fill_kept v s).salt l hl 9 (by decide)]
    exact h.salt l hl
  · have hold := h.plainByte_eq hl (j := j) (by omega) (Nat.le_refl 64)
    rw [plainByte_of_full rfl hj]
    change ((fill v s).blk l).at j ^^^ ((fill v s).tag l).at j = _
    rw [fill_tag, fill_blk hl, filledBlock_at _ _ _ (by omega)]
    by_cases hclosed : j < s.i.toNat
    · rw [plainByte, if_pos hclosed] at hold
      rw [if_neg (by omega), hold]
    · rw [plainByte, if_neg hclosed, hclean l hl j (by omega) hj] at hold
      rw [if_pos (by omega), BitVec.xor_self]
      exact hold

end Blocks

/-! ## The stream of an invocation -/

/-- The padded stream in every lane, and the tags `INIT` starts from (R103, R163, R193). -/
def messageFeed (C : Config) (m : Nat → Byte) (L : Nat) (key : Bytes 20) : Feed where
  bytes _ := streamByte m L
  key := subKey key
  start l := C.fe (initialValue C l) (subKey key l)

section Chains

variable (C : Config) (m : Nat → Byte) (L : Nat) (key : Bytes 20)

theorem messageFeed_plain (l : Lane) (b : Nat) :
    (messageFeed C m L key).plain l b = plainBlock m L b := (plainBlock_eq m L b).symm

/-- The narrow closed form is the chain of lane 1's tags (R173). -/
theorem narrowChain_eq (b : Nat) : narrowChain C m L (subKey key .one) b =
    (messageFeed C m L key).tag C .narrow b .one := by
  induction b with
  | zero => rfl
  | succ b ih => rw [narrowChain, Feed.tag_succ, ih, messageFeed_plain]; rfl

/-- The wide closed form is the chain of both lanes' tags (R202). -/
theorem wideChain_eq (b : Nat) : wideChain C m L (subKey key .one) (subKey key .two) b =
    ((messageFeed C m L key).tag C .wide b .one, (messageFeed C m L key).tag C .wide b .two) := by
  induction b with
  | zero => rfl
  | succ b ih =>
    rw [wideChain, Feed.tag_succ, Feed.tag_succ, ih, messageFeed_plain, messageFeed_plain]
    simp only [seedOf, xchgOne, xchgTwo, Nat.add_comm 4]
    rfl

end Chains

/-! ## The message, the fields and the pad bit, phase by phase -/

section Message

variable {m : Nat → Byte} {L : Nat} {v : Variant} {key : Bytes 20} {C : Config}

theorem messageFeed_bit (l : Lane) (q : Nat) :
    messageBit ((messageFeed C m L key).bytes l) q = streamBit m L q :=
  messageBit_streamByte m L q

theorem messageFeed_length : Carries v (messageFeed C m L key) L L (numLen L) := by
  intro l _ q hq
  rw [messageFeed_bit, streamBit_length m L hq]

theorem messageFeed_keylen : Carries v (messageFeed C m L key) (L + numLen L) 80 7 := by
  intro l _ q hq
  rw [messageFeed_bit, streamBit_keylen m L hq]

/-- The pad mask is the one bit at its place (R140). -/
theorem padMask_getLsbD {nl q : Nat} (hnl : nl < 8) (hq : q < 8) :
    (padMask nl).getLsbD (7 - q) = decide (q = nl) := by
  rw [padMask, BitVec.getLsbD_ofNat, Nat.testBit_shiftRight,
    decide_eq_true (by omega : 7 - q < 8), Bool.true_and, show 0x80 = 2 ^ 7 from rfl,
    Nat.testBit_two_pow]
  exact decide_eq_decide.mpr (by omega)

theorem messageFeed_pad : Slice v (messageFeed C m L key) (L + numLen L + 7) 1
    (padMask ((L + numLen L + 7) % 8)) := by
  intro l _ q hq
  have hpad := streamBit_pad m L
  rw [padMask_getLsbD (Nat.mod_lt _ (by decide)) hq]
  generalize hp : L + numLen L + 7 = p at *
  by_cases hbit : q = p % 8
  · rw [if_pos (by omega), hbit, Nat.sub_self, Nat.add_zero, messageFeed_bit, hpad]
    exact decide_eq_true rfl
  · rw [if_neg (by omega), decide_eq_false hbit]

/-- The mask of the tail keeps the high bits (R165). -/
theorem tailMask_high (x : Byte) {r q : Nat} (hr : r ≤ 8) (hq : q < r) :
    (x &&& tailMask r).getLsbD (7 - q) = x.getLsbD (7 - q) := by
  rw [BitVec.getLsbD_and, tailMask, BitVec.getLsbD_ofNat, Nat.testBit_shiftLeft,
    show 0xFF = 2 ^ 8 - 1 from rfl, Nat.testBit_two_pow_sub_one,
    decide_eq_true (by omega : 7 - q < 8), decide_eq_true (by omega : 7 - q ≥ 8 - r),
    decide_eq_true (by omega : 7 - q - (8 - r) < 8)]
  simp

end Message

end Sys2Proof.Machine

/-! # The tag of an invocation (R173, R202, R303) -/

namespace Sys2Proof.Machine

/-- What the lanes have taken in of the padded stream before each phase (R69, R103, R139, R143). -/
structure StreamTaken (C : Config) (F : Feed) (s : State) : Prop where
  absorbing : s.ph = phAbsf ∨ s.ph = phAbsp → OnStream C s.var F (8 * s.ptr.toNat) s
  encoding : s.ph = phEncm ∨ s.ph = phEnck ∨ s.ph = phPad →
    OnStream C s.var F (streamPosition s.ph s.len.toNat) s
  padded : s.ph = phFlr → TakenIn C s.var F (streamPosition phFlr s.len.toNat / 64) 64 s
  flushed : s.ph = phFin → ∀ l, LaneUsed s.var l → s.tag l = F.tag C s.var (blockCount s.len.toNat) l

section StreamTaken

variable {C : Config} {F : Feed} {s t : State} {m : Nat → Byte}

theorem StreamTaken.of_init (hph : s.ph = phInit) : StreamTaken C F s where
  absorbing := by simp [hph]
  encoding := by simp [hph]
  padded := by simp [hph]
  flushed := by simp [hph]

theorem StreamTaken.of_absorbing (hph : s.ph = phAbsf ∨ s.ph = phAbsp)
    (h : OnStream C s.var F (8 * s.ptr.toNat) s) : StreamTaken C F s where
  absorbing _ := h
  encoding := by rcases hph with hph | hph <;> simp [hph]
  padded := by rcases hph with hph | hph <;> simp [hph]
  flushed := by rcases hph with hph | hph <;> simp [hph]

theorem StreamTaken.of_encoding (hph : s.ph = phEncm ∨ s.ph = phEnck ∨ s.ph = phPad)
    (h : OnStream C s.var F (streamPosition s.ph s.len.toNat) s) : StreamTaken C F s where
  absorbing := by rcases hph with hph | hph | hph <;> simp [hph]
  encoding _ := h
  padded := by rcases hph with hph | hph | hph <;> simp [hph]
  flushed := by rcases hph with hph | hph | hph <;> simp [hph]

theorem StreamTaken.of_padded (hph : s.ph = phFlr)
    (h : TakenIn C s.var F (streamPosition phFlr s.len.toNat / 64) 64 s) : StreamTaken C F s where
  absorbing := by simp [hph]
  encoding := by simp [hph]
  padded _ := h
  flushed := by simp [hph]

theorem StreamTaken.of_flushed (hph : s.ph = phFin)
    (h : ∀ l, LaneUsed s.var l → s.tag l = F.tag C s.var (blockCount s.len.toNat) l) :
    StreamTaken C F s where
  absorbing := by simp [hph]
  encoding := by simp [hph]
  padded := by simp [hph]
  flushed _ := h

/-! ## Phase by phase -/

/-- Each lane's tag after `INIT` (R163, R193). -/
theorem initPhase_tag {v : Variant} {l : Lane} (hl : LaneUsed v l) (h : initPhase C v s = .next t) :
    t.tag l = C.fe (initialValue C l) (subKey s.key l) := by
  cases h
  rcases hl with rfl | rfl
  · cases v <;> rfl
  · cases l <;> rfl

/-- `INIT` starts the stream. -/
theorem initPhase_streams {L : Nat} (hinv : Inv t) (hstep : initPhase C s.var s = .next t) :
    StreamTaken C (messageFeed C m L s.key) t := by
  have hframe := initPhase_runFrame hstep
  have ht : t.ph = phAbsf ∧ t.ptr = 0 := by cases hstep; exact ⟨rfl, rfl⟩
  obtain ⟨hph, hptr⟩ := ht
  obtain ⟨hi, hnl, -, -⟩ := hinv.absorbing (.inl hph)
  refine .of_absorbing (.inl hph) ?_
  rw [hptr]
  refine ⟨by rw [hi]; decide, by rw [hi, hnl]; rfl, ?_⟩
  refine .of_clean (fun l hl => ?_) ?_ (hinv.cleanFrom_zero (.inl hph)) hi
  · rw [hframe.var_eq] at hl
    exact initPhase_tag hl hstep
  · have hsalt := hinv.salt (by rw [hph]; decide)
    rwa [hframe.key_eq] at hsalt

/-- The message bits the core reads next are the stream's (R64, R69, R103). -/
theorem Inv.message_bits (h : Inv s) (hph : s.ph = phAbsf ∨ s.ph = phAbsp)
    (hheld : MessageHeld s 0 (bytesOfBits s.len.toNat) m) {n q : Nat} (hn : n ≤ s.rem.toNat)
    (hq : q < n) : (msgByte s (s.ptr.toNat + q / 8)).getLsbD (7 - q % 8) =
      streamBit m s.len.toNat (8 * s.ptr.toNat + q) := by
  obtain ⟨-, -, hsum, -⟩ := h.absorbing hph
  have hbytes := h.absorbing_held hph hheld hn
  rw [msgByte_held hbytes (by rw [bytesOfBits]; omega), streamBit_message m _ (by omega), messageBit,
    show (8 * s.ptr.toNat + q) / 8 = s.ptr.toNat + q / 8 by omega,
    show (8 * s.ptr.toNat + q) % 8 = q % 8 by omega]

@[simp] theorem absorbBytes_tag (v : Variant) (n : Nat) (s : State) (l : Lane) :
    (absorbBytes v n s).tag l = s.tag l := by cases v <;> cases l <;> rfl

@[simp] theorem writeBlkByte_tag (v : Variant) (j : Nat) (x : Byte) (s : State) (l : Lane) :
    (writeBlkByte v j x s).tag l = s.tag l := by cases v <;> cases l <;> rfl

@[simp] theorem noteMsgReads_tag (a n : Nat) (s : State) (l : Lane) :
    (noteMsgReads a n s).tag l = s.tag l := by cases l <;> rfl

@[simp] theorem absorbedFull_tag (v : Variant) (s : State) (l : Lane) :
    (absorbedFull v s).tag l = s.tag l := by rw [absorbedFull, noteMsgReads_tag, absorbBytes_tag]

@[simp] theorem openTail_tag (v : Variant) (nb r : Nat) (s : State) (l : Lane) :
    (openTail v nb r s).tag l = s.tag l := by
  unfold openTail
  split
  · rfl
  · exact writeBlkByte_tag v _ _ s l

@[simp] theorem absorbedTail_tag (v : Variant) (s : State) (l : Lane) :
    (absorbedTail v s).tag l = s.tag l := by
  rw [absorbedTail, openTail_tag, noteMsgReads_tag, absorbBytes_tag]

/-- A block of message bytes, each masked with its tag byte, is the stream's (R164, R194). -/
theorem absorbedFull_taken {v : Variant} {b : Nat} (h : TakenIn C v F b 0 s)
    (hbits : ∀ l q, q < 64 → (msgByte s (s.ptr.toNat + q / 8)).getLsbD (7 - q % 8) =
      messageBit (F.bytes l) (64 * b + q)) :
    TakenIn C v F b 64 { absorbedFull v s with i := 8 } where
  tag l hl := (absorbedFull_tag v s l).trans (h.tag l hl)
  salt l hl := by
    have hkept := (absorbedFull_kept v s).salt l hl
    change ((absorbedFull v s).blk l).at 8 = _ ∧ ((absorbedFull v s).blk l).at 9 = _
    rw [hkept 8 (Nat.le_refl 8), hkept 9 (by decide)]
    exact h.salt l hl
  bits l hl q hq := by
    rw [plainBit, plainByte_of_full rfl (by omega), if_pos hq, ← hbits l q hq]
    change (((absorbBytes v 8 s).blk l).at (q / 8) ^^^
      ((absorbedFull v s).tag l).at (q / 8)).getLsbD _ = _
    rw [absorbedFull_tag, absorbBytes_blk hl, absorbedBlock_at _ _ _ _ (Nat.le_refl 8),
      if_pos (by omega), BitVec.xor_assoc, BitVec.xor_self, BitVec.xor_zero]

/-- The tail's complete bytes masked with the tag, its last bits left open, are the stream's (R165, R195). -/
theorem afterTail_taken {v : Variant} {b : Nat} (h : TakenIn C v F b 0 s) (hi : s.i = 0)
    (hrem : s.rem.toNat < 64)
    (hbits : ∀ l q, q < s.rem.toNat → (msgByte s (s.ptr.toNat + q / 8)).getLsbD (7 - q % 8) =
      messageBit (F.bytes l) (64 * b + q)) :
    TakenIn C v F b s.rem.toNat (afterTail v s) where
  tag l hl := (absorbedTail_tag v s l).trans (h.tag l hl)
  salt l hl := by
    have hkept := (absorbedTail_kept (v := v) hrem).salt l hl
    change ((absorbedTail v s).blk l).at 8 = _ ∧ ((absorbedTail v s).blk l).at 9 = _
    rw [hkept 8 (Nat.le_refl 8), hkept 9 (by decide)]
    exact h.salt l hl
  bits l hl q hq := by
    have hindex : (afterTail v s).i.toNat = s.rem.toNat / 8 := by
      change (BitVec.ofNat 4 (s.rem.toNat / 8)).toNat = _
      rw [BitVec.toNat_ofNat]
      omega
    have hclear := h.plainByte_zero hl (j := q / 8) (Nat.zero_le _) (by omega)
    rw [plainByte_of_start hi] at hclear
    rw [plainBit, plainByte, hindex]
    change (if _ then ((absorbedTail v s).blk l).at _ ^^^ ((absorbedTail v s).tag l).at _
      else ((absorbedTail v s).blk l).at _).getLsbD _ = _
    rw [absorbedTail_tag, absorbedTail_at hl hrem, hclear]
    by_cases hclosed : q / 8 < s.rem.toNat / 8
    · rw [if_pos hclosed, if_pos hclosed, if_pos (by omega), BitVec.xor_assoc, BitVec.xor_self,
        BitVec.xor_zero]
      exact hbits l q (by omega)
    rw [if_neg hclosed, if_neg hclosed]
    by_cases hopen : q / 8 = s.rem.toNat / 8 ∧ s.rem.toNat % 8 ≠ 0
    · rw [if_pos hopen]
      by_cases hin : q < s.rem.toNat
      · rw [if_pos hin, tailMask_high _ (by omega) (by omega)]
        exact hbits l q hin
      · rw [if_neg hin, tailMask_low _ _ (by omega)]
    · rw [if_neg hopen, if_neg (by omega)]
      exact BitVec.getLsbD_zero

/-- `ABSF` takes eight bytes of the message in, or none (R164, R194). -/
theorem absfPhase_streams {key : Bytes 20} (hinv : Inv s) (hph : s.ph = phAbsf)
    (hheld : MessageHeld s 0 (bytesOfBits s.len.toNat) m)
    (h : StreamTaken C (messageFeed C m s.len.toNat key) s)
    (hstep : absfPhase C s.var s = .next t) :
    StreamTaken C (messageFeed C m s.len.toNat key) t := by
  have hframe := absfPhase_runFrame hstep
  have hold := h.absorbing (.inl hph)
  obtain ⟨-, hnl, -, halign⟩ := hinv.absorbing (.inl hph)
  rcases absfPhase_next hstep with ⟨hrem, heq⟩ | ⟨-, rfl⟩
  · have hblock : 8 * s.ptr.toNat / 64 = s.ptr.toNat / 8 ∧ 8 * s.ptr.toNat % 64 = 0 := by omega
    have htaken := hold.taken
    rw [hblock.1, hblock.2] at htaken
    have hnext := (absorbedFull_taken htaken fun l q hq => by
      rw [messageFeed_bit, hinv.message_bits (.inl hph) hheld hrem hq]
      congr 1
      omega).permute_full
    have hptr : t.ptr.toNat = s.ptr.toNat + 8 := by
      obtain ⟨-, -, hsum, -⟩ := hinv.absorbing (.inl hph)
      have := s.len.isLt
      rw [heq, BitVec.toNat_add, show (8 : BitVec 16).toNat = 8 from rfl]
      omega
    have hblock' : 8 * (s.ptr.toNat + 8) / 64 = s.ptr.toNat / 8 + 1 ∧
        8 * (s.ptr.toNat + 8) % 64 = 0 := by omega
    have hi : t.i = 0 := by
      obtain ⟨hi, -⟩ := hinv.absorbing (.inl hph)
      rw [heq]
      simpa using hi
    have hnl' : t.nl = 0 := by
      rw [heq]
      simpa using hnl
    refine .of_absorbing (.inl (by rw [heq])) ?_
    rw [hframe.var_eq, hptr]
    refine ⟨by rw [hi]; decide, by rw [hi, hnl', hblock'.2]; rfl, ?_⟩
    rw [hblock'.1, hblock'.2]
    exact hnext.congr (fun l _ => by rw [heq]; cases l <;> rfl)
      (fun l _ => by rw [heq]; cases l <;> rfl) hi
  · exact .of_absorbing (.inr rfl) (hold.congr (fun _ _ => rfl) (fun _ _ => rfl) rfl rfl)

/-- `ABSP` takes the rest of the message in (R165, R195). -/
theorem abspPhase_streams {key : Bytes 20} (hinv : Inv s) (hinv' : Inv t) (hph : s.ph = phAbsp)
    (hheld : MessageHeld s 0 (bytesOfBits s.len.toNat) m)
    (h : StreamTaken C (messageFeed C m s.len.toNat key) s) (hstep : abspPhase s.var s = .next t) :
    StreamTaken C (messageFeed C m s.len.toNat key) t := by
  have hframe := abspPhase_runFrame hstep
  have hold := h.absorbing (.inr hph)
  obtain ⟨hi, -, hsum, halign⟩ := hinv.absorbing (.inr hph)
  obtain ⟨hrem, heq⟩ := abspPhase_next hstep
  have hphase : t.ph = phEncm := by rw [heq]
  obtain ⟨hindex, hposition⟩ := hinv'.cursor (.inl hphase)
  have hblock : 8 * s.ptr.toNat / 64 = s.ptr.toNat / 8 ∧ 8 * s.ptr.toNat % 64 = 0 := by omega
  have hend : s.len.toNat / 64 = s.ptr.toNat / 8 ∧ s.len.toNat % 64 = s.rem.toNat := by omega
  have htaken := hold.taken
  rw [hblock.1, hblock.2] at htaken
  refine .of_encoding (.inl hphase) ?_
  rw [cursorPosition_eq] at hposition
  refine ⟨hindex, hposition, ?_⟩
  rw [hframe.var_eq, hframe.len_eq, hphase, show streamPosition phEncm s.len.toNat = s.len.toNat from rfl,
    hend.1, hend.2, heq]
  refine afterTail_taken htaken hi hrem fun l q hq => ?_
  rw [messageFeed_bit, hinv.message_bits (.inr hph) hheld (Nat.le_refl _) hq]
  congr 1
  omega

/-- `ENCM` and `ENCK` take their field in (R166, R167, R196, R197). -/
theorem emit_then_phase_streams {V : BitVec 16} {next : BitVec 4}
    (hph : s.ph = phEncm ∨ s.ph = phEnck) (hnext : next = phEnck ∨ next = phPad)
    (hpos : streamPosition s.ph s.len.toNat + numLen V.toNat = streamPosition next s.len.toNat)
    (hcarries : Carries s.var F (streamPosition s.ph s.len.toNat) V.toNat (numLen V.toNat))
    (h : StreamTaken C F s)
    (hstep : (andThen (emit C s.var V s) fun u => .next { u with ph := next }) = .next t) :
    StreamTaken C F t := by
  have hframe := emit_then_phase_runFrame hstep
  have hold := h.encoding (hph.imp_right .inl)
  have hemit := (emitBits_streams hold (lt_two_pow_numLen _) hcarries).stream
  obtain ⟨-, heq⟩ := emit_then_phase_next hstep
  have hphase : t.ph = next := by rw [heq]
  refine .of_encoding (.inr (by rwa [hphase])) ?_
  rw [hframe.var_eq, hphase, hframe.len_eq, ← hpos, heq]
  exact hemit.congr (fun l _ => by cases l <;> rfl) (fun l _ => by cases l <;> rfl) rfl rfl

/-- `PAD` takes the terminating `1` in, and with it the zeros to the block's end (R168, R198). -/
theorem padPhase_streams {key : Bytes 20} (hph : s.ph = phPad)
    (h : StreamTaken C (messageFeed C m s.len.toNat key) s) (hstep : padPhase s.var s = .next t) :
    StreamTaken C (messageFeed C m s.len.toNat key) t := by
  have hframe := padPhase_runFrame hstep
  have hold := h.encoding (.inr (.inr hph))
  obtain ⟨hi, heq⟩ := padPhase_next hstep
  have hp : streamPosition s.ph s.len.toNat = s.len.toNat + numLen s.len.toNat + 7 := by rw [hph]; rfl
  have hflr : streamPosition phFlr s.len.toNat = s.len.toNat + numLen s.len.toNat + 7 := rfl
  rw [hp] at hold
  have htaken := (hold.taken_or (by omega) messageFeed_pad).advance (by rwa [orBlkByte_i])
  rw [← hold.nl_toNat] at htaken
  refine .of_padded (by rw [heq]) ?_
  rw [hframe.var_eq, hframe.len_eq, heq, hflr]
  refine TakenIn.congr (htaken.zeros fun l _ q hq hq64 => ?_) (fun l _ => by cases l <;> rfl)
    (fun l _ => by cases l <;> rfl) rfl
  rw [messageFeed_bit]
  exact streamBit_after m _ (by omega)

/-- `FLR` hands the last block to the cipher (R169, R199). -/
theorem flrPhase_streams (hinv : Inv s) (hph : s.ph = phFlr) (h : StreamTaken C F s)
    (hstep : flrPhase C s.var s = .next t) : StreamTaken C F t := by
  have hframe := flrPhase_runFrame hstep
  have hclean : CleanFrom s.var s.i.toNat s := by
    have hfirst : firstCleanByte s = s.i.toNat := by simp [firstCleanByte, hph]
    intro l hl j hj
    exact hinv.clean (by rw [hph]; decide) l hl j (hfirst ▸ hj)
  have hnext := ((h.padded hph).filled hclean).permute_full
  have heq : t = { permute C s.var (fill s.var s) with i := 0, ph := phFin } := by cases hstep; rfl
  refine .of_flushed (by rw [heq]) fun l hl => ?_
  rw [hframe.var_eq] at hl
  rw [hframe.var_eq, hframe.len_eq, blockCount_eq, ← hnext.tag l hl, heq]
  generalize permute C s.var (fill s.var s) = u
  cases l <;> rfl

/-- Before `FIN` every turn of the core goes on with the stream. -/
theorem StreamTaken.turn {key : Bytes 20} {L : Nat} (hinv : Inv s) (hbusy : s.busy = true)
    (hph : s.ph ≠ phFin) (hheld : MessageHeld s 0 (bytesOfBits s.len.toNat) m)
    (hlen : s.len.toNat = L) (hkey : s.key = key)
    (h : StreamTaken Config.chip (messageFeed Config.chip m L key) s) (hstep : coreTurn s = .next t) :
    StreamTaken Config.chip (messageFeed Config.chip m L key) t := by
  subst hlen hkey
  have hinv' := coreTurn_inv hinv hstep
  cases hinv.phaseTurn hbusy with
  | init _ heq => exact initPhase_streams hinv' (heq.symm.trans hstep)
  | absf hph heq => exact absfPhase_streams hinv hph hheld h (heq.symm.trans hstep)
  | absp hph heq => exact abspPhase_streams hinv hinv' hph hheld h (heq.symm.trans hstep)
  | encm hph heq =>
    refine emit_then_phase_streams (.inl hph) (.inl rfl) ?_ ?_ h (heq.symm.trans hstep)
    · rw [hph]
      rfl
    · rw [hph]
      exact messageFeed_length
  | enck hph heq =>
    have hwidth : numLen Config.keylenField.toNat = 7 := by decide
    refine emit_then_phase_streams (.inr hph) (.inr rfl) ?_ ?_ h (heq.symm.trans hstep)
    · rw [hph, hwidth]
      rfl
    · rw [hph, hwidth]
      exact messageFeed_keylen
  | pad hph heq => exact padPhase_streams hph h (heq.symm.trans hstep)
  | flr hph heq => exact flrPhase_streams hinv hph h (heq.symm.trans hstep)
  | fin hfin _ => exact absurd hfin hph

end StreamTaken

/-! ## The tag in `OUT` -/

/-- Where a lane's half of the tag stands in `OUT` (R67, R171, R200). -/
def outHalf : Lane → Nat
  | .one => 0
  | .two => 8

theorem outputTag_low (v : Variant) (t1 t2 : Bytes 8) {j : Nat} (hj : j < 8) :
    (outputTag v t1 t2).at j = t1.at j := by
  have hj16 : j < 16 := by omega
  cases v <;> simp [outputTag, hj, hj16]

theorem outputTag_wide_high (t1 t2 : Bytes 8) {j : Nat} (hj : j < 8) :
    (outputTag .wide t1 t2).at (8 + j) = t2.at j := by
  have hj16 : 8 + j < 16 := by omega
  simp [outputTag, hj16]

theorem finPhase_out_narrow {C : Config} {s t : State} (h : finPhase C .narrow s = .next t) :
    t.out = outputTag .narrow (C.fe s.tag1 (subKey s.key .one)) s.tag2 := by
  cases h
  rfl

theorem finPhase_out_wide {C : Config} {s t : State} (h : finPhase C .wide s = .next t) :
    t.out = outputTag .wide (C.fe s.tag1 (subKey s.key .one)) (C.fe s.tag2 (subKey s.key .two)) := by
  cases h
  rfl

/-- `FIN` puts each lane's last encryption into its half of `OUT` (R171, R200). -/
theorem finPhase_out {C : Config} {v : Variant} {s t : State} {l : Lane} (hl : LaneUsed v l)
    (h : finPhase C v s = .next t) {j : Nat} (hj : j < 8) :
    t.out.at (outHalf l + j) = (C.fe (s.tag l) (subKey s.key l)).at j := by
  cases l with
  | one =>
    rw [show outHalf .one = 0 from rfl, Nat.zero_add, tag_one]
    cases v with
    | narrow => rw [finPhase_out_narrow h, outputTag_low _ _ _ hj]
    | wide => rw [finPhase_out_wide h, outputTag_low _ _ _ hj]
  | two =>
    obtain rfl : v = .wide := hl.resolve_left nofun
    rw [show outHalf .two = 8 from rfl, tag_two, finPhase_out_wide h, outputTag_wide_high _ _ hj]

/-- The tag that an invocation of `s` with the message `m` leaves in `OUT`. -/
def TagOut (s : State) (m : Nat → Byte) (t : State) : Prop :=
  (∀ l, LaneUsed s.var l → ∀ j, j < 8 → t.out.at (outHalf l + j) =
    (Config.chip.fe ((messageFeed Config.chip m s.len.toNat s.key).tag Config.chip s.var
      (blockCount s.len.toNat) l) (subKey s.key l)).at j) ∧
  (s.var = .narrow → ∀ j, j < 8 → t.out.at (8 + j) = 0)

/-- The stream keeps step with the phases, and `FIN` makes the tag of it. -/
theorem streamTaken_runProperty (s : State) (m : Nat → Byte) : RunProperty s m
    (fun u => u.key = s.key ∧
      StreamTaken Config.chip (messageFeed Config.chip m s.len.toNat s.key) u) (TagOut s m) where
  observed := by
    rintro u t es ⟨hkey, h⟩ ⟨msg, seen, rfl, -⟩
    exact ⟨hkey,
      fun hph => (h.absorbing hph).congr (fun _ _ => rfl) (fun _ _ => rfl) rfl rfl,
      fun hph => (h.encoding hph).congr (fun _ _ => rfl) (fun _ _ => rfl) rfl rfl,
      fun hph => (h.padded hph).congr (fun _ _ => rfl) (fun _ _ => rfl) rfl,
      h.flushed⟩
  turn := by
    rintro u t hu ⟨hkey, h⟩ hstep hph
    obtain ⟨k, c, hturn⟩ := hu.inv.coreTurn_advance hu.busy hph hstep
    have hkey' := (hu.inv.coreTurn_runFrame hu.busy hph hstep).key_eq
    exact ⟨⟨hkey'.trans hkey, h.turn hu.inv hu.busy hph hu.held (by rw [hu.len]) hkey hstep⟩,
      hturn.turns⟩
  final := by
    rintro u t hu ⟨hkey, h⟩ hph hstep
    have hinv := finPhase_inv hu.inv hu.busy hstep
    have hvar : t.var = s.var := by
      obtain ⟨t1, t2, heq⟩ := finPhase_next hstep
      rw [heq]
      exact hu.var
    refine ⟨fun l hl j hj => ?_, fun hnarrow j hj =>
      hinv.outNarrow (hvar.trans hnarrow) (8 + j) (by omega) (by omega)⟩
    rw [← hu.var] at hl ⊢
    rw [finPhase_out hl hstep hj, h.flushed hph l hl, hkey, hu.len]

/-- An invocation leaves its tag, whatever undisturbing turns the host has. -/
theorem invocation_tag {s : State} {m : Nat → Byte} (hinv : Inv s) (hph : s.ph = 1)
    (hes : ∀ e ∈ s.inbox, e.undisturbing s = true)
    (hheld : MessageHeld s 0 ((s.len.toNat + 7) / 8) m) :
    EndsAfter (s.len.toNat / 64 + 8) s (TagOut s m) := by
  have hbusy : s.busy = true := hinv.busy.mpr (by simp [hph])
  exact OnTrack.endsAfter ⟨⟨hinv, hbusy, rfl, rfl, hheld⟩, ⟨rfl, .of_init hph⟩, if_pos hph, hes⟩
    (streamTaken_runProperty s m)

/-! ## The statements -/

/-- Settles O52: lane 1's tags are the narrow chain over the padded stream. -/
theorem narrowTagIsClosedForm : Obligations.NarrowTagIsClosedForm := by
  intro s m hinv hph hvar hes hheld
  refine (invocation_tag hinv hph hes hheld).imp ?_
  rintro t ⟨htag, hzero⟩ j hj
  refine ⟨?_, hzero hvar j hj⟩
  have hone := htag .one (.inl rfl) j hj
  rwa [hvar, ← narrowChain_eq, show outHalf .one = 0 from rfl, Nat.zero_add] at hone

/-- Settles O53: the lanes' tags are the wide chain over the padded stream. -/
theorem wideTagIsClosedForm : Obligations.WideTagIsClosedForm := by
  intro s m hinv hph hvar hes hheld
  refine (invocation_tag hinv hph hes hheld).imp ?_
  rintro t ⟨htag, -⟩ j hj
  have hone := htag .one (.inl rfl) j hj
  have htwo := htag .two (.inr hvar) j hj
  rw [hvar] at hone htwo
  rw [show outHalf .one = 0 from rfl, Nat.zero_add] at hone
  rw [wideTag, wideChain_eq]
  exact ⟨hone, htwo⟩

end Sys2Proof.Machine

/-! # The bit cursor and the length encoder (40_bitcursor_lengthencoder.md): where the cursor goes, what `PAD` and
`FLR` write, and where the phases stop -/

namespace Sys2Proof.Machine

/-! ## The cursor on any block (R133 to R139): how far it goes, and the permutation call at the block's end -/

/-- From `s` to `t` the cursor moved on by `n` bits, whatever the block holds, with one permutation call for each
block's end it reached and no other effect on the tags, the port and the log (R136, R137, R139). -/
structure CursorMoved (v : Variant) (n : Nat) (s t : State) : Prop where
  index : t.i.toNat < 8
  position : 8 * t.i.toNat + t.nl.toNat = (8 * s.i.toNat + s.nl.toNat + n) % 64
  kept : LanesKept v s t
  requests : ∃ es, t.history = s.history ++ es ∧
    es.length = laneCount v * ((8 * s.i.toNat + s.nl.toNat + n) / 64)
  inside : 8 * s.i.toNat + s.nl.toNat + n < 64 → t.tag = s.tag ∧ t.port = s.port

section Cursor

variable {C : Config} {v : Variant} {s t u : State} {k m n : Nat}

@[simp] theorem orBlkByte_nl (j : Nat) (x : Byte) (s : State) : (orBlkByte v j x s).nl = s.nl := by
  cases v <;> rfl
@[simp] theorem writeBlkByte_nl (j : Nat) (x : Byte) (s : State) :
    (writeBlkByte v j x s).nl = s.nl := by cases v <;> rfl
@[simp] theorem orBlkByte_port (j : Nat) (x : Byte) (s : State) :
    (orBlkByte v j x s).port = s.port := by cases v <;> rfl
@[simp] theorem writeBlkByte_port (j : Nat) (x : Byte) (s : State) :
    (writeBlkByte v j x s).port = s.port := by cases v <;> rfl
@[simp] theorem advanceByte_port (s : State) : (advanceByte v s).port = s.port := by
  cases v <;> rfl

theorem permuteRequests_length (s : State) (v : Variant) :
    (permuteRequests s v).length = laneCount v := by cases v <;> rfl

theorem CursorMoved.trans (h1 : CursorMoved v m s t) (h2 : CursorMoved v n t u)
    (hk : m + n = k) : CursorMoved v k s u where
  index := h2.index
  position := by rw [h2.position, h1.position]; omega
  kept := h1.kept.trans h2.kept
  requests := by
    obtain ⟨es, hes, hlen⟩ := h1.requests
    obtain ⟨es', hes', hlen'⟩ := h2.requests
    refine ⟨es ++ es', by rw [hes', hes, List.append_assoc], ?_⟩
    rw [List.length_append, hlen, hlen', h1.position, ← Nat.mul_add]
    exact congrArg (laneCount v * ·) (by omega)
  inside hfit := by
    have hposition := h1.position
    obtain ⟨htag1, hport1⟩ := h1.inside (by omega)
    obtain ⟨htag2, hport2⟩ := h2.inside (by omega)
    exact ⟨htag2.trans htag1, hport2.trans hport1⟩

/-- Within the block nothing but the cursor and the block's bytes changes. -/
theorem CursorMoved.of_inside (hindex : t.i.toNat < 8)
    (hposition : 8 * t.i.toNat + t.nl.toNat = 8 * s.i.toNat + s.nl.toNat + n)
    (hkept : LanesKept v s t) (hhistory : t.history = s.history) (htag : t.tag = s.tag)
    (hport : t.port = s.port) : CursorMoved v n s t := by
  have hnl := t.nl.isLt
  refine ⟨hindex, by omega, hkept, ⟨[], by rw [hhistory, List.append_nil], ?_⟩,
    fun _ => ⟨htag, hport⟩⟩
  rw [Nat.div_eq_of_lt (by omega), Nat.mul_zero, List.length_nil]

theorem orBlkByte_moves (hi : s.i.toNat < 8) (x : Byte) :
    CursorMoved v 0 s (orBlkByte v s.i.toNat x s) :=
  .of_inside (by rwa [orBlkByte_i]) (by rw [orBlkByte_i, orBlkByte_nl, Nat.add_zero])
    (orBlkByte_kept hi x s) (orBlkByte_history _ x s) (funext (orBlkByte_tag _ x s))
    (orBlkByte_port _ x s)

theorem writeBlkByte_moves (hi : s.i.toNat < 8) (x : Byte) :
    CursorMoved v 0 s (writeBlkByte v s.i.toNat x s) :=
  .of_inside (by rwa [writeBlkByte_i]) (by rw [writeBlkByte_i, writeBlkByte_nl, Nat.add_zero])
    (writeBlkByte_kept hi x s) (writeBlkByte_history _ x s) (funext (writeBlkByte_tag v _ x s))
    (writeBlkByte_port _ x s)

/-- Bits that leave the byte open only move `NL` (R134, R135). -/
theorem nl_moves (hi : s.i.toNat < 8) (hn : s.nl.toNat + n < 8) :
    CursorMoved v n s { s with nl := BitVec.ofNat 3 (s.nl.toNat + n) } :=
  .of_inside hi (by dsimp only; rw [ofNat3_toNat hn, Nat.add_assoc])
    ⟨fun _ => ⟨rfl, rfl⟩, fun _ _ _ _ => rfl, id⟩ rfl rfl rfl

/-- To close the open byte is to move on by the bits it had room for, with a permutation call after byte 7
(R136, R137). -/
theorem closeByte_moves (hi : s.i.toNat < 8) (hn : s.nl.toNat + n = 8) :
    CursorMoved v n s (closeByte C v s) := by
  have hnl : (advanceByte v s).nl.toNat = 0 := by rw [advanceByte_nl]; rfl
  have hindex : (advanceByte v s).i.toNat = s.i.toNat + 1 := by
    rw [advanceByte_i, advanced_index s hi]
  by_cases h7 : s.i.toNat = 7
  · rw [closeByte_full C s v h7]
    have hkept := (advanceByte_kept (v := v) hi).trans (permute_kept C v (advanceByte v s))
    have hlog := (permute_log C v (advanceByte v s)).2
    rw [advanceByte_history] at hlog
    refine ⟨(by decide : (0 : BitVec 4).toNat < 8), ?_, ⟨hkept.laneTwo, hkept.salt, hkept.port⟩,
      ⟨_, hlog, ?_⟩, fun hfit => by omega⟩
    · change 0 + (permute C v (advanceByte v s)).nl.toNat = _
      rw [permute_nl, hnl]
      omega
    · rw [permuteRequests_length, show (8 * s.i.toNat + s.nl.toNat + n) / 64 = 1 by omega,
        Nat.mul_one]
  · rw [closeByte_inside C s v (by omega)]
    exact .of_inside (by omega) (by omega) (advanceByte_kept hi) (advanceByte_history s)
      (funext (advanceByte_tag s)) (advanceByte_port s)

theorem or_close_moves (hi : s.i.toNat < 8) (hn : s.nl.toNat + n = 8) (x : Byte) :
    CursorMoved v n s (closeByte C v (orBlkByte v s.i.toNat x s)) := by
  have hor := orBlkByte_moves (v := v) hi x
  exact hor.trans (closeByte_moves hor.index (by rwa [orBlkByte_nl])) (Nat.zero_add n)

theorem write_close_moves (hi : s.i.toNat < 8) (hn : s.nl.toNat + n = 8) (x : Byte) :
    CursorMoved v n s (closeByte C v (writeBlkByte v s.i.toNat x s)) := by
  have hwrite := writeBlkByte_moves (v := v) hi x
  exact hwrite.trans (closeByte_moves hwrite.index (by rwa [writeBlkByte_nl])) (Nat.zero_add n)

/-- After a whole number of bytes the cursor stands at the start of a byte. -/
theorem CursorMoved.byte_start (h : CursorMoved v n s t) (hn : (s.nl.toNat + n) % 8 = 0) :
    t.nl.toNat = 0 := by
  have hposition := h.position
  have hnl := t.nl.isLt
  omega

/-- The middle of `EMIT_SPAN` moves on by `n` whole bytes (R135). -/
theorem emitMiddle_moves (C : Config) (V n : Nat) :
    ∀ (r : Nat) {s : State}, s.i.toNat < 8 → s.nl.toNat = 0 →
      CursorMoved v (8 * n) s (emitMiddle C v V n r s) := by
  induction n with
  | zero =>
    intro r s hi _
    exact .of_inside hi rfl (LanesKept.refl v s) rfl rfl rfl
  | succ n ih =>
    intro r s hi hnl
    have hone := write_close_moves (C := C) (v := v) (n := 8) hi (by omega) (middleSlice V r)
    exact hone.trans (ih (r - 8) hone.index (hone.byte_start (by omega))) (by omega)

theorem emitFit_moves (hi : s.i.toNat < 8) (V : Nat) (hn : s.nl.toNat + n ≤ 8) :
    CursorMoved v n s (emitFit C v V n s) := by
  unfold emitFit
  split
  · exact or_close_moves hi ‹_› _
  · have hor := orBlkByte_moves (v := v) hi (fitSlice V s.nl.toNat n)
    have hopen := nl_moves (v := v) (n := n) hor.index (by rw [orBlkByte_nl]; omega)
    rw [orBlkByte_nl] at hopen
    exact hor.trans hopen (Nat.zero_add n)

/-- The head closes the open byte, the middle closes whole bytes, the tail opens the next (R135). -/
theorem emitSpan_moves (hi : s.i.toNat < 8) (V : Nat) (hn : 8 < s.nl.toNat + n) :
    CursorMoved v n s (emitSpan C v V n s) := by
  have hnl := s.nl.isLt
  generalize hk : 8 - s.nl.toNat = k at *
  generalize hr : n - k = r at *
  have hhead := or_close_moves (C := C) (v := v) (n := k) hi (by omega) (headSlice V n k)
  have hclosed := hhead.trans
    (emitMiddle_moves C V (r / 8) r hhead.index (hhead.byte_start (by omega))) rfl
  have hwritten := hclosed.trans (writeBlkByte_moves hclosed.index (tailSlice V (r % 8))) rfl
  have hstart := hwritten.byte_start (by omega)
  have hopen := nl_moves (v := v) (n := r % 8) hwritten.index (by omega)
  rw [hstart, Nat.zero_add] at hopen
  rw [emitSpan, hk, hr]
  exact hwritten.trans hopen (by omega)

/-- `EMIT` moves the cursor on by the width of the value, on any block (R133, R139). -/
theorem emitBits_moves (hi : s.i.toNat < 8) (V n : Nat) :
    CursorMoved v n s (emitBits C v V n s) := by
  unfold emitBits
  split
  · exact emitFit_moves hi V ‹_›
  · exact emitSpan_moves hi V (by omega)

/-- Bytes 8 and 9 of both lanes stand: of a lane in use as the salt, of lane 2 in the narrow variant untouched. -/
theorem LanesKept.salt_all (h : LanesKept v s t) (l : Lane) :
    (t.blk l).at 8 = (s.blk l).at 8 ∧ (t.blk l).at 9 = (s.blk l).at 9 := by
  by_cases hl : LaneUsed v l
  · exact ⟨h.salt l hl 8 (Nat.le_refl 8), h.salt l hl 9 (by decide)⟩
  · cases l with
    | one => exact absurd (.inl rfl) hl
    | two =>
      cases v with
      | wide => exact absurd (.inr rfl) hl
      | narrow =>
        have hblk : t.blk2 = s.blk2 := (h.laneTwo rfl).2
        rw [blk_two, blk_two, hblk]
        exact ⟨rfl, rfl⟩

/-- The registers an `EMIT` never writes. -/
theorem LaneFrame.registers (h : LaneFrame s t) :
    t.var = s.var ∧ t.len = s.len ∧ t.rem = s.rem ∧ t.ptr = s.ptr ∧ t.busy = s.busy ∧
      t.done = s.done ∧ t.err = s.err ∧ t.keysz = s.keysz ∧ t.msglen = s.msglen ∧
      t.msgsz = s.msgsz ∧ t.key = s.key ∧ t.out = s.out ∧ t.msg = s.msg ∧ t.inbox = s.inbox := by
  unfold LaneFrame at h
  rw [h]
  exact ⟨rfl, rfl, rfl, rfl, rfl, rfl, rfl, rfl, rfl, rfl, rfl, rfl, rfl, rfl⟩

/-- A value no wider than a block reaches the block's end at most once. -/
theorem CursorMoved.added_length (h : CursorMoved v n s t) (hi : s.i.toNat < 8) (hn : n ≤ 64) :
    (s.added t).length = if 8 * s.i.toNat + s.nl.toNat + n < 64 then 0 else laneCount v := by
  have hnl := s.nl.isLt
  obtain ⟨es, hes, hlen⟩ := h.requests
  rw [State.added, hes, List.drop_left, hlen]
  split_ifs with hfit
  · rw [Nat.div_eq_of_lt hfit, Nat.mul_zero]
  · rw [show (8 * s.i.toNat + s.nl.toNat + n) / 64 = 1 by omega, Nat.mul_one]

/-- Inside the block the tags, the port and the log stand. -/
theorem CursorMoved.unpermuted (h : CursorMoved v n s t)
    (hfit : 8 * s.i.toNat + s.nl.toNat + n < 64) :
    t.tag1 = s.tag1 ∧ t.tag2 = s.tag2 ∧ t.port = s.port ∧ t.history = s.history := by
  obtain ⟨htag, hport⟩ := h.inside hfit
  obtain ⟨es, hes, hlen⟩ := h.requests
  rw [Nat.div_eq_of_lt hfit, Nat.mul_zero, List.length_eq_zero_iff] at hlen
  exact ⟨congrFun htag .one, congrFun htag .two, hport, by rw [hes, hlen, List.append_nil]⟩

end Cursor

/-- Settles O28: the cursor's procedures move it on any block, and write the lanes, the port and the log only. -/
theorem encodingMovesCursor : Obligations.EncodingMovesCursor := by
  intro s isKey v hi
  have hwidth := encodingPhase_width isKey v s
  have hmoved := emitBits_moves (C := Config.chip) (v := v) hi (encodingPhase isKey v s).2.1
    (numLen (encodingPhase isKey v s).2.1)
  have hframe := emitBits_frame Config.chip s v (encodingPhase isKey v s).2.1
    (numLen (encodingPhase isKey v s).2.1)
  refine ⟨_, exec_encodingPhase hi, rfl, hmoved.index, hmoved.position, ?_, hmoved.unpermuted,
    hmoved.kept.laneTwo, hmoved.kept.salt_all, hframe.registers⟩
  refine (hmoved.added_length hi (by omega)).trans ?_
  cases v <;> rfl

/-! ## The width of a number (R130) -/

/-- Settles O32: each characterisation is read off `numLen n ≤ w ↔ n < 2 ^ w`. -/
theorem numLenIsMinimalWidth : Obligations.NumLenIsMinimalWidth := by
  intro n
  refine ⟨rfl, fun hpos => ?_, fun hpos => ?_, lt_two_pow_numLen n, fun w => numLen_le_iff.mpr⟩
  · have hle : numLen n ≤ Nat.log2 n + 1 := numLen_le_iff.mpr Nat.lt_log2_self
    have hlt : Nat.log2 n < numLen n := (Nat.log2_lt hpos.ne').mpr (lt_two_pow_numLen n)
    omega
  · refine eq_of_forall_ge_iff fun w => ?_
    cases w with
    | zero => rw [numLen_le_iff]; omega
    | succ w =>
      have hhalf : numLen (n / 2) ≤ w ↔ n / 2 < 2 ^ w := numLen_le_iff
      rw [numLen_le_iff, Nat.pow_succ]
      omega

/-! ## The empty message, and a cursor beyond the block (R138, log 10) -/

section Stops

variable {C : Config} {v : Variant} {s : State}

/-- A byte without a set bit is ORed in without effect. -/
theorem orBlkByte_zero (v : Variant) (j : Nat) (s : State) : orBlkByte v j 0 s = s := by
  have hor (x : Byte) : x ||| 0 = x := BitVec.or_zero
  cases v with
  | narrow => rw [orBlkByte_narrow, hor, Bytes.put_at_self]
  | wide => rw [orBlkByte_wide, hor, hor, Bytes.put_at_self, Bytes.put_at_self]

/-- `EMIT(0)` does nothing (R138). -/
theorem emitBits_zero (C : Config) (v : Variant) (s : State) : emitBits C v 0 0 s = s := by
  have hslice : fitSlice 0 s.nl.toNat 0 = 0 := by simp [fitSlice]
  rw [emitBits_short C s v 0 0 s.nl.isLt, hslice, orBlkByte_zero, Nat.add_zero, BitVec.ofNat_toNat,
    BitVec.setWidth_eq]

theorem encmPhase_empty (hi : s.i.toNat < 8) (hlen : s.len = 0) :
    encmPhase C v s = .next { s with ph := phEnck } := by
  have hzero : s.len.toNat = 0 := by rw [hlen]; rfl
  rw [encmPhase, emit_then_phase_of_inside hi, hzero, show numLen 0 = 0 from rfl, emitBits_zero]

/-- With the cursor beyond the block `ENCM` and `ENCK` stop. -/
theorem emit_then_phase_of_beyond {V : BitVec 16} {next : BitVec 4} (hi : 8 ≤ s.i.toNat) :
    (andThen (emit C v V s) fun u => .next { u with ph := next }) = .fault .cursorBeyondBlock := by
  rw [emit, if_neg (Nat.not_lt.mpr hi), andThen_fault]

/-- With the cursor beyond the block `PAD` stops. -/
theorem padPhase_of_beyond (hi : 8 ≤ s.i.toNat) : padPhase v s = .fault .cursorBeyondBlock := by
  rw [padPhase, padBit, if_neg (Nat.not_lt.mpr hi), andThen_fault]

end Stops

/-- Settles O31: the length 0 has no bits to emit. -/
theorem emptyLengthEmitsNothing : Obligations.EmptyLengthEmitsNothing :=
  fun _ hi hlen => ⟨encmPhase_empty hi hlen, encmPhase_empty hi hlen⟩

/-- Settles O33: `EMIT` and `PADBIT` look at the cursor before they write. -/
theorem cursorBeyondBlockStops : Obligations.CursorBeyondBlockStops :=
  fun _ hi => ⟨emit_then_phase_of_beyond hi, emit_then_phase_of_beyond hi,
    emit_then_phase_of_beyond hi, emit_then_phase_of_beyond hi, padPhase_of_beyond hi,
    padPhase_of_beyond hi⟩

/-! ## `PAD` (R140) -/

/-- The pad mask is `0x80` moved down by `NL`. -/
theorem padMask_eq_shift (nl : Nat) : padMask nl = (0x80 : Byte) >>> nl := by
  refine BitVec.eq_of_toNat_eq ?_
  have hlt : 0x80 >>> nl < 2 ^ 8 := (Nat.shiftRight_le 0x80 nl).trans_lt (by decide)
  rw [padMask, BitVec.toNat_ofNat, Nat.mod_eq_of_lt hlt, BitVec.toNat_ushiftRight]
  rfl

/-- A byte put where there is one is that byte set. -/
theorem put_eq_set {n : Nat} (b : Bytes n) (j : Nat) (x : Byte) (h : j < n) :
    b.put j x = b.set j x h := by
  refine Vector.ext fun k hk => ?_
  rw [Bytes.put, Vector.getElem_setIfInBounds, Vector.getElem_set]

/-- A byte ORed in and then closed with the tag's byte is one write. -/
theorem put_or_put_xor (b : Bytes 10) {j : Nat} (h : j < 10) (x y : Byte) :
    (b.put j (b.at j ||| x)).put j ((b.put j (b.at j ||| x)).at j ^^^ y) =
      b.set j ((b.at j ||| x) ^^^ y) h := by
  rw [Bytes.at_put_self _ _ h, Bytes.put_put_self, put_eq_set _ _ _ h]

/-- Settles O34: the pad bit ORed in and the byte closed, lane by lane. -/
theorem padResult : Obligations.PadResult := by
  intro s hi
  have hi10 : s.i.toNat < 10 := by omega
  have hnarrow : padPhase .narrow s = _ := padPhase_of_inside hi
  have hwide : padPhase .wide s = _ := padPhase_of_inside hi
  rw [orBlkByte_narrow, advanceByte_narrow] at hnarrow
  rw [orBlkByte_wide, advanceByte_wide] at hwide
  dsimp only at hnarrow hwide
  rw [put_or_put_xor _ hi10, padMask_eq_shift] at hnarrow
  rw [put_or_put_xor _ hi10, put_or_put_xor _ hi10, padMask_eq_shift] at hwide
  exact ⟨hnarrow, hwide⟩

/-! ## `FLR` (R141, R191, R192) -/

/-- A block after its permutation call, byte by byte: the salt alone (R22). -/
theorem clearedBlock_eq (b : Bytes 10) :
    clearedBlock b = #v[0, 0, 0, 0, 0, 0, 0, 0, b.at 8, b.at 9] := rfl

theorem xchgOne_eq (t1 t2 : Bytes 8) : xchgOne t1 t2 =
    #v[t1.at 0, t1.at 1, t1.at 2, t1.at 3, t2.at 0, t2.at 1, t2.at 2, t2.at 3] := rfl

theorem xchgTwo_eq (t1 t2 : Bytes 8) : xchgTwo t1 t2 =
    #v[t1.at 4, t1.at 5, t1.at 6, t1.at 7, t2.at 4, t2.at 5, t2.at 6, t2.at 7] := rfl

/-- To fill a block keeps its salt, so the call after it leaves the salt of the block before (R21, R141). -/
theorem clearedBlock_filledBlock (i : Nat) (t : Bytes 8) (b : Bytes 10) :
    clearedBlock (filledBlock i t b) = clearedBlock b := by
  rw [clearedBlock_eq, clearedBlock_eq, filledBlock_at_salt i t b (Nat.le_refl 8),
    filledBlock_at_salt i t b (by decide)]

/-- Settles O35: the filled block goes to one permutation call. -/
theorem flrNarrowResult : Obligations.FlrNarrowResult := by
  intro s
  refine ⟨{ permute Config.chip .narrow (fill .narrow s) with i := 0, ph := phFin }, rfl, ?_⟩
  rw [fill_narrow, permute_narrow, clearedBlock_filledBlock, clearedBlock_eq]
  rfl

/-- Settles O36: both filled blocks go to one permutation call, its seeds the exchanged tags. -/
theorem flrWideResult : Obligations.FlrWideResult := by
  intro s
  refine ⟨{ permute Config.chip .wide (fill .wide s) with i := 0, ph := phFin }, rfl, ?_⟩
  rw [fill_wide, permute_wide, clearedBlock_filledBlock, clearedBlock_filledBlock, clearedBlock_eq,
    clearedBlock_eq, xchgOne_eq, xchgTwo_eq]
  rfl

end Sys2Proof.Machine

/-! # The narrow phase operations (41_blockchainer_narrow.md): that they leave lane 2 out of account, and what `INIT.N`,
`ABSF.N`, `ABSP.N` and `FIN.N` leave -/

namespace Sys2Proof.Machine

/-! ## What the narrow phases leave, as one state (R163 to R165, R171, R172) -/

section NarrowStates

variable (C : Config) (s : State)

theorem initPhase_narrow : initPhase C .narrow s = .next { s with
    tag1 := C.fe C.iv1 (subKey s.key .one), blk1 := saltedBlock (subKey s.key .one)
    i := 0, nl := 0, rem := s.len, ptr := 0, ph := phAbsf, port := Port.idle
    history := s.history ++ encryptRequests .narrow s.key (initialValue C) } := rfl

theorem afterFull_narrow : afterFull C .narrow s = { s with
    tag1 := C.rre s.tag1 (absorbedBlock s 8 s.tag1 s.blk1) 16
    blk1 := clearedBlock (absorbedBlock s 8 s.tag1 s.blk1)
    ptr := s.ptr + 8, rem := s.rem - 64, ph := phAbsf, port := Port.idle
    history := s.history ++ readEvents s.ptr.toNat 8 ++
      [.request 0x041 s.tag1 (absorbedBlock s 8 s.tag1 s.blk1)] } := by
  rw [afterFull, permute_narrow]
  rfl

theorem finPhase_narrow : finPhase C .narrow s = .next (clearScratch { s with
    out := outputTag .narrow (C.fe s.tag1 (subKey s.key .one)) s.tag2
    busy := false, done := true, ph := phIdle, port := Port.idle
    history := s.history ++ encryptRequests .narrow s.key s.tag }) := rfl

/-- `ABSP.N` writes lane 1's block and the log, before the cursor and the counters move on (R165). -/
theorem absorbedTail_narrow : absorbedTail .narrow s = { s with
    blk1 := (absorbedTail .narrow s).blk1
    history := s.history ++ readEvents s.ptr.toNat (bytesOfBits s.rem.toNat) } := by
  unfold absorbedTail openTail
  split <;> rfl

end NarrowStates

/-! ## Lane 2 and the upper key are left out of account (R161) -/

/-- What a narrow phase before `FIN` has no use for: lane 2's registers and, above byte 9, the key. -/
structure UnusedRegs where
  tag2 : Bytes 8
  blk2 : Bytes 10
  key : Bytes 20

/-- The state with other values in these registers. -/
def State.withUnused (s : State) (u : UnusedRegs) : State :=
  { s with tag2 := u.tag2, blk2 := u.blk2, key := u.key }

/-- The values a state has in these registers. -/
def State.unused (s : State) : UnusedRegs := ⟨s.tag2, s.blk2, s.key⟩

theorem withUnused_unused (s : State) : s.withUnused s.unused = s := rfl

/-- The outcome with these values in the unused registers of its next state. -/
def nextWithUnused (r : Res State) (u : UnusedRegs) : Res State :=
  andThen r fun t => .next (t.withUnused u)

section Unused

variable (C : Config) (s : State) (u : UnusedRegs)

@[simp] theorem withUnused_i : (s.withUnused u).i = s.i := rfl
@[simp] theorem withUnused_nl : (s.withUnused u).nl = s.nl := rfl
@[simp] theorem withUnused_rem : (s.withUnused u).rem = s.rem := rfl
@[simp] theorem withUnused_ptr : (s.withUnused u).ptr = s.ptr := rfl

/-! ### The cursor's procedures, the read check and the tail -/

theorem orBlkByte_withUnused (j : Nat) (x : Byte) :
    orBlkByte .narrow j x (s.withUnused u) = (orBlkByte .narrow j x s).withUnused u := rfl

theorem writeBlkByte_withUnused (j : Nat) (x : Byte) :
    writeBlkByte .narrow j x (s.withUnused u) = (writeBlkByte .narrow j x s).withUnused u := rfl

theorem closeByte_withUnused :
    closeByte C .narrow (s.withUnused u) = (closeByte C .narrow s).withUnused u := by
  rw [closeByte_eq, closeByte_eq, withUnused_i]
  split <;> rfl

theorem emitMiddle_withUnused (V n : Nat) : ∀ (r : Nat) (s : State),
    emitMiddle C .narrow V n r (s.withUnused u) = (emitMiddle C .narrow V n r s).withUnused u := by
  induction n with
  | zero => intro r s; rfl
  | succ n ih =>
    intro r s
    rw [emitMiddle, writeBlkByte_withUnused, closeByte_withUnused]
    exact ih (r - 8) _

theorem emitFit_withUnused (V num : Nat) :
    emitFit C .narrow V num (s.withUnused u) = (emitFit C .narrow V num s).withUnused u := by
  unfold emitFit
  rw [withUnused_nl]
  split
  · exact closeByte_withUnused C (orBlkByte .narrow s.i.toNat (fitSlice V s.nl.toNat num) s) u
  · rfl

theorem emitSpan_withUnused (V num : Nat) :
    emitSpan C .narrow V num (s.withUnused u) = (emitSpan C .narrow V num s).withUnused u := by
  unfold emitSpan
  simp only [orBlkByte_withUnused, closeByte_withUnused, emitMiddle_withUnused]
  rfl

theorem emitBits_withUnused (V num : Nat) :
    emitBits C .narrow V num (s.withUnused u) = (emitBits C .narrow V num s).withUnused u := by
  unfold emitBits
  rw [withUnused_nl]
  split
  · exact emitFit_withUnused C s u V num
  · exact emitSpan_withUnused C s u V num

/-- The read check looks at `MSGSZ` and the message space only (R62). -/
theorem msgCheck_withUnused (n : Nat) : ∀ a, msgCheck (s.withUnused u) a n = msgCheck s a n := by
  induction n with
  | zero => intro a; rfl
  | succ n ih =>
    intro a
    exact congrArg (andThen (msgCheckOne s a)) (funext fun _ => ih (a + 1))

theorem absorbedTail_withUnused :
    absorbedTail .narrow (s.withUnused u) = (absorbedTail .narrow s).withUnused u := by
  unfold absorbedTail openTail
  rw [withUnused_rem]
  split <;> rfl

/-! ### Phase by phase -/

/-- `INIT` reads `KEY[0..9]` (R163). -/
theorem initPhase_withUnused (hkey : subKey u.key .one = subKey s.key .one) :
    initPhase C .narrow (s.withUnused u) = nextWithUnused (initPhase C .narrow s) u := by
  rw [initPhase_narrow, initPhase_narrow]
  simp only [State.withUnused, encryptRequests, hkey]
  rfl

theorem absfPhase_withUnused :
    absfPhase C .narrow (s.withUnused u) = nextWithUnused (absfPhase C .narrow s) u := by
  by_cases hrem : 64 ≤ s.rem.toNat
  · rw [absfPhase_reads hrem, absfPhase_reads (s := s.withUnused u) hrem, withUnused_ptr,
      msgCheck_withUnused]
    cases msgCheck s s.ptr.toNat 8 <;> rfl
  · rw [absfPhase_moves_on (Nat.not_le.mp hrem),
      absfPhase_moves_on (s := s.withUnused u) (Nat.not_le.mp hrem)]
    rfl

theorem abspPhase_withUnused :
    abspPhase .narrow (s.withUnused u) = nextWithUnused (abspPhase .narrow s) u := by
  by_cases hrem : s.rem.toNat < 64
  · rw [abspPhase_reads hrem, abspPhase_reads (s := s.withUnused u) hrem, withUnused_ptr,
      withUnused_rem, msgCheck_withUnused, afterTail, absorbedTail_withUnused]
    cases msgCheck s s.ptr.toNat (bytesOfBits s.rem.toNat) <;> rfl
  · rw [abspPhase_long_tail (Nat.not_lt.mp hrem),
      abspPhase_long_tail (s := s.withUnused u) (Nat.not_lt.mp hrem)]
    rfl

/-- `ENCM` and `ENCK`, whatever the value and the next phase. -/
theorem emit_then_phase_withUnused (V : BitVec 16) (next : BitVec 4) :
    (andThen (emit C .narrow V (s.withUnused u)) fun t => .next { t with ph := next }) =
      nextWithUnused (andThen (emit C .narrow V s) fun t => .next { t with ph := next }) u := by
  by_cases hi : s.i.toNat < 8
  · rw [emit_then_phase_of_inside hi, emit_then_phase_of_inside (s := s.withUnused u) hi,
      emitBits_withUnused]
    rfl
  · rw [emit_then_phase_of_beyond (Nat.not_lt.mp hi),
      emit_then_phase_of_beyond (s := s.withUnused u) (Nat.not_lt.mp hi)]
    rfl

theorem padPhase_withUnused :
    padPhase .narrow (s.withUnused u) = nextWithUnused (padPhase .narrow s) u := by
  by_cases hi : s.i.toNat < 8
  · rw [padPhase_of_inside hi, padPhase_of_inside (s := s.withUnused u) hi]
    rfl
  · rw [padPhase_of_beyond (Nat.not_lt.mp hi),
      padPhase_of_beyond (s := s.withUnused u) (Nat.not_lt.mp hi)]
    rfl

theorem flrPhase_withUnused :
    flrPhase C .narrow (s.withUnused u) = nextWithUnused (flrPhase C .narrow s) u := rfl

end Unused

/-- Keys that agree on the bytes 0 to 9 have the same sub-key of lane 1 (R38). -/
theorem subKey_one_congr {key key' : Bytes 20} (h : ∀ j, j < 10 → key'.at j = key.at j) :
    subKey key' .one = subKey key .one :=
  congrArg Vector.ofFn (funext fun j => h j.val j.isLt)

/-- The narrow phase operations before `FIN` (R161). -/
def NarrowBeforeFin (i : Instr) : Prop :=
  i = .initN ∨ i = .absfN ∨ i = .abspN ∨ i = .encmN ∨ i = .enckN ∨ i = .padN ∨ i = .flrN

/-- A narrow phase operation before `FIN` takes the same step whatever stands in the unused registers. -/
theorem exec_withUnused {i : Instr} (hi : NarrowBeforeFin i) (s : State) (u : UnusedRegs)
    (hkey : ∀ j, j < 10 → u.key.at j = s.key.at j) :
    exec i (s.withUnused u) = nextWithUnused (exec i s) u := by
  rcases hi with rfl | rfl | rfl | rfl | rfl | rfl | rfl
  · exact initPhase_withUnused _ s u (subKey_one_congr hkey)
  · exact absfPhase_withUnused _ s u
  · exact abspPhase_withUnused s u
  · exact emit_then_phase_withUnused _ s u _ _
  · exact emit_then_phase_withUnused _ s u _ _
  · exact padPhase_withUnused s u
  · exact flrPhase_withUnused _ s u

/-- What does not read the unused registers does not write them either: put the values in that stand there already. -/
theorem exec_keeps_unused {i : Instr} (hi : NarrowBeforeFin i) {s t : State}
    (h : exec i s = .next t) : t.unused = s.unused := by
  have hstep := exec_withUnused hi s s.unused fun _ _ => rfl
  rw [withUnused_unused, h] at hstep
  injection hstep with heq
  rw [heq]
  rfl

/-- Settles O45: each phase commutes with a change of the unused registers. -/
theorem narrowIgnoresLaneTwo : Obligations.NarrowIgnoresLaneTwo := by
  intro i s t tag' blk' key' hi hkey h
  have hkept := exec_keeps_unused hi h
  have hstep := exec_withUnused hi s ⟨tag', blk', key'⟩ hkey
  rw [h] at hstep
  exact ⟨congrArg UnusedRegs.tag2 hkept, congrArg UnusedRegs.blk2 hkept, hstep⟩

/-! ## `INIT.N` and `FIN.N` (R163, R171, R172) -/

/-- An initialised block, byte by byte: the salt alone (R163). -/
theorem saltedBlock_eq (k : Bytes 10) :
    saltedBlock k = #v[0, 0, 0, 0, 0, 0, 0, 0, k.at 0, k.at 1] := rfl

/-- Settles O19: the block's salt is the first two bytes of the sub-key, and so of the key. -/
theorem initNarrowResult : Obligations.InitNarrowResult := by
  intro s
  refine ⟨_, initPhase_narrow Config.chip s, ?_⟩
  rw [saltedBlock_eq]
  rfl

/-- Settles O37: the tag goes out, then the scratch state is cleared. -/
theorem finNarrowResult : Obligations.FinNarrowResult :=
  fun s => ⟨_, finPhase_narrow Config.chip s, rfl⟩

/-! ## `ABSF.N` (R164) -/

/-- To absorb keeps the salt, so the call after it leaves the salt of the block before (R21, R164). -/
theorem clearedBlock_absorbedBlock (s : State) (t : Bytes 8) (b : Bytes 10) :
    clearedBlock (absorbedBlock s 8 t b) = clearedBlock b := by
  rw [clearedBlock_eq, clearedBlock_eq, absorbedBlock_at _ _ _ _ (Nat.le_refl 8),
    absorbedBlock_at _ _ _ _ (Nat.le_refl 8)]
  rfl

/-- Settles O22: a block held by the host goes to one permutation call; a shorter rest waits for `ABSP`. -/
theorem absfNarrowResult : Obligations.AbsfNarrowResult := by
  refine fun s => ⟨fun m hrem hheld => ⟨_, absfPhase_held hrem hheld, ?_⟩, absfPhase_moves_on⟩
  rw [afterFull_narrow, clearedBlock_absorbedBlock, clearedBlock_eq, absorbedBlock_held hheld]
  rfl

/-! ## `ABSP.N` (R165) -/

/-- The tail's mask is `0xFF` moved up over the bits beyond the message. -/
theorem tailMask_eq_shift (r : Nat) : tailMask r = (0xFF : Byte) <<< (8 - r) := by
  refine BitVec.eq_of_toNat_eq ?_
  rw [tailMask, BitVec.toNat_ofNat, BitVec.toNat_shiftLeft]
  rfl

/-- The block with the tail of a message the host holds, in either variant (R165, R195). -/
theorem absorbedTail_blk_held {v : Variant} {l : Lane} {s : State} {m : Nat → Byte}
    (hl : LaneUsed v l) (hrem : s.rem.toNat < 64)
    (hheld : MessageHeld s s.ptr.toNat (bytesOfBits s.rem.toNat) m) :
    (absorbedTail v s).blk l = Vector.ofFn fun j =>
      if j.val < s.rem.toNat / 8 then m j.val ^^^ (s.tag l).at j.val
      else if j.val = s.rem.toNat / 8 ∧ 0 < s.rem.toNat % 8 then
        m j.val &&& ((0xFF : Byte) <<< (8 - s.rem.toNat % 8))
      else (s.blk l).at j.val := by
  have hbyte (j : Nat) (hj : j < bytesOfBits s.rem.toNat) :
      msgByte s (s.ptr.toNat + j) = m j := msgByte_held hheld hj
  unfold bytesOfBits at hbyte
  refine Bytes.ext_at fun j hj => ?_
  rw [absorbedTail_at hl hrem, Bytes.at_ofFn, dif_pos hj, ← tailMask_eq_shift]
  simp only [Nat.pos_iff_ne_zero]
  split_ifs with hclosed hopen
  · rw [hbyte j (by omega)]
  · rw [hbyte j (by omega)]
  · rfl

/-- Settles O24: the tail of a held message, and the cursor after its last bit. -/
theorem abspNarrowResult : Obligations.AbspNarrowResult := by
  intro s m hrem hheld
  have hblk : (absorbedTail .narrow s).blk1 = _ := absorbedTail_blk_held (.inl rfl) hrem hheld
  refine ⟨_, abspPhase_held hrem hheld, ?_⟩
  rw [afterTail, absorbedTail_narrow, hblk]
  rfl

end Sys2Proof.Machine

/-! # The wide phase operations (42_dualpipe_wide.md): the lane exchange, and what `INIT.W`, `ABSF.W`, `ABSP.W` and
`FIN.W` leave -/

namespace Sys2Proof.Machine

/-! ## The lane exchange (R191) -/

/-- Exchanged twice, lane 1's upper bytes are back from lane 2. -/
theorem xchgOne_xchg (t1 t2 : Bytes 8) : xchgOne (xchgOne t1 t2) (xchgTwo t1 t2) = t1 := by
  refine Bytes.ext_at fun j hj => ?_
  rw [xchgOne_at _ _ j hj]
  split_ifs with hlow
  · rw [xchgOne_at _ _ j hj, if_pos hlow]
  · rw [xchgTwo_at _ _ (j - 4) (by omega), if_pos (by omega), Nat.add_sub_cancel' (by omega)]

/-- Exchanged twice, lane 2's lower bytes are back from lane 1. -/
theorem xchgTwo_xchg (t1 t2 : Bytes 8) : xchgTwo (xchgOne t1 t2) (xchgTwo t1 t2) = t2 := by
  refine Bytes.ext_at fun j hj => ?_
  rw [xchgTwo_at _ _ j hj]
  split_ifs with hlow
  · rw [xchgOne_at _ _ (4 + j) (by omega), if_neg (by omega), Nat.add_sub_cancel_left]
  · rw [xchgTwo_at _ _ j hj, if_neg hlow]

theorem xchg_xchg (s : State) : xchg (xchg s) = s := by
  simp only [xchg, xchgOne_xchg, xchgTwo_xchg]

/-- Settles O42: the bytes are read off the two seeds, and each seed undoes itself. -/
theorem laneExchange : Obligations.LaneExchange := by
  refine fun s => ⟨fun k hk => ?_, rfl, xchg_xchg s⟩
  have hone (j : Nat) (hj : j < 8) :
      (xchg s).tag1.at j = if j < 4 then s.tag1.at j else s.tag2.at (j - 4) := xchgOne_at _ _ j hj
  have htwo (j : Nat) (hj : j < 8) :
      (xchg s).tag2.at j = if j < 4 then s.tag1.at (4 + j) else s.tag2.at j := xchgTwo_at _ _ j hj
  have hhigh : ¬ 4 + k < 4 := by omega
  refine ⟨?_, ?_, ?_, ?_⟩
  · rw [hone k (by omega), if_pos hk]
  · rw [hone (4 + k) (by omega), if_neg hhigh, Nat.add_sub_cancel_left]
  · rw [htwo k (by omega), if_pos hk]
  · rw [htwo (4 + k) (by omega), if_neg hhigh]

/-! ## What the wide phases leave, as one state (R193 to R195, R200) -/

section WideStates

variable (C : Config) (s : State)

/-- `INIT.W` makes no exchange: each lane has its own initial value and sub-key only (R193). -/
theorem initPhase_wide : initPhase C .wide s = .next { s with
    tag1 := C.fe C.iv1 (subKey s.key .one), tag2 := C.fe C.iv2 (subKey s.key .two)
    blk1 := saltedBlock (subKey s.key .one), blk2 := saltedBlock (subKey s.key .two)
    i := 0, nl := 0, rem := s.len, ptr := 0, ph := phAbsf, port := Port.idle
    history := s.history ++ encryptRequests .wide s.key (initialValue C) } := by
  rw [encryptRequests, List.append_cons]
  rfl

/-- The blocks are absorbed under the tags before the exchange, the seeds are the tags after it (R194). -/
theorem afterFull_wide : afterFull C .wide s = { s with
    tag1 := C.rre (xchgOne s.tag1 s.tag2) (absorbedBlock s 8 s.tag1 s.blk1) 16
    tag2 := C.rre (xchgTwo s.tag1 s.tag2) (absorbedBlock s 8 s.tag2 s.blk2) 16
    blk1 := clearedBlock (absorbedBlock s 8 s.tag1 s.blk1)
    blk2 := clearedBlock (absorbedBlock s 8 s.tag2 s.blk2)
    ptr := s.ptr + 8, rem := s.rem - 64, ph := phAbsf, port := Port.idle
    history := s.history ++ readEvents s.ptr.toNat 8 ++
      [.request 0x041 (xchgOne s.tag1 s.tag2) (absorbedBlock s 8 s.tag1 s.blk1),
        .request 0x043 (xchgTwo s.tag1 s.tag2) (absorbedBlock s 8 s.tag2 s.blk2)] } := by
  rw [afterFull, permute_wide]
  rfl

/-- `FIN.W` makes no exchange: each lane's own tag is encrypted under its own sub-key (R200). -/
theorem finPhase_wide : finPhase C .wide s = .next (clearScratch { s with
    out := outputTag .wide (C.fe s.tag1 (subKey s.key .one)) (C.fe s.tag2 (subKey s.key .two))
    busy := false, done := true, ph := phIdle, port := Port.idle
    history := s.history ++ encryptRequests .wide s.key s.tag }) := by
  rw [encryptRequests, List.append_cons]
  rfl

theorem absorbBytes_wide (n : Nat) : absorbBytes .wide n s = { s with
    blk1 := absorbedBlock s n s.tag1 s.blk1, blk2 := absorbedBlock s n s.tag2 s.blk2 } := rfl

/-- `ABSP.W` writes the two blocks and the log, before the cursor and the counters move on (R195). -/
theorem absorbedTail_wide : absorbedTail .wide s = { s with
    blk1 := (absorbedTail .wide s).blk1, blk2 := (absorbedTail .wide s).blk2
    history := s.history ++ readEvents s.ptr.toNat (bytesOfBits s.rem.toNat) } := by
  rw [absorbedTail, absorbBytes_wide, openTail]
  split
  · rfl
  · rw [writeBlkByte_wide]
    rfl

end WideStates

/-! ## `INIT.W` and `FIN.W` (R193, R200) -/

/-- Settles O20: each lane's salt is the first two bytes of its own sub-key. -/
theorem initWideResult : Obligations.InitWideResult := by
  intro s
  refine ⟨_, initPhase_wide Config.chip s, ?_⟩
  rw [saltedBlock_eq, saltedBlock_eq]
  rfl

/-- Settles O38: both tags go out, then the scratch state is cleared. -/
theorem finWideResult : Obligations.FinWideResult :=
  fun s => ⟨_, finPhase_wide Config.chip s, rfl⟩

/-! ## `ABSF.W` (R194) -/

/-- Settles O23: both blocks held by the host go to one permutation call, its seeds the exchanged tags. -/
theorem absfWideResult : Obligations.AbsfWideResult := by
  refine fun s => ⟨fun m hrem hheld => ⟨_, absfPhase_held hrem hheld, ?_⟩, absfPhase_moves_on⟩
  rw [afterFull_wide, clearedBlock_absorbedBlock, clearedBlock_absorbedBlock, clearedBlock_eq,
    clearedBlock_eq, absorbedBlock_held hheld, absorbedBlock_held hheld, xchgOne_eq, xchgTwo_eq]
  rfl

/-! ## `ABSP.W` (R195) -/

/-- Settles O25: the tail of a held message in each lane's block, under that lane's own tag. -/
theorem abspWideResult : Obligations.AbspWideResult := by
  intro s m hrem hheld
  have hone : (absorbedTail .wide s).blk1 = _ := absorbedTail_blk_held (.inl rfl) hrem hheld
  have htwo : (absorbedTail .wide s).blk2 = _ :=
    absorbedTail_blk_held (l := .two) (.inr rfl) hrem hheld
  refine ⟨_, abspPhase_held hrem hheld, ?_⟩
  rw [afterTail, absorbedTail_wide, hone, htwo]
  rfl

end Sys2Proof.Machine

/-! # The cipher adapter (43_cipher_adapter.md): the two requests, their headers and their answers -/

namespace Sys2Proof.Machine

/-- A full-encryption header carries `ROUNDS` 0 and `KIND` 0, so the lane's bit alone is left (R98). -/
theorem headerFE_full (l : Lane) :
    headerFE l Config.roundsFull = match l with | .one => 0x000 | .two => 0x002 := by
  cases l <;> rfl

/-- A reduced-round header carries `ROUNDS` 16 and `KIND` 1 beside the lane's bit (R98). -/
theorem headerRRE_rounds (l : Lane) :
    headerRRE l Config.rounds = match l with | .one => 0x041 | .two => 0x043 := by
  cases l <;> rfl

/-- The lane and the rounds of an `FE` reach the log's header only; the function is the same (R220). -/
theorem exec_fe (l : Lane) (rounds : BitVec 8) (s : State) : exec (.fe l rounds) s =
    .next (answerWith (headerFE l rounds) (Config.chip.fe s.port.a s.port.b) s) := rfl

/-- The lane of an `RRE` reaches the log's header only; the rounds are an operand too (R221). -/
theorem exec_rre (l : Lane) (rounds : BitVec 8) (s : State) : exec (.rre l rounds) s =
    .next (answerWith (headerRRE l rounds) (Config.chip.rre s.port.a s.port.b rounds.toNat) s) := rfl

/-- Settles O41: each request is answered under its header, which is the lane's literal of R98. -/
theorem adapterAnswersRequest : Obligations.AdapterAnswersRequest := by
  refine fun s l => ⟨?_, ?_⟩
  · calc exec (.fe l Config.roundsFull) s
        = .next (answerWith (headerFE l Config.roundsFull) (Config.chip.fe s.port.a s.port.b) s) :=
          exec_fe l _ s
      _ = _ := by rw [headerFE_full]; rfl
  · calc exec (.rre l Config.rounds) s
        = .next (answerWith (headerRRE l Config.rounds) (Config.chip.rre s.port.a s.port.b 16) s) :=
          exec_rre l _ s
      _ = _ := by rw [headerRRE_rounds]; rfl

end Sys2Proof.Machine

/-! # The host commands (44_host_commands.md): the host's writes, the three checks of START, reserved commands -/

namespace Sys2Proof.Machine

/-! ## The register map (R35) -/

theorem hostReg_key {j : Nat} (h : j < 20) : hostReg (16 + j) = .key j := by
  rw [hostReg, if_neg (by omega), if_neg (by omega), if_neg (by omega), if_neg (by omega),
    if_neg (by omega), if_pos (by omega), Nat.add_sub_cancel_left]

/-- The numbers between the rows of the register map and above its last row are reserved (R35). -/
theorem hostReg_reserved {n : Nat} (h : (5 ≤ n ∧ n ≤ 15) ∨ (36 ≤ n ∧ n ≤ 47) ∨ 64 ≤ n) :
    hostReg n = .reserved := by
  rw [hostReg, if_neg (by omega), if_neg (by omega), if_neg (by omega), if_neg (by omega),
    if_neg (by omega), if_neg (by omega), if_neg (by omega)]

/-! ## The host's writes of a whole register (R247 to R249) -/

section Write

variable {s : State} {n width : Nat} {d : BitVec 32} {rest : List HostEvent} {r : HostReg}

/-- A write that comes while `BUSY = 1` leaves no trace but the turn it took (R248). -/
theorem step_hostWrite_busy (hbusy : s.busy = true) (hwhole : (hostReg n).wholeAccess width = true)
    (hinbox : s.inbox = .wr n width d :: rest) : step s = .next { s with inbox := rest } := by
  rw [step_cons s _ rest hinbox, hostTurn, hostWrite, if_pos hwhole, if_pos hbusy]

/-- While `BUSY = 0` a write outside `CMD` reaches its register (R247). -/
theorem step_hostWrite_idle (hidle : s.busy = false) (hreg : hostReg n = r) (hcmd : r ≠ .cmd)
    (hwhole : r.wholeAccess width = true) (hinbox : s.inbox = .wr n width d :: rest) :
    step s = .next (writeReg { s with inbox := rest } d r) := by
  subst hreg
  rw [step_cons s _ rest hinbox, hostTurn, hostWrite, if_pos hwhole, if_neg (by simp [hidle]),
    if_neg hcmd]

/-- A write of a register that takes none is dropped, busy or not (R248, R249). -/
theorem step_hostWrite_dropped (hreg : hostReg n = r) (hcmd : r ≠ .cmd)
    (hdrop : ∀ t, writeReg t d r = t) (hwhole : r.wholeAccess width = true)
    (hinbox : s.inbox = .wr n width d :: rest) : step s = .next { s with inbox := rest } := by
  rcases Bool.eq_false_or_eq_true s.busy with hbusy | hidle
  · exact step_hostWrite_busy hbusy (by rwa [hreg]) hinbox
  · rw [step_hostWrite_idle hidle hreg hcmd hwhole hinbox, hdrop]

/-- While `BUSY = 0` a write of the whole of `CMD` is a command, the low byte of the data (R240). -/
theorem step_command (hidle : s.busy = false) (hinbox : s.inbox = .wr 0 8 d :: rest) :
    step s = commandWrite (d.setWidth 8) { s with inbox := rest } := by
  rw [step_cons s _ rest hinbox]
  exact hostWrite_command d hidle

end Write

/-! ## The checks of START (R241, R266) -/

section Start

variable {s : State} {v : Variant}

theorem startCommand_busy (hbusy : s.busy = true) : startCommand v s = .next s := by
  rw [startCommand, if_pos hbusy]

theorem startCommand_idle (hidle : s.busy = false) : startCommand v s = .next (startIdle v s) := by
  simp [startCommand, hidle]

/-- The first check of R266 fails, whatever the others say. -/
theorem startIdle_tooLong (hlen : 65535 < s.msglen.toNat) :
    startIdle v s = raise .inputTooLong { s with var := v } := by
  simp [startIdle, Config.maxMsgBits, hlen, raise]

/-- The second check of R266 fails, whatever the third says. -/
theorem startIdle_keyMismatch (hlen : s.msglen.toNat ≤ 65535) (hkey : s.keysz ≠ keyBytes v) :
    startIdle v s = raise .keyLengthMismatch { s with var := v } := by
  simp [startIdle, Config.maxMsgBits, hlen.not_gt, hkey, raise]

/-- Only the third check of R266 fails. -/
theorem startIdle_tooShort (hlen : s.msglen.toNat ≤ 65535) (hkey : s.keysz = keyBytes v)
    (hbuf : s.msgsz.toNat < bytesOfBits s.msglen.toNat) :
    startIdle v s = raise .bufferTooShort { s with var := v } := by
  simp [startIdle, Config.maxMsgBits, hlen.not_gt, hkey, hbuf, raise]

/-- No check fails, and the invocation begins (R241). -/
theorem startIdle_accepted (hlen : s.msglen.toNat ≤ 65535) (hkey : s.keysz = keyBytes v)
    (hbuf : bytesOfBits s.msglen.toNat ≤ s.msgsz.toNat) :
    startIdle v s = { s with
      done := false, out := Bytes.zero 16, var := v, err := 0, len := s.msglen.setWidth 16
      busy := true, ph := phInit } := by
  simp [startIdle, Config.maxMsgBits, hlen.not_gt, hkey, hbuf.not_gt]

end Start

/-! ## The statements -/

/-- Settles O11: none of these registers reads other than 0 or takes a write, and the reserved numbers are
those the map leaves out. -/
theorem writeOnlyReadOnlyReserved : Obligations.WriteOnlyReadOnlyReserved := by
  refine fun s rest => ⟨fun h => step_hostRead rfl h, fun j hj h => ?_, fun n width hn h => ?_,
    fun d h => ?_, fun j d hj h => ?_, fun n width d hn h => ?_⟩
  · have hread := step_hostRead (by rw [hostReg_key hj]; rfl) h
    rwa [hostReg_key hj] at hread
  · have hread := step_hostRead (by rw [hostReg_reserved hn]; rfl) h
    rwa [hostReg_reserved hn] at hread
  · exact step_hostWrite_dropped (r := .status) rfl nofun (fun _ => rfl) rfl h
  · exact step_hostWrite_dropped (hostReg_out hj) nofun (fun _ => rfl) rfl h
  · exact step_hostWrite_dropped (hostReg_reserved hn) nofun (fun _ => rfl) rfl h

/-- Settles O12: an idle write reaches the register its number names, the value's low bits kept. -/
theorem idleWritesTakeEffect : Obligations.IdleWritesTakeEffect := by
  refine fun s rest d hidle => ⟨fun h => ?_, fun h => ?_, fun h => ?_, fun j hj h => ?_⟩
  · rw [← BitVec.setWidth_eq_extractLsb' (by decide)]
    exact step_hostWrite_idle (r := .keysz) hidle rfl nofun rfl h
  · exact step_hostWrite_idle (r := .msglen) hidle rfl nofun rfl h
  · exact step_hostWrite_idle (r := .msgsz) hidle rfl nofun rfl h
  · rw [← BitVec.setWidth_eq_extractLsb' (by decide), ← put_eq_set]
    exact step_hostWrite_idle hidle (hostReg_key hj) nofun rfl h

/-- Settles O13: `BUSY` is looked at before the register's number. -/
theorem busyWritesAreDropped : Obligations.BusyWritesAreDropped :=
  fun _ _ _ _ _ hbusy hwhole hinbox => step_hostWrite_busy hbusy hwhole hinbox

/-- Settles O16: `VAR`, `DONE` and `OUT` are written first, then the first check that fails is recorded. -/
theorem startResult : Obligations.StartResult := by
  intro s hidle v cmd need failed
  have hexec : exec cmd s = .next (startIdle v s) := by
    cases v <;> exact startCommand_idle hidle
  have hneed : need = keyBytes v := by cases v <;> rfl
  rw [hexec, hneed]
  refine ⟨fun hlen => ?_, fun hlen hkey => ?_, fun hlen hkey hbuf => ?_, fun hlen hkey hbuf => ?_⟩
  · rw [startIdle_tooLong hlen]
    rfl
  · rw [startIdle_keyMismatch hlen hkey]
    rfl
  · rw [startIdle_tooShort hlen hkey hbuf]
    rfl
  · rw [startIdle_accepted hlen hkey hbuf, BitVec.setWidth_eq_extractLsb' (by decide)]
    rfl

/-- Settles O17: a command value that is no `START` raises, and a byte written to `CMD` is that value. -/
theorem reservedCommandRaises : Obligations.ReservedCommandRaises := by
  intro s c rest hinbox hidle hN hW
  have hlow : (c.setWidth 32).setWidth 8 = c := by
    rw [BitVec.setWidth_setWidth_of_le c (by decide), BitVec.setWidth_eq]
  rw [step_command hidle hinbox, hlow]
  rcases commandWrite_cases c (s := { s with inbox := rest }) hidle with ⟨v, hcode, -⟩ | hraise
  · cases v with
    | narrow => exact absurd hcode hN
    | wide => exact absurd hcode hW
  · rw [hraise, raise_eq]
    rfl

/-- Settles O18: both commands look at `BUSY` before they do anything (log 16). -/
theorem startDroppedWhileBusy : Obligations.StartDroppedWhileBusy :=
  fun _ hbusy => ⟨startCommand_busy hbusy, startCommand_busy hbusy⟩

end Sys2Proof.Machine
